-- ==== Sys2Proof/Word.lean ====
section
/-! DEFINITION. The word types of the SFHC and of its host port (spec R9, R10, R22, R60). -/

namespace Sys2Proof

/-- A 32-bit register value or command word, unsigned (R9, R22). -/
abbrev Word := BitVec 32

/-- One byte of BUF, and one symbol of the 256-symbol alphabet (R8, R10). -/
abbrev Byte := BitVec 8

/-- An offset inside the 0x20000-byte host window (R60). -/
abbrev Offset := BitVec 17

/-- A finite sequence over 0 and 1, first bit first; `true` is 1 (R10). -/
abbrev BitString := List Bool

/-- A finite sequence of byte values, in address order (R10). -/
abbrev ByteString := List Byte

end Sys2Proof
end

