-- ==== Sys2Proof/Config.lean ====
section
/-! DEFINITION. What this implementation fixes (R8) and the one free value the spec leaves open
(R271, R272; 93 U1, U2). `BASE`, the bus protocol and the command latency are parameters no rule
of the model reads (R8, R60, R119). -/

namespace Sys2Proof

/-- BUF_BYTES: the size of the buffer memory (R8, R44). -/
def Config.bufBytes : Nat := 65536

/-- N_MAX: the largest legal payload width (R8). -/
def Config.nMax : Nat := 8

/-- LMAX: the longest code the table RAM holds, in bits (R8). -/
def Config.lMax : Nat := 255

/-- ID, the characters "SFHC", most significant byte first (R3, R23). -/
def Config.idValue : Word := 0x53464843

/-- VERSION, major 1 and minor 0 (R3, R23). -/
def Config.versionValue : Word := 0x00010000

/-- The byte that BUF holds at an address nothing has written since a reset; the first argument
numbers the resets, so that each reset leaves values of its own. A FREE VALUE: the spec says the
contents are unspecified, "any byte value", and never a fault (R271, R272). Log entry 1. -/
opaque Config.unwrittenByte : Nat → Nat → BitVec 8

end Sys2Proof
end

