-- ==== Sys2Proof/Syntax.lean ====
section
/-! DEFINITION. The commands of the SFHC, one constructor per row of the opcode map (R92).
No command carries a field in its word: every operand is an implicit register (R90, R94, R95). -/

namespace Sys2Proof

/-- The 11 commands (R92). -/
inductive Instr where
  /-- NOP, 0x00 (R120). -/
  | nop
  /-- BUILD_TABLE, 0x01 (R140). -/
  | buildTable
  /-- TABLE_CLEAR, 0x02 (R150). -/
  | tableClear
  /-- COMPRESS, 0x03 (R155). -/
  | compress
  /-- DECOMPRESS, 0x04 (R165). -/
  | decompress
  /-- PACK, 0x10 (R181). -/
  | pack
  /-- UNPACK, 0x11 (R188). -/
  | unpack
  /-- ENCODE_BLOCK, 0x20 (R205). -/
  | encodeBlock
  /-- DECODE_BLOCK, 0x21 (R208). -/
  | decodeBlock
  /-- FEC_ENCODE, 0x22 (R213). -/
  | fecEncode
  /-- FEC_DECODE, 0x23 (R217). -/
  | fecDecode
  deriving DecidableEq, Repr

end Sys2Proof
end

