-- ==== Sys2Proof/Decode.lean ====
section
/-! DEFINITION. The decoder of a command word, total on 32-bit words (R90, R91, R93), and the encoder (R92). -/

namespace Sys2Proof

/-- Why a word is no command (R91, R93). -/
inductive DecodeError where
  /-- Bits 31:8 of the word are not all 0 (R90, R91). -/
  | reservedBits
  /-- OP is one of the 245 reserved values (R93). -/
  | reservedOpcode
  deriving DecidableEq, Repr

/-- OP, bits 7:0 of the command word (R90). -/
def opField (w : Word) : Byte := w.extractLsb' 0 8

/-- RSV, bits 31:8 of the command word, which must be 0 (R90). -/
def rsvField (w : Word) : BitVec 24 := w.extractLsb' 8 24

/-- The opcode map read from the opcode to the command (R92). -/
def commandOf (op : Byte) : Option Instr :=
  match op.toNat with
  | 0x00 => some .nop
  | 0x01 => some .buildTable
  | 0x02 => some .tableClear
  | 0x03 => some .compress
  | 0x04 => some .decompress
  | 0x10 => some .pack
  | 0x11 => some .unpack
  | 0x20 => some .encodeBlock
  | 0x21 => some .decodeBlock
  | 0x22 => some .fecEncode
  | 0x23 => some .fecDecode
  | _ => none

/-- The command a word encodes, or the reason it is illegal (R91). -/
def decode (w : Word) : Except DecodeError Instr :=
  if rsvField w ≠ 0 then .error .reservedBits
  else
    match commandOf (opField w) with
    | some i => .ok i
    | none => .error .reservedOpcode

/-- The opcode map read from the command to the opcode (R92). -/
def opcode : Instr → Byte
  | .nop => 0x00
  | .buildTable => 0x01
  | .tableClear => 0x02
  | .compress => 0x03
  | .decompress => 0x04
  | .pack => 0x10
  | .unpack => 0x11
  | .encodeBlock => 0x20
  | .decodeBlock => 0x21
  | .fecEncode => 0x22
  | .fecDecode => 0x23

/-- The command word of a command: OP below, RSV = 0 above (R90). -/
def encode (i : Instr) : Word := (0 : BitVec 24) ++ opcode i

/-- The command read from a word given as `nbits` bits numbered as the opcode table numbers them. -/
def decodeTableWord (nbits w : Nat) : Option Instr :=
  match decode (BitVec.ofNat 32 (w % 2 ^ nbits)) with
  | .ok i => some i
  | .error _ => none

end Sys2Proof
end

