-- ==== Sys2Proof/Machine/Bus.lean ====
section
/-! DEFINITION. The host port: transactions (R60), the register names and offsets (R22), the address
map of the window with the accesses it drops (R61, R62, R64, R65, R68), and the host assembly with its
pseudo-instructions (R96, R97). -/

namespace Sys2Proof.Machine

/-- The size of a host access: 1, 2 or 4 bytes (R60). -/
inductive Size where
  | b1
  | b2
  | b4
  deriving DecidableEq, Repr

/-- One host transaction (R60). A 1-byte write carries its byte in the value's low lane (log entry 4). -/
inductive Access where
  | read (off : Offset) (size : Size)
  | write (off : Offset) (size : Size) (value : Word)
  deriving DecidableEq, Repr

/-- What the host does when it moves: one transaction, or the polling loop WAIT (R97). -/
inductive HostOp where
  | access (a : Access)
  | wait
  deriving DecidableEq, Repr

/-- Who moves next: the host, the command engine (R15), or the reset input (R270). -/
inductive Turn where
  | host
  | engine
  | reset
  deriving DecidableEq, Repr

/-- The 18 registers (R22). -/
inductive RegName where
  | id
  | version
  | ctrl
  | status
  | cmd
  | srcAddr
  | srcLen
  | dstAddr
  | dstLen
  | n
  | blockBytes
  | fecOrigLen
  | fecPad
  | errCorr
  | tableCount
  | blkIndex
  | blkAgree
  | errInfo
  deriving DecidableEq, Repr

/-- A register's offset in the window (R22). -/
def RegName.offset : RegName → Offset
  | .id => 0x0000
  | .version => 0x0004
  | .ctrl => 0x0008
  | .status => 0x000C
  | .cmd => 0x0010
  | .srcAddr => 0x0014
  | .srcLen => 0x0018
  | .dstAddr => 0x001C
  | .dstLen => 0x0020
  | .n => 0x0024
  | .blockBytes => 0x0028
  | .fecOrigLen => 0x002C
  | .fecPad => 0x0030
  | .errCorr => 0x0034
  | .tableCount => 0x0038
  | .blkIndex => 0x003C
  | .blkAgree => 0x0040
  | .errInfo => 0x0044

/-- The register at the k-th word of the window, if there is one (R22, R61). -/
def regAt (k : Nat) : Option RegName :=
  match k with
  | 0 => some .id
  | 1 => some .version
  | 2 => some .ctrl
  | 3 => some .status
  | 4 => some .cmd
  | 5 => some .srcAddr
  | 6 => some .srcLen
  | 7 => some .dstAddr
  | 8 => some .dstLen
  | 9 => some .n
  | 10 => some .blockBytes
  | 11 => some .fecOrigLen
  | 12 => some .fecPad
  | 13 => some .errCorr
  | 14 => some .tableCount
  | 15 => some .blkIndex
  | 16 => some .blkAgree
  | 17 => some .errInfo
  | _ => none

/-- What an access reaches once its size and alignment are checked (R61, R62, R64). -/
inductive Target where
  /-- A reserved range, a disallowed size or a misaligned word: dropped or zero (R62). -/
  | dropped
  /-- A register (R63). -/
  | reg (r : RegName)
  /-- The frequency counter of a symbol (R65). -/
  | freq (sym : Byte)
  /-- Word +0x00 of a table entry: LEN (R64). -/
  | elen (sym : Byte)
  /-- Word +0x20 + 4·w of a table entry: four CODE bytes (R64). -/
  | code (sym : Byte) (w : BitVec 3)
  /-- One byte of BUF (R68). -/
  | bufByte (addr : Nat)
  /-- Four bytes of BUF at a multiple of 4 (R68). -/
  | bufWord (addr : Nat)
  deriving DecidableEq, Repr

/-- The BUF window, at offset 0x10000 + a (R68). -/
def bufTarget (a : Nat) : Size → Target
  | .b1 => .bufByte a
  | .b2 => .dropped
  | .b4 => if a % 4 = 0 then .bufWord a else .dropped

/-- The TABLE window, at byte k of entry `sym` (R64). -/
def tableTarget (sym : Byte) (k : Nat) : Target :=
  if k = 0 then .elen sym
  else if 0x20 ≤ k then .code sym (BitVec.ofNat 3 ((k - 0x20) / 4))
  else .dropped

/-- The address map of the window for aligned 4-byte accesses below BUF (R61). -/
def wordTarget (o : Nat) : Target :=
  if o < 0x1000 then
    match regAt (o / 4) with
    | some r => .reg r
    | none => .dropped
  else if o < 0x1400 then .freq (BitVec.ofNat 8 ((o - 0x1000) / 4))
  else if o < 0x2000 then .dropped
  else if o < 0x6000 then tableTarget (BitVec.ofNat 8 ((o - 0x2000) / 64)) ((o - 0x2000) % 64)
  else .dropped

/-- The address map with the size and alignment checks (R61, R62). -/
def target (off : Offset) (size : Size) : Target :=
  if 0x10000 ≤ off.toNat then bufTarget (off.toNat - 0x10000) size
  else if size = .b4 ∧ off.toNat % 4 = 0 then wordTarget off.toNat
  else .dropped

/-- One line of the host assembly (R96) or one pseudo-instruction (R97). -/
inductive HostLine where
  /-- `W reg, value`. -/
  | writeReg (r : RegName) (v : Word)
  /-- `R reg`. -/
  | readReg (r : RegName)
  /-- `WB a, byte`. -/
  | writeByte (a : Nat) (b : Byte)
  /-- `WW a, word`. -/
  | writeWord (a : Nat) (v : Word)
  /-- `RB a`. -/
  | readByte (a : Nat)
  /-- `WT s, elen, code bytes`. -/
  | writeTable (sym : Byte) (elen : Word) (code : ByteString)
  /-- `WAIT`. -/
  | wait
  /-- `RUN mnemonic`. -/
  | run (i : Instr)
  /-- `SRC a, l`. -/
  | src (a l : Word)
  /-- `DST a`. -/
  | dst (a : Word)
  /-- `ACK`. -/
  | ack
  deriving DecidableEq, Repr

/-- A 4-byte write of a register (R96). -/
def writeRegOp (r : RegName) (v : Word) : HostOp := .access (.write r.offset .b4 v)

/-- The window offset of BUF[a] (R68). -/
def bufOffset (a : Nat) : Offset := BitVec.ofNat 17 (0x10000 + a)

/-- The window offset of word +k of table entry `sym` (R64). -/
def tableOffset (sym : Byte) (k : Nat) : Offset := BitVec.ofNat 17 (0x2000 + 64 * sym.toNat + k)

/-- Four bytes as one little-endian word (R69). -/
def leWord (b0 b1 b2 b3 : Byte) : Word := b3 ++ b2 ++ b1 ++ b0

/-- The CODE words that hold a list of code bytes, the last one filled with 0x00 (R64, R96; log entry 6). -/
def codeWords (code : ByteString) : List Word :=
  (List.range ((code.length + 3) / 4)).map fun w =>
    leWord (code.getD (4 * w) 0) (code.getD (4 * w + 1) 0) (code.getD (4 * w + 2) 0) (code.getD (4 * w + 3) 0)

/-- The transactions a host line stands for (R96, R97). -/
def HostLine.expand : HostLine → List HostOp
  | .writeReg r v => [writeRegOp r v]
  | .readReg r => [.access (.read r.offset .b4)]
  | .writeByte a b => [.access (.write (bufOffset a) .b1 (b.setWidth 32))]
  | .writeWord a v => [.access (.write (bufOffset a) .b4 v)]
  | .readByte a => [.access (.read (bufOffset a) .b1)]
  | .writeTable sym elen code =>
      .access (.write (tableOffset sym 0) .b4 elen) ::
        (codeWords code).zipIdx.map fun p => .access (.write (tableOffset sym (0x20 + 4 * p.2)) .b4 p.1)
  | .wait => [.wait]
  | .run i => [writeRegOp .cmd (encode i), .wait]
  | .src a l => [writeRegOp .srcAddr a, writeRegOp .srcLen l]
  | .dst a => [writeRegOp .dstAddr a]
  | .ack => [writeRegOp .status 0x00000006]

end Sys2Proof.Machine
end

