-- ==== Sys2Proof/Machine/State.lean ====
section
/-! DEFINITION. The state of the SFHC (R20), the stopping reasons, and the state after reset (R270). -/

namespace Sys2Proof.Machine

/-- STATUS.ERR, one of the eight codes (R240; 93 V2 allows an enumeration). -/
inductive ErrCode where
  | none
  | badCmd
  | badParam
  | badBlockLen
  | range
  | badTable
  | symbolAbsent
  | overlap
  deriving DecidableEq, Repr

/-- The five diagnostic flags, STATUS[20:16] (R25, R247). -/
structure Diag where
  /-- STATUS[16]: BUILD_TABLE of an empty input. -/
  empty : Bool := false
  /-- STATUS[17]: DECOMPRESS discarded trailing bits. -/
  tail : Bool := false
  /-- STATUS[18]: UNPACK fell back to the raw bytes. -/
  padFault : Bool := false
  /-- STATUS[19]: FEC_DECODE truncated its input to whole blocks. -/
  trunc : Bool := false
  /-- STATUS[20]: FEC_DECODE decoded fewer than FEC_ORIG_LEN bits. -/
  short : Bool := false
  deriving DecidableEq, Repr

/-- PEND: no command, or the command word latched at issue (R46). -/
inductive Pending where
  | idle
  | running (w : Word)
  deriving DecidableEq, Repr

/-- One entry of the code-table RAM: LEN and the 32 CODE bytes (R40). -/
structure TableEntry where
  len : Byte
  code : Vector Byte 32
  deriving DecidableEq, Repr

/-- The code-table RAM (R40). -/
abbrev TableRam := Vector TableEntry 256

/-- The bytes of BUF written since the last reset, by address. ONE canonical form: addresses strictly
rising (`Memory.wf`). An address not listed holds the free value `Config.unwrittenByte` (R271; log entry 1). -/
abbrev Memory := List Host.Cell

/-- The whole machine: the architectural state of R20 in the spec's own fields, each register at the
width of its stored bits (RSV fields read 0 and are not stored: R22), and the MODEL's own fields. BUSY is
`pend` (R46), TABLE_COUNT is computed from `table` (R36), CMD keeps no value (R26), ID and VERSION are
constants (R23). -/
structure State where
  /-- CTRL[0], IRQ_EN (R24). -/
  irqEn : Bool
  /-- STATUS[1], DONE (R25). -/
  done : Bool
  /-- STATUS[2], HAZ (R25). -/
  haz : Bool
  /-- STATUS[15:8], ERR (R25, R240). -/
  err : ErrCode
  /-- STATUS[20:16], the diagnostic flags (R25). -/
  diag : Diag
  /-- SRC_ADDR (R27). -/
  srcAddr : Word
  /-- SRC_LEN (R28). -/
  srcLen : Word
  /-- DST_ADDR (R29). -/
  dstAddr : Word
  /-- DST_LEN (R30). -/
  dstLen : Word
  /-- N[3:0] (R31). -/
  n : BitVec 4
  /-- BLOCK_BYTES[7:0] (R32). -/
  blockBytes : Byte
  /-- FEC_ORIG_LEN (R33). -/
  fecOrigLen : Word
  /-- FEC_PAD (R34). -/
  fecPad : Word
  /-- ERR_CORR (R35). -/
  errCorr : Word
  /-- BLK_INDEX[7:0] (R37). -/
  blkIndex : Byte
  /-- BLK_AGREE[8:0] (R38). -/
  blkAgree : BitVec 9
  /-- ERR_INFO (R39). -/
  errInfo : Word
  /-- The code-table RAM, LEN and CODE of every symbol (R40). -/
  table : TableRam
  /-- The frequency RAM, FREQ[0..255] (R43). -/
  freq : Vector Word 256
  /-- The buffer memory BUF (R44). -/
  buf : Memory
  /-- PEND, the pending-command state (R46). -/
  pend : Pending
  /-- The MODEL's own: how many resets the reset input has made, so that the unspecified bytes of BUF
  are new after each (R271, R272). -/
  bufEpoch : Nat
  /-- The MODEL's own: what the host's last read returned (R60). -/
  rdata : Word
  /-- The MODEL's own: what the host has yet to do, in its order (R15, R73). -/
  host : List HostOp
  /-- The MODEL's own: who moves next, for as long as that is laid down (R111; 93 U6). When it is empty, a
  pending command completes, and else the host moves (R119). -/
  turns : List Turn
  deriving DecidableEq, Repr

/-- There is NO fault: "No behaviour in this spec is `stuck` or `fault` in the sense of a model halting"
(93, section 3), the host port has no error response (R62), and unspecified bytes of BUF are never a
fault (R271). Nobody raises one, which is safe: every state has a next one. -/
inductive Fault where
  deriving DecidableEq, Repr

/-- Why a step has no meaning. -/
inductive Refusal where
  /-- Raised by `exec` for a command that has no meaning yet; none is left, so nothing raises it. Safe: a
  refused run proves nothing about the hardware. -/
  | notModelled (mnemonic : String)
  deriving DecidableEq, Repr

/-- An absent table entry whose CODE bytes are 0 (R270). -/
def TableEntry.zero : TableEntry where
  len := 0
  code := Vector.replicate 32 0

/-- The empty code-table RAM (R150, R270). -/
def TableRam.zero : TableRam := Vector.replicate 256 TableEntry.zero

/-- The state after reset (R270, R49). BUF lists nothing: its bytes are unspecified (R271). The model's own
fields: no earlier reset, no read made, and a host that does nothing (log entries 2 and 3). -/
def State.reset : State where
  irqEn := false
  done := false
  haz := false
  err := .none
  diag := {}
  srcAddr := 0
  srcLen := 0
  dstAddr := 0
  dstLen := 0
  n := 7
  blockBytes := 16
  fecOrigLen := 0
  fecPad := 0
  errCorr := 0
  blkIndex := 0
  blkAgree := 0
  errInfo := 0
  table := TableRam.zero
  freq := Vector.replicate 256 0
  buf := []
  pend := .idle
  bufEpoch := 0
  rdata := 0
  host := []
  turns := []

end Sys2Proof.Machine
end

