-- ==== Sys2Proof/Machine/Operands.lean ====
section
/-! DEFINITION. The operand forms of the commands (R94): bit strings and their bytes (R10, R66, R67, R70),
extents and their checks (R112, R113, R114), and the code table read as a mapping (R12). Lists are
written by position, as the spec writes them. -/

namespace Sys2Proof.Machine

/-- ceil(L/8): the bytes that hold L bits (R67, R94). -/
def bytesFor (bits : Nat) : Nat := (bits + 7) / 8

/-- `zeros(k)` (R10). -/
def zeros (k : Nat) : BitString := List.replicate k false

/-- `val(s)`: the integer a bit string writes, first bit most significant (R10, R70). -/
def val (s : BitString) : Nat := s.foldl (fun v b => 2 * v + b.toNat) 0

/-- `bin_n(v)`: the n-bit string of v, most significant bit first (R10). -/
def bin (n v : Nat) : BitString := (List.range n).map fun k => v.testBit (n - 1 - k)

/-- The k-th bit of a byte string read as a bit string: bit 7 − (k mod 8) of byte floor(k/8) (R66). -/
def bitAt (bs : ByteString) (k : Nat) : Bool := (bs.getD (k / 8) 0).getLsbD (7 - k % 8)

/-- `bits_of(bs)`: the bits of the bytes in order, each byte's most significant bit first (R67). -/
def bitsOf (bs : ByteString) : BitString := bs.flatMap fun b => bin 8 b.toNat

/-- Byte i of `bytes_of(s)`: the i-th group of eight bits, filled with 0 on the right (R67). -/
def packedByte (s : BitString) (i : Nat) : Byte :=
  let group := (s.drop (8 * i)).take 8
  BitVec.ofNat 8 (val (group ++ zeros (8 - group.length)))

/-- `bytes_of(s)`: ceil(|s|/8) bytes (R67). -/
def bytesOf (s : BitString) : ByteString := (List.range (bytesFor s.length)).map (packedByte s)

/-- `InRange(A, m)`: an empty extent, or one that ends inside BUF without wrapping (R113). -/
def inRange (a : Word) (m : Nat) : Bool := m = 0 || a.toNat + m ≤ Config.bufBytes

/-- `Overlap((A, m), (A', m'))` (R114). -/
def overlaps (a : Word) (m : Nat) (a' : Word) (m' : Nat) : Bool :=
  0 < m && 0 < m' && a.toNat < a'.toNat + m' && a'.toNat < a.toNat + m

/-- N[3:0] is legal for the FEC commands: 1..8 (R31, R115 step 2). -/
def nLegal (n : BitVec 4) : Bool := 1 ≤ n.toNat && n.toNat ≤ Config.nMax

/-- The 256 symbols in ascending order (R8). -/
def symbols : List Byte := (List.range 256).map (BitVec.ofNat 8)

/-- The element of a 256-entry RAM that a symbol names (R40, R43). -/
def ramGet {α : Type} (v : Vector α 256) (sym : Byte) : α := v[sym.toNat]'(sym.isLt)

/-- A 256-entry RAM with a symbol's element replaced (R64). -/
def ramSet {α : Type} (v : Vector α 256) (sym : Byte) (x : α) : Vector α 256 :=
  v.set sym.toNat x sym.isLt

/-- A 256-entry RAM given symbol by symbol (R130, R140). -/
def ramFn {α : Type} (f : Byte → α) : Vector α 256 := ⟨(symbols.map f).toArray, by simp [symbols]⟩

/-- The elements of a 256-entry RAM with their symbols, in ascending symbol order. -/
def ramEntries {α : Type} (v : Vector α 256) : List (Byte × α) := symbols.zip v.toList

/-- A mapping from symbols to codes: DOC's CodeTable, as a list of its pairs (R12). -/
abbrev CodeTable := List (Byte × BitString)

/-- `codeOf(s)` of an entry: LEN bits, the k-th being bit 7 − (k mod 8) of CODE byte floor(k/8) (R12). -/
def TableEntry.codeOf (e : TableEntry) : BitString :=
  (List.range e.len.toNat).map (bitAt e.code.toList)

/-- `Table`: the present entries of the code-table RAM, LEN ≠ 0, in ascending symbol order (R12). -/
def tableOf (ram : TableRam) : CodeTable :=
  (ramEntries ram).filterMap fun e => if e.2.len = 0 then none else some (e.1, e.2.codeOf)

end Sys2Proof.Machine
end

