-- ==== Sys2Proof/Machine/Flags.lean ====
section
/-! DEFINITION. The flags: STATUS as a word (R25), the ERR codes (R240), BUSY (R46), TABLE_COUNT (R36) and the interrupt
output (R246). -/

namespace Sys2Proof.Machine

/-- The value of STATUS.ERR for each error (R240). -/
def ErrCode.code : ErrCode → BitVec 8
  | .none => 0x00
  | .badCmd => 0x01
  | .badParam => 0x02
  | .badBlockLen => 0x03
  | .range => 0x04
  | .badTable => 0x05
  | .symbolAbsent => 0x06
  | .overlap => 0x07

/-- STATUS.BUSY: 1 exactly when PEND = running(w) (R46). -/
def State.busy (s : State) : Bool :=
  match s.pend with
  | .idle => false
  | .running _ => true

/-- STATUS as the host reads it, reserved bits 0 (R25). -/
def State.statusWord (s : State) : Word :=
  (0 : BitVec 11) ++ BitVec.ofBool s.diag.short ++ BitVec.ofBool s.diag.trunc ++ BitVec.ofBool s.diag.padFault
    ++ BitVec.ofBool s.diag.tail ++ BitVec.ofBool s.diag.empty ++ s.err.code ++ (0 : BitVec 5)
    ++ BitVec.ofBool s.haz ++ BitVec.ofBool s.done ++ BitVec.ofBool s.busy

/-- CTRL as the host reads it, reserved bits 0 (R24). -/
def State.ctrlWord (s : State) : Word := (0 : BitVec 31) ++ BitVec.ofBool s.irqEn

/-- TABLE_COUNT: the number of present entries, live at every read (R36). -/
def State.tableCount (s : State) : Nat := (tableOf s.table).length

/-- The level interrupt output: STATUS.DONE AND CTRL.IRQ_EN at every instant (R246). -/
def State.irq (s : State) : Bool := s.done && s.irqEn

end Sys2Proof.Machine
end

