-- ==== Sys2Proof/Machine/Ops.lean ====
section
/-! DEFINITION. The named operations over BUF and the registers: bytes and bits of BUF (R11, R66, R67, R112), the
updates of the result registers, issue (R110), the answer of a command and its completion (R111,
R116, R117, R118), the last steps every command with a destination shares (R115), and reset (R270). -/

namespace Sys2Proof.Machine

/-! ### BUF -/

/-- The canonical form of BUF's written bytes: addresses strictly rising and inside BUF (R44). -/
abbrev Memory.wf (m : Memory) : Prop :=
  m.Pairwise (fun c d => c.1 < d.1) ∧ ∀ c ∈ m, c.1 < Config.bufBytes

/-- The byte written at an address since the last reset, if one was. -/
def Memory.get? (m : Memory) (a : Nat) : Option Byte :=
  match m with
  | [] => none
  | (k, b) :: rest => if k = a then some b else Memory.get? rest a

/-- One byte written, keeping the addresses rising. -/
def Memory.put (m : Memory) (a : Nat) (b : Byte) : Memory :=
  match m with
  | [] => [(a, b)]
  | (k, c) :: rest =>
    if a < k then (a, b) :: (k, c) :: rest
    else if a = k then (a, b) :: rest
    else (k, c) :: Memory.put rest a b

/-- Bytes written at consecutive addresses (R11). -/
def Memory.putAll (m : Memory) (a : Nat) (bs : ByteString) : Memory :=
  match bs with
  | [] => m
  | b :: rest => Memory.putAll (Memory.put m a b) (a + 1) rest

/-- `BUF[a]`: the byte last written, or the unspecified one that reset left (R11, R271). -/
def State.byteAt (s : State) (a : Nat) : Byte :=
  (s.buf.get? a).getD (Config.unwrittenByte s.bufEpoch a)

/-- `ReadBytes(a, m)` (R11). -/
def State.readBytes (s : State) (a m : Nat) : ByteString := (List.range m).map fun i => s.byteAt (a + i)

/-- `ReadBits(a, L)` (R66). -/
def State.readBits (s : State) (a len : Nat) : BitString :=
  (List.range len).map fun k => (s.byteAt (a + k / 8)).getLsbD (7 - k % 8)

/-- `WriteBytes(a, bs)` (R11); `WriteBits(a, s)` is `WriteBytes(a, bytes_of(s))` (R67). -/
def State.writeBytes (s : State) (a : Nat) (bs : ByteString) : State :=
  { s with buf := s.buf.putAll a bs }

/-! ### Result registers (R94) -/

/-- DST_LEN <- a length (R30). -/
def State.setDstLen (s : State) (len : Nat) : State := { s with dstLen := BitVec.ofNat 32 len }

/-- FEC_ORIG_LEN and FEC_PAD, DOC's EncodingParameters (R214). -/
def State.setEncodingParams (s : State) (origLen pad : Nat) : State :=
  { s with fecOrigLen := BitVec.ofNat 32 origLen, fecPad := BitVec.ofNat 32 pad }

/-- ERR_CORR <- a count (R35). -/
def State.setErrCorr (s : State) (e : Nat) : State := { s with errCorr := BitVec.ofNat 32 e }

/-- BLK_INDEX <- a row index (R37). -/
def State.setBlkIndex (s : State) (i : Nat) : State := { s with blkIndex := BitVec.ofNat 8 i }

/-- BLK_AGREE <- an agreement (R38). -/
def State.setBlkAgree (s : State) (a : Nat) : State := { s with blkAgree := BitVec.ofNat 9 a }

/-- The whole code-table RAM rewritten (R41). -/
def State.setTable (s : State) (t : TableRam) : State := { s with table := t }

/-- The whole frequency RAM rewritten (R43). -/
def State.setFreq (s : State) (f : Vector Word 256) : State := { s with freq := f }

/-! ### The host port's own marks -/

/-- HAZ <- 1: an access was dropped because BUSY = 1 (R75). -/
def State.markHazard (s : State) : State := { s with haz := true }

/-- What a host read returned. -/
def State.setRdata (s : State) (v : Word) : State := { s with rdata := v }

/-- What the host has yet to do. -/
def State.setHost (s : State) (ops : List HostOp) : State := { s with host := ops }

/-- Who moves next. -/
def State.setTurns (s : State) (ts : List Turn) : State := { s with turns := ts }

/-! ### Issue and completion -/

/-- Issue of the command word w (R110). -/
def State.issue (s : State) (w : Word) : State :=
  { s with pend := .running w, done := false, err := .none, diag := {} }

/-- The end of a command: PEND and BUSY released, DONE set, ERR, ERR_INFO and the flags written (R111). -/
def State.finish (s : State) (e : ErrCode) (info : Word) (fl : Diag) : State :=
  { s with pend := .idle, done := true, err := e, errInfo := info, diag := fl }

/-- What `Exec` answers (R111): an error that has no other effect (R116, R117), or the state with the
command's effects applied, and its flags. -/
inductive CmdOutcome where
  | err (e : ErrCode) (info : Word)
  | ok (effects : State) (fl : Diag)

/-- The command engine's step once `Exec` has answered (R111). -/
def State.complete (s : State) : CmdOutcome → State
  | .err e info => s.finish e info {}
  | .ok effects fl => effects.finish .none 0 fl

/-- Steps 7 to 9 of the check order for a command whose source extent has `srcBytes` bytes and whose result
is `dst`, stored in full at DST_ADDR beside the results it lists (R112, R115). -/
def deliver (s : State) (srcBytes : Nat) (dst : ByteString) (results : State → State) (fl : Diag) : CmdOutcome :=
  if ¬ inRange s.dstAddr dst.length then .err .range 0
  else if overlaps s.srcAddr srcBytes s.dstAddr dst.length then .err .overlap 0
  else .ok (results (s.writeBytes s.dstAddr.toNat dst)) fl

/-! ### Reset -/

/-- The reset input, asserted and released: every piece of the SFHC's state takes its reset value, a
running command is abandoned and BUF's bytes are unspecified anew (R270, R272). The host is not reset. -/
def State.resetInput (s : State) : State :=
  { State.reset with bufEpoch := s.bufEpoch + 1, rdata := s.rdata, host := s.host, turns := s.turns }

end Sys2Proof.Machine
end

