-- ==== Sys2Proof/Machine/BitPack.lean ====
section
/-! DEFINITION. The bit-packing and block-padding unit: PACK (R180, R181) and UNPACK (R185, R188). -/

namespace Sys2Proof.Machine

/-- `p`: how many padding bytes PACK appends to k bytes, 1..B (R180). -/
def padCount (k blockBytes : Nat) : Nat := blockBytes - k % blockBytes

/-- `Pack(s, B)`: the bytes of the bit string, then p bytes of the value p (R180). -/
def packBits (s : BitString) (blockBytes : Nat) : ByteString :=
  let k := bytesOf s
  let p := padCount k.length blockBytes
  k ++ List.replicate p (BitVec.ofNat 8 p)

/-- The padding that the last byte c announces is valid: c in 1..m and the last c bytes all equal to c (R185). -/
def validPadding (d : ByteString) (c : Byte) : Bool :=
  1 ≤ c.toNat && c.toNat ≤ d.length && (d.drop (d.length - c.toNat)).all fun b => b = c

/-- `Unpack(d)`: the bits, and whether it fell back to the raw bytes (R185). -/
def unpackBytes (d : ByteString) : BitString × Bool :=
  match d.getLast? with
  | none => (bitsOf d, true)
  | some c => if validPadding d c then (bitsOf (d.take (d.length - c.toNat)), false) else (bitsOf d, true)

/-- `Exec_PACK` (R181). -/
def packOutcome (s : State) : CmdOutcome :=
  let len := s.srcLen.toNat
  if s.blockBytes = 0 then .err .badParam 0
  else if ¬ inRange s.srcAddr (bytesFor len) then .err .range 0
  else
    let out := packBits (s.readBits s.srcAddr.toNat len) s.blockBytes.toNat
    deliver s (bytesFor len) out (fun t => t.setDstLen out.length) {}

/-- PACK (R181). -/
def execPack (s : State) : Host.Outcome State Fault Refusal := .next (s.complete (packOutcome s))

/-- `Exec_UNPACK` (R188). -/
def unpackOutcome (s : State) : CmdOutcome :=
  let m := s.srcLen.toNat
  if ¬ inRange s.srcAddr m then .err .range 0
  else
    let r := unpackBytes (s.readBytes s.srcAddr.toNat m)
    deliver s m (bytesOf r.1) (fun t => t.setDstLen r.1.length) { padFault := r.2 }

/-- UNPACK (R188). -/
def execUnpack (s : State) : Host.Outcome State Fault Refusal := .next (s.complete (unpackOutcome s))

end Sys2Proof.Machine
end

