-- ==== Sys2Proof/Machine/Control.lean ====
section
/-! DEFINITION. NOP (R120). -/

namespace Sys2Proof.Machine

/-- `Exec_NOP`: no effects, no flags (R120). -/
def nopOutcome (s : State) : CmdOutcome := .ok s {}

/-- NOP (R120). -/
def execNop (s : State) : Host.Outcome State Fault Refusal := .next (s.complete (nopOutcome s))

end Sys2Proof.Machine
end

