-- ==== Sys2Proof/Machine/Entropy.lean ====
section
/-! DEFINITION. The entropy unit: the Shannon-Fano code construction (R130 to R134), BUILD_TABLE (R140),
TABLE_CLEAR (R150), COMPRESS (R155, R156) and DECOMPRESS (R165, R166). -/

namespace Sys2Proof.Machine

/-! ### Code construction -/

/-- DOC's FrequencyTable: a count for every symbol (R130). -/
abbrev FreqTable := Vector Nat 256

/-- `Freq(d)` (R130). -/
def freqOf (d : ByteString) : FreqTable := ramFn fun s => d.count s

/-- The symbol order: frequency descending, and symbols of equal frequency ascending (R131). -/
abbrev sortsBefore (f : FreqTable) (a b : Byte) : Prop :=
  ramGet f b < ramGet f a ∨ (ramGet f a = ramGet f b ∧ a.toNat ≤ b.toNat)

/-- `SortSyms(f)`: every symbol that occurs, in symbol order (R131). -/
def sortSyms (f : FreqTable) : List Byte :=
  (((ramEntries f).filter fun e => 0 < e.2).map Prod.fst).insertionSort (sortsBefore f)

/-- The total frequency of a list of symbols: `T`, and `C(i)` of its first i (R132). -/
def mass (f : FreqTable) (l : List Byte) : Nat := (l.map (ramGet f)).sum

/-- |2·C(i) − T| of a split of the list after its first i symbols (R132). -/
def splitCost (f : FreqTable) (l : List Byte) (i : Nat) : Nat :=
  (2 * (mass f (l.take i) : Int) - (mass f l : Int)).natAbs

/-- `i*`: the least i in 1..k−1 that minimises the cost (R132). -/
def splitIndex (f : FreqTable) (l : List Byte) : Nat :=
  ((List.range' 1 (l.length - 1)).argmin (splitCost f l)).getD 1

/-- `SF(L, f, p)` (R132). Every call takes a shorter list (R133), so fuel of the list's length is enough. -/
def shannonFano (f : FreqTable) : Nat → List Byte → BitString → CodeTable
  | 0, _, _ => []
  | fuel + 1, l, p =>
    match l with
    | [] => []
    | [a] => [(a, p)]
    | [a, b] => [(a, p ++ [false]), (b, p ++ [true])]
    | _ =>
      let i := splitIndex f l
      shannonFano f fuel (l.take i) (p ++ [false]) ++ shannonFano f fuel (l.drop i) (p ++ [true])

/-- `Build(d)`: the empty table, the one-symbol placeholder "0", or the Shannon-Fano code (R134). -/
def buildCodes (d : ByteString) : CodeTable :=
  let f := freqOf d
  match sortSyms f with
  | [] => []
  | [a] => [(a, [false])]
  | l => shannonFano f l.length l []

/-- The RAM entry that stores a code: LEN and the code's bytes, filled with 0x00 to 32 (R140). -/
def TableEntry.ofCode (c : BitString) : TableEntry where
  len := BitVec.ofNat 8 c.length
  code :=
    let bytes := bytesOf c
    Vector.ofFn fun j : Fin 32 => bytes.getD j.val 0

/-- The code-table RAM that stores a table, absent symbols zeroed (R140). -/
def ramOf (codes : CodeTable) : TableRam :=
  ramFn fun s =>
    match codes.lookup s with
    | some c => TableEntry.ofCode c
    | none => TableEntry.zero

/-- The frequency RAM that stores a frequency table (R43, R140). -/
def freqRamOf (f : FreqTable) : Vector Word 256 := ramFn fun s => BitVec.ofNat 32 (ramGet f s)

/-! ### Encoding and decoding -/

/-- The code of every source byte in order, or the first byte the table lacks (R156, more than one entry). -/
def encodeSymbols (t : CodeTable) : ByteString → Except Byte BitString
  | [] => .ok []
  | b :: rest =>
    match t.lookup b with
    | none => .error b
    | some c =>
      match encodeSymbols t rest with
      | .error e => .error e
      | .ok out => .ok (c ++ out)

/-- `Enc(d, Table)`: one 0 bit a byte for a one-entry table, else the codes in order; the error is the first
absent byte (R156). -/
def encodeBytes (t : CodeTable) (d : ByteString) : Except Byte BitString :=
  match t with
  | [(sym, _)] =>
    match d.find? fun b => b ≠ sym with
    | some b => .error b
    | none => .ok (zeros d.length)
  | _ => encodeSymbols t d

/-- The symbol whose code is exactly this bit string (R166). -/
def symbolOf? (t : CodeTable) (acc : BitString) : Option Byte := (t.find? fun e => e.2 = acc).map Prod.fst

/-- The greedy decoder: the symbols emitted, and the accumulator left at the end (R166). -/
def decodeSymbols (t : CodeTable) : BitString → BitString → ByteString × BitString
  | [], acc => ([], acc)
  | b :: rest, acc =>
    match symbolOf? t (acc ++ [b]) with
    | some sym =>
      let r := decodeSymbols t rest []
      (sym :: r.1, r.2)
    | none => decodeSymbols t rest (acc ++ [b])

/-- `Dec(in, Table)`: the bytes, and whether bits were left that completed no code (R166). -/
def decodeBits (t : CodeTable) (bits : BitString) : ByteString × Bool :=
  match t with
  | [(sym, _)] => (List.replicate bits.length sym, false)
  | _ =>
    let r := decodeSymbols t bits []
    (r.1, !r.2.isEmpty)

/-- Two present symbols have the same code, in a table of two entries or more (R165, R167). -/
def duplicateCodes (t : CodeTable) : Bool := decide (2 ≤ t.length ∧ ¬ (t.map Prod.snd).Nodup)

/-! ### The commands -/

/-- `Exec_BUILD_TABLE` (R140). -/
def buildTableOutcome (s : State) : CmdOutcome :=
  let m := s.srcLen.toNat
  if ¬ inRange s.srcAddr m then .err .range 0
  else
    let d := s.readBytes s.srcAddr.toNat m
    .ok ((s.setFreq (freqRamOf (freqOf d))).setTable (ramOf (buildCodes d))) { empty := decide (m = 0) }

/-- BUILD_TABLE (R140). -/
def execBuildTable (s : State) : Host.Outcome State Fault Refusal := .next (s.complete (buildTableOutcome s))

/-- `Exec_TABLE_CLEAR` (R150). -/
def tableClearOutcome (s : State) : CmdOutcome := .ok (s.setTable TableRam.zero) {}

/-- TABLE_CLEAR (R150). -/
def execTableClear (s : State) : Host.Outcome State Fault Refusal := .next (s.complete (tableClearOutcome s))

/-- `Exec_COMPRESS` (R155). -/
def compressOutcome (s : State) : CmdOutcome :=
  let m := s.srcLen.toNat
  if ¬ inRange s.srcAddr m then .err .range 0
  else
    match encodeBytes (tableOf s.table) (s.readBytes s.srcAddr.toNat m) with
    | .error b => .err .symbolAbsent (b.setWidth 32)
    | .ok out => deliver s m (bytesOf out) (fun t => t.setDstLen out.length) {}

/-- COMPRESS (R155). -/
def execCompress (s : State) : Host.Outcome State Fault Refusal := .next (s.complete (compressOutcome s))

/-- `Exec_DECOMPRESS` (R165). -/
def decompressOutcome (s : State) : CmdOutcome :=
  let len := s.srcLen.toNat
  let t := tableOf s.table
  if ¬ inRange s.srcAddr (bytesFor len) then .err .range 0
  else if duplicateCodes t then .err .badTable 0
  else
    let r := decodeBits t (s.readBits s.srcAddr.toNat len)
    deliver s (bytesFor len) r.1 (fun t => t.setDstLen r.1.length) { tail := r.2 }

/-- DECOMPRESS (R165). -/
def execDecompress (s : State) : Host.Outcome State Fault Refusal := .next (s.complete (decompressOutcome s))

end Sys2Proof.Machine
end

