-- ==== Sys2Proof/Machine/Fec.lean ====
section
/-! DEFINITION. The orthogonal-block FEC unit: the code matrix (R200), ENCODE_BLOCK (R204, R205), DECODE_BLOCK (R207,
R208), FEC_ENCODE (R212, R213) and FEC_DECODE (R216, R217). -/

namespace Sys2Proof.Machine

/-! ### The code matrix -/

/-- `S_k`: the Sylvester matrix over +1 and −1, row by row (R200). -/
def sylvester : Nat → List (List Int)
  | 0 => [[1]]
  | k + 1 =>
    let s := sylvester k
    s.map (fun r => r ++ r) ++ s.map (fun r => r ++ r.map fun x => -x)

/-- `H_N`: the Sylvester matrix with +1 as 1 and −1 as 0 (R200). -/
def hadamard (n : Nat) : List BitString := (sylvester n).map fun r => r.map fun x => decide (x = 1)

/-- `Row(N, i)` (R200). -/
def row (n i : Nat) : BitString := (hadamard n).getD i []

/-! ### Blocks -/

/-- `EncBlock(N, p)` (R204). -/
def encBlock (n : Nat) (p : BitString) : BitString := row n (val p)

/-- The agreement of two bit strings of equal length: the positions where they are equal (R14). -/
def agreement (a b : BitString) : Nat := (List.zipWith (fun x y => x == y) a b).count true

/-- The row `DecBlock` chooses: the least index of greatest agreement (R207). -/
def bestRow (n : Nat) (r : BitString) : Nat :=
  let h := hadamard n
  ((List.range (2 ^ n)).argmax fun i => agreement (h.getD i []) r).getD 0

/-- What `DecBlock` answers (R207). -/
structure BlockDecision where
  payload : BitString
  index : Nat
  agree : Nat
  dist : Nat
  deriving DecidableEq, Repr

/-- `DecBlock(N, r)` (R207). -/
def decBlock (n : Nat) (r : BitString) : BlockDecision :=
  let i := bestRow n r
  let a := agreement (row n i) r
  { payload := bin n i, index := i, agree := a, dist := 2 ^ n - a }

/-! ### Streams -/

/-- `pad`: the zeros FEC_ENCODE appends to L bits (R212). -/
def fecPadOf (n len : Nat) : Nat := (n - len % n) % n

/-- The j-th block of w bits of a bit string (R212, R216). -/
def block (w : Nat) (s : BitString) (j : Nat) : BitString := (s.drop (j * w)).take w

/-- `FecEnc(N, s)`: the codewords of the N-bit blocks of the padded input (R212). -/
def fecEncodeBits (n : Nat) (s : BitString) : BitString :=
  let pad := fecPadOf n s.length
  let t := s ++ zeros pad
  (List.range ((s.length + pad) / n)).flatMap fun j => encBlock n (block n t j)

/-- What `FecDec` answers (R216). -/
structure StreamDecision where
  bits : BitString
  errors : Nat
  trunc : Bool
  short : Bool
  deriving DecidableEq, Repr

/-- `FecDec(N, r, o)` (R216). -/
def fecDecodeBits (n : Nat) (r : BitString) (origLen : Nat) : StreamDecision :=
  let w := 2 ^ n
  let b := r.length / w
  let decisions := (List.range b).map fun j => decBlock n (block w r j)
  { bits := (decisions.flatMap BlockDecision.payload).take origLen
    errors := (decisions.map BlockDecision.dist).sum
    trunc := decide (r.length % w ≠ 0)
    short := decide (b * n < origLen) }

/-! ### The commands -/

/-- `Exec_ENCODE_BLOCK` (R205). -/
def encodeBlockOutcome (s : State) : CmdOutcome :=
  let n := s.n.toNat
  if ¬ nLegal s.n then .err .badParam 0
  else if s.srcLen.toNat ≠ n then .err .badBlockLen 0
  else if ¬ inRange s.srcAddr (bytesFor n) then .err .range 0
  else
    let p := s.readBits s.srcAddr.toNat n
    deliver s (bytesFor n) (bytesOf (encBlock n p)) (fun t => (t.setDstLen (2 ^ n)).setBlkIndex (val p)) {}

/-- ENCODE_BLOCK (R205). -/
def execEncodeBlock (s : State) : Host.Outcome State Fault Refusal := .next (s.complete (encodeBlockOutcome s))

/-- `Exec_DECODE_BLOCK` (R208). -/
def decodeBlockOutcome (s : State) : CmdOutcome :=
  let n := s.n.toNat
  let w := 2 ^ n
  if ¬ nLegal s.n then .err .badParam 0
  else if s.srcLen.toNat ≠ w then .err .badBlockLen 0
  else if ¬ inRange s.srcAddr (bytesFor w) then .err .range 0
  else
    let d := decBlock n (s.readBits s.srcAddr.toNat w)
    deliver s (bytesFor w) (bytesOf d.payload)
      (fun t => (((t.setDstLen n).setBlkIndex d.index).setBlkAgree d.agree).setErrCorr d.dist) {}

/-- DECODE_BLOCK (R208). -/
def execDecodeBlock (s : State) : Host.Outcome State Fault Refusal := .next (s.complete (decodeBlockOutcome s))

/-- `Exec_FEC_ENCODE` (R213). -/
def fecEncodeOutcome (s : State) : CmdOutcome :=
  let n := s.n.toNat
  let len := s.srcLen.toNat
  if ¬ nLegal s.n then .err .badParam 0
  else if ¬ inRange s.srcAddr (bytesFor len) then .err .range 0
  else
    let out := fecEncodeBits n (s.readBits s.srcAddr.toNat len)
    deliver s (bytesFor len) (bytesOf out)
      (fun t => (t.setDstLen out.length).setEncodingParams len (fecPadOf n len)) {}

/-- FEC_ENCODE (R213). -/
def execFecEncode (s : State) : Host.Outcome State Fault Refusal := .next (s.complete (fecEncodeOutcome s))

/-- `Exec_FEC_DECODE` (R217). -/
def fecDecodeOutcome (s : State) : CmdOutcome :=
  let n := s.n.toNat
  let len := s.srcLen.toNat
  if ¬ nLegal s.n then .err .badParam 0
  else if ¬ inRange s.srcAddr (bytesFor len) then .err .range 0
  else
    let d := fecDecodeBits n (s.readBits s.srcAddr.toNat len) s.fecOrigLen.toNat
    deliver s (bytesFor len) (bytesOf d.bits) (fun t => (t.setDstLen d.bits.length).setErrCorr d.errors)
      { trunc := d.trunc, short := d.short }

/-- FEC_DECODE (R217). -/
def execFecDecode (s : State) : Host.Outcome State Fault Refusal := .next (s.complete (fecDecodeOutcome s))

end Sys2Proof.Machine
end

