-- ==== Sys2Proof/Machine/Dispatch.lean ====
section
/-! DEFINITION. The meaning of each command: the engine's completion event for it (R111). -/

namespace Sys2Proof.Machine

def exec (i : Instr) (s : State) : Host.Outcome State Fault Refusal :=
  match i with
  | .nop => Sys2Proof.Machine.execNop s
  | .buildTable => Sys2Proof.Machine.execBuildTable s
  | .tableClear => Sys2Proof.Machine.execTableClear s
  | .compress => Sys2Proof.Machine.execCompress s
  | .decompress => Sys2Proof.Machine.execDecompress s
  | .pack => Sys2Proof.Machine.execPack s
  | .unpack => Sys2Proof.Machine.execUnpack s
  | .encodeBlock => Sys2Proof.Machine.execEncodeBlock s
  | .decodeBlock => Sys2Proof.Machine.execDecodeBlock s
  | .fecEncode => Sys2Proof.Machine.execFecEncode s
  | .fecDecode => Sys2Proof.Machine.execFecDecode s

end Sys2Proof.Machine
end

