-- ==== Sys2Proof/Machine/HostPort.lean ====
section
/-! DEFINITION. The host's reads and writes of the window (R61 to R72) and what a running command does to
them (R75). -/

namespace Sys2Proof.Machine

/-- The current value of a register, reserved fields 0 (R22, R63). -/
def State.regRead (s : State) : RegName → Word
  | .id => Config.idValue
  | .version => Config.versionValue
  | .ctrl => s.ctrlWord
  | .status => s.statusWord
  | .cmd => 0
  | .srcAddr => s.srcAddr
  | .srcLen => s.srcLen
  | .dstAddr => s.dstAddr
  | .dstLen => s.dstLen
  | .n => s.n.setWidth 32
  | .blockBytes => s.blockBytes.setWidth 32
  | .fecOrigLen => s.fecOrigLen
  | .fecPad => s.fecPad
  | .errCorr => s.errCorr
  | .tableCount => BitVec.ofNat 32 s.tableCount
  | .blkIndex => s.blkIndex.setWidth 32
  | .blkAgree => s.blkAgree.setWidth 32
  | .errInfo => s.errInfo

/-- A write that a running command drops, setting HAZ (R75, 1 and 2). -/
def State.whileIdle (s : State) (act : State → State) : State :=
  if s.busy then s.markHazard else act s

/-- A 4-byte write of a register (R63): RW fields stored, W1C applied (R25), CMD issuing (R26), RO registers
left alone (R62). CTRL and STATUS are written at any time (R24, R75). -/
def State.regWrite (s : State) (r : RegName) (v : Word) : State :=
  match r with
  | .id => s
  | .version => s
  | .ctrl => { s with irqEn := v.getLsbD 0 }
  | .status => { s with done := s.done && !v.getLsbD 1, haz := s.haz && !v.getLsbD 2 }
  | .cmd => s.whileIdle fun t => t.issue v
  | .srcAddr => s.whileIdle fun t => { t with srcAddr := v }
  | .srcLen => s.whileIdle fun t => { t with srcLen := v }
  | .dstAddr => s.whileIdle fun t => { t with dstAddr := v }
  | .dstLen => s
  | .n => s.whileIdle fun t => { t with n := v.setWidth 4 }
  | .blockBytes => s.whileIdle fun t => { t with blockBytes := v.setWidth 8 }
  | .fecOrigLen => s.whileIdle fun t => { t with fecOrigLen := v }
  | .fecPad => s
  | .errCorr => s
  | .tableCount => s
  | .blkIndex => s
  | .blkAgree => s
  | .errInfo => s

/-- Byte lane q of a word, bits [8q+7:8q] (R69). -/
def lane (v : Word) (q : Nat) : Byte := v.extractLsb' (8 * q) 8

/-- The four bytes of a word in address order (R69). -/
def lanes (v : Word) : ByteString := [lane v 0, lane v 1, lane v 2, lane v 3]

/-- CODE byte j of an entry; every j below 32 is one (R40). -/
def TableEntry.codeByte (e : TableEntry) (j : Nat) : Byte := e.code.toList.getD j 0

/-- Word +0x20 + 4·w of an entry: CODE bytes 4w to 4w+3, little-endian (R64). -/
def TableEntry.codeWord (e : TableEntry) (w : BitVec 3) : Word :=
  leWord (e.codeByte (4 * w.toNat)) (e.codeByte (4 * w.toNat + 1)) (e.codeByte (4 * w.toNat + 2))
    (e.codeByte (4 * w.toNat + 3))

/-- The entry with CODE bytes 4w to 4w+3 taken from a word, little-endian (R64). -/
def TableEntry.setCodeWord (e : TableEntry) (w : BitVec 3) (v : Word) : TableEntry :=
  { e with code := Vector.ofFn fun j : Fin 32 => if j.val / 4 = w.toNat then lane v (j.val % 4) else e.code[j] }

/-- The value the RAM windows hold at a target, before R75 (R64, R65, R68). -/
def State.windowRead (s : State) : Target → Word
  | .dropped => 0
  | .reg r => s.regRead r
  | .freq sym => ramGet s.freq sym
  | .elen sym => (ramGet s.table sym).len.setWidth 32
  | .code sym w => (ramGet s.table sym).codeWord w
  | .bufByte a => (s.byteAt a).setWidth 32
  | .bufWord a => leWord (s.byteAt a) (s.byteAt (a + 1)) (s.byteAt (a + 2)) (s.byteAt (a + 3))

/-- The target lies in the TABLE, FREQ or BUF window, which a running command guards (R75). -/
def Target.guarded : Target → Bool
  | .dropped => false
  | .reg _ => false
  | .freq _ => true
  | .elen _ => true
  | .code _ _ => true
  | .bufByte _ => true
  | .bufWord _ => true

/-- A host read: the value on the port, and HAZ where a running command hides it (R71, R75). -/
def State.readTarget (s : State) (t : Target) : State :=
  if s.busy && t.guarded then s.markHazard.setRdata 0 else s.setRdata (s.windowRead t)

/-- A host write (R63, R64, R65, R68, R75). A 1-byte write stores the low lane. -/
def State.writeTarget (s : State) (t : Target) (v : Word) : State :=
  match t with
  | .dropped => s
  | .reg r => s.regWrite r v
  | .freq _ => s
  | .elen sym => s.whileIdle fun t => t.setTable (ramSet t.table sym { ramGet t.table sym with len := lane v 0 })
  | .code sym w => s.whileIdle fun t => t.setTable (ramSet t.table sym ((ramGet t.table sym).setCodeWord w v))
  | .bufByte a => s.whileIdle fun t => t.writeBytes a [lane v 0]
  | .bufWord a => s.whileIdle fun t => t.writeBytes a (lanes v)

/-- One host transaction, complete before the next begins (R60, R72). -/
def State.access (s : State) : Access → State
  | .read off size => s.readTarget (target off size)
  | .write off size v => s.writeTarget (target off size) v

/-- The host moves: its next transaction, or one read of STATUS in the polling loop WAIT, which stands until
the value read has bit 0 = 0 (R97). A host with nothing to do leaves all as it is (R256). -/
def State.hostTurn (s : State) : State :=
  match s.host with
  | [] => s
  | .access a :: ops => (s.setHost ops).access a
  | .wait :: ops => if s.busy then s.readTarget (.reg .status) else (s.setHost ops).readTarget (.reg .status)

end Sys2Proof.Machine
end

