-- ==== Sys2Proof/Machine/Engine.lean ====
section
/-! DEFINITION. Who moves: the command engine (R111), the host (R73), or the reset input (R270). -/

namespace Sys2Proof.Machine

/-- The engine moves. It is enabled exactly when a command is pending (R111): an illegal word completes with
BAD_CMD (R91, R241), a legal one has its command's meaning. Not enabled, it leaves all as it is. -/
def engineTurn (s : State) : Host.Outcome State Fault Refusal :=
  match s.pend with
  | .idle => .next s
  | .running w =>
    match decode w with
    | .ok i => exec i s
    | .error _ => .next (s.complete (.err .badCmd 0))

/-- The next move. While `turns` lays down who moves, that one moves (any interleaving, R111); after it a
pending command completes (R119), and else the host goes on. Log entry 3. -/
def nextMove (s : State) : Host.Outcome State Fault Refusal :=
  match s.turns with
  | .host :: ts => .next (s.setTurns ts).hostTurn
  | .engine :: ts => engineTurn (s.setTurns ts)
  | .reset :: ts => .next (s.setTurns ts).resetInput
  | [] => if s.busy then engineTurn s else .next s.hostTurn

/-- The state in which the command word w is issued (R110) and the engine moves next. -/
def State.issueNow (s : State) (w : Word) : State := (s.issue w).setTurns []

/-- A command word given as its low `nbits` bits, the bits above 0. -/
def tableWord (nbits w : Nat) : Word := BitVec.ofNat 32 (w % 2 ^ nbits)

end Sys2Proof.Machine
end

