-- ==== Sys2Proof/Machine/Step.lean ====
section
/-! DEFINITION. One step of the machine. -/

namespace Sys2Proof.Machine

/-- One step: the agent whose turn it is moves (R15). -/
def step (s : State) : Host.Outcome State Fault Refusal := nextMove s

/-- The state whose very next step runs the command word `w` (its low `nbits` bits): the word is issued as a
host's CMD write issues it (R110), and the engine moves next. The SFHC fetches nothing (R76). Log entry 5. -/
def State.withFetchWord (s : State) (nbits w : Nat) : State := s.issueNow (tableWord nbits w)

end Sys2Proof.Machine
end

