-- ==== Sys2Proof/WellFormed.lean ====
section
/-! DEFINITION. Which syntax is well formed. A command carries no field (R90, R95), so every `Instr` is; a
command word has its checks (R91), and so has a line of the host assembly (R96). -/

namespace Sys2Proof

/-- Every command is well formed: it has no operand field (R90, R95). -/
def Instr.wf (_ : Instr) : Bool := true

/-- A legal command word: RSV = 0 and OP in the opcode map (R91). -/
def wordWf (w : Word) : Bool := rsvField w = 0 && (commandOf (opField w)).isSome

/-- What R96 asks of a host line: BUF addresses in BUF, a word address a multiple of 4, and a table entry
with LEN in a byte and at most 32 CODE bytes (R44, R64). -/
def Machine.HostLine.wf : Machine.HostLine → Bool
  | .writeByte a _ => a < Config.bufBytes
  | .readByte a => a < Config.bufBytes
  | .writeWord a _ => a < Config.bufBytes && a % 4 = 0
  | .writeTable _ elen code => elen.toNat ≤ Config.lMax && code.length ≤ 32
  | _ => true

end Sys2Proof
end

