-- ==== Sys2Proof/Safety.lean ====
section
/-! DEFINITION. The terms in which statements are made: extents in the spec's own arithmetic (R113, R114), the extents of each
command (R94), what a completion leaves (R111), which accesses the host port drops (R62), and the invariant
that every step keeps. -/

namespace Sys2Proof.Safety

open Sys2Proof.Machine

/-- The extent (A, m) is in range (R113). -/
abbrev Fits (a : Word) (m : Nat) : Prop := m = 0 ∨ a.toNat + m ≤ 65536

/-- The extents (A, m) and (A', m') do not overlap (R114). -/
abbrev Apart (a : Word) (m : Nat) (a' : Word) (m' : Nat) : Prop :=
  ¬ (0 < m ∧ 0 < m' ∧ a.toNat < a'.toNat + m' ∧ a'.toNat < a.toNat + m)

/-- BUF after is BUF before with the bytes `bs` stored from address a on, and nothing else changed (R112). -/
def Stored (s t : State) (a : Nat) (bs : ByteString) : Prop :=
  ∀ x, t.byteAt x = if a ≤ x ∧ x < a + bs.length then bs.getD (x - a) 0 else s.byteAt x

/-- The state with the marks of a successful completion and nothing else changed (R111). -/
def completed (s : State) (fl : Diag) : State :=
  { s with pend := .idle, done := true, err := .none, errInfo := 0, diag := fl }

/-- The bytes of a command's source extent, from SRC_LEN (R94). -/
def sourceBytes : Instr → Nat → Nat
  | .nop, _ => 0
  | .tableClear, _ => 0
  | .buildTable, len => len
  | .compress, len => len
  | .unpack, len => len
  | .decompress, len => (len + 7) / 8
  | .pack, len => (len + 7) / 8
  | .encodeBlock, len => (len + 7) / 8
  | .decodeBlock, len => (len + 7) / 8
  | .fecEncode, len => (len + 7) / 8
  | .fecDecode, len => (len + 7) / 8

/-- The bytes of a command's destination extent, from the DST_LEN it leaves (R94). -/
def destinationBytes : Instr → Nat → Nat
  | .nop, _ => 0
  | .tableClear, _ => 0
  | .buildTable, _ => 0
  | .decompress, len => len
  | .pack, len => len
  | .compress, len => (len + 7) / 8
  | .unpack, len => (len + 7) / 8
  | .encodeBlock, len => (len + 7) / 8
  | .decodeBlock, len => (len + 7) / 8
  | .fecEncode, len => (len + 7) / 8
  | .fecDecode, len => (len + 7) / 8

/-- An access that the host port drops or answers with zero whatever runs: a reserved range, a size the region
does not allow, or a misaligned word (R61, R62, R64). -/
abbrev DroppedAccess (off : Offset) (size : Size) : Prop :=
  (0x48 ≤ off.toNat ∧ off.toNat < 0x1000) ∨ (0x1400 ≤ off.toNat ∧ off.toNat < 0x2000) ∨
  (0x6000 ≤ off.toNat ∧ off.toNat < 0x10000) ∨
  (0x2000 ≤ off.toNat ∧ off.toNat < 0x6000 ∧ 0x04 ≤ off.toNat % 64 ∧ off.toNat % 64 < 0x20) ∨
  (off.toNat < 0x10000 ∧ size ≠ .b4) ∨ (0x10000 ≤ off.toNat ∧ size = .b2) ∨
  (size = .b4 ∧ off.toNat % 4 ≠ 0)

/-- An access to a word of the TABLE window that holds LEN or CODE (R64). -/
abbrev TableAccess (off : Offset) (size : Size) : Prop :=
  size = .b4 ∧ 0x2000 ≤ off.toNat ∧ off.toNat < 0x6000 ∧ off.toNat % 4 = 0 ∧ (off.toNat % 64 = 0 ∨ 0x20 ≤ off.toNat % 64)

/-- An access to a word of the FREQ window (R65). -/
abbrev FreqAccess (off : Offset) (size : Size) : Prop :=
  size = .b4 ∧ 0x1000 ≤ off.toNat ∧ off.toNat < 0x1400 ∧ off.toNat % 4 = 0

/-- An access to a byte or an aligned word of the BUF window (R68). -/
abbrev BufAccess (off : Offset) (size : Size) : Prop :=
  0x10000 ≤ off.toNat ∧ (size = .b1 ∨ (size = .b4 ∧ off.toNat % 4 = 0))

/-- The reads that return zero and set HAZ while a command runs (R75.3). -/
abbrev HiddenRead (off : Offset) (size : Size) : Prop :=
  TableAccess off size ∨ FreqAccess off size ∨ BufAccess off size

/-- The writes that are dropped and set HAZ while a command runs: CMD, SRC_ADDR, SRC_LEN, DST_ADDR, N, BLOCK_BYTES and
FEC_ORIG_LEN by their offsets (R75.1, R22), and the TABLE and BUF windows (R75.2). -/
abbrev RefusedWrite (off : Offset) (size : Size) : Prop :=
  (size = .b4 ∧ off.toNat ∈ [0x10, 0x14, 0x18, 0x1C, 0x24, 0x28, 0x2C]) ∨ TableAccess off size ∨ BufAccess off size

/-- What the port returns at a read of each register: the register's stored bits, and 0 in the reserved ones and for CMD
(R22 to R39, R63). STATUS is given bit by bit by StatusWordLayout, and TABLE_COUNT as a count by TableCountIsLive. -/
def registerValue (s : State) : RegName → Word
  | .id => 0x53464843
  | .version => 0x00010000
  | .ctrl => if s.irqEn then 1 else 0
  | .status => s.regRead .status
  | .cmd => 0
  | .srcAddr => s.srcAddr
  | .srcLen => s.srcLen
  | .dstAddr => s.dstAddr
  | .dstLen => s.dstLen
  | .n => BitVec.ofNat 32 s.n.toNat
  | .blockBytes => BitVec.ofNat 32 s.blockBytes.toNat
  | .fecOrigLen => s.fecOrigLen
  | .fecPad => s.fecPad
  | .errCorr => s.errCorr
  | .tableCount => s.regRead .tableCount
  | .blkIndex => BitVec.ofNat 32 s.blkIndex.toNat
  | .blkAgree => BitVec.ofNat 32 s.blkAgree.toNat
  | .errInfo => s.errInfo

/-- What every step keeps: BUF's canonical form and the legal values of the registers (R25, R30, R34, R35,
R38, R39, R43, R110, R247, R249). -/
structure Inv (s : State) : Prop where
  /-- BUF is in canonical form, inside its 65536 addresses (R44). -/
  bufCanonical : s.buf.wf
  /-- While a command runs, DONE, ERR and the flags are clear (R110). -/
  runningIsClear : s.busy = true → s.done = false ∧ s.err = .none ∧ s.diag = {}
  /-- After an error no diagnostic flag is set (R249). -/
  errorHasNoFlag : s.err ≠ .none → s.diag = {}
  /-- Two flags are set together only if they are TRUNC and SHORT (R247). -/
  flagsExclusive : (s.diag.trunc = true ∨ s.diag.short = true →
      s.diag.empty = false ∧ s.diag.tail = false ∧ s.diag.padFault = false) ∧
    (s.diag.empty = true → s.diag.tail = false ∧ s.diag.padFault = false) ∧
    (s.diag.tail = true → s.diag.padFault = false)
  /-- ERR_INFO[31:8] = 0 (R39). -/
  errInfoIsAByte : s.errInfo.toNat < 256
  /-- ERR_INFO is 0 after a completion with another error than SYMBOL_ABSENT (R39). -/
  errInfoOnlyForAbsent : s.busy = false → s.err ≠ .symbolAbsent → s.errInfo = 0
  /-- DST_LEN is at most the bits of BUF (R30, R113). -/
  dstLenBound : s.dstLen.toNat ≤ 524288
  /-- ERR_CORR is at most the bits of BUF (R35). -/
  errCorrBound : s.errCorr.toNat ≤ 524288
  /-- FEC_PAD is below the largest N (R34, R212). -/
  fecPadBound : s.fecPad.toNat < 8
  /-- BLK_AGREE is in 0..256 (R38). -/
  blkAgreeBound : s.blkAgree.toNat ≤ 256
  /-- Every counter is at most the bytes of BUF (R43, R130). -/
  freqBound : ∀ sym : Byte, (ramGet s.freq sym).toNat ≤ 65536

/-- A run that never stops: after every number of steps there is a state (93, section 3). -/
def NeverStops (s : State) : Prop := ∀ k : Nat, ∃ t : State, Host.Core.run Sys2Proof.core k s = .next t

end Sys2Proof.Safety
end

