-- ==== Sys2Proof/Certificates/Slice0/Obligations.lean ====
section
/-! DEFINITION. The statements about the model, for the provers. A word in parentheses after R names the rule of
spec/ that a statement formalises. -/

open Sys2Proof Sys2Proof.Machine Sys2Proof.Safety

/-! ### Commands and their words -/

/-- Decoding and encoding agree over all 32-bit words: a word decodes to a command exactly when it is that command's
encoding, and the encodings are, in all 32 bits, the match values of the opcode map (R92). -/
def Obligations.DecodeAndEncodeAgree : Prop :=
  ∀ (w : Word) (i : Instr), (decode w = .ok i ↔ w = encode i) ∧
    (i, (encode i).toNat) ∈ [(Instr.nop, 0x00), (.buildTable, 0x01), (.tableClear, 0x02), (.compress, 0x03), (.decompress, 0x04),
      (.pack, 0x10), (.unpack, 0x11), (.encodeBlock, 0x20), (.decodeBlock, 0x21), (.fecEncode, 0x22), (.fecDecode, 0x23)]

/-- A few words written out from the encoding, the illegal ones of T11 among them (R91, R93). -/
def Obligations.SampleWordsDecode : Prop :=
  decode 0b00000000000000000000000000000011 = .ok .compress ∧
  decode 0b00000000000000000000000000010000 = .ok .pack ∧
  decode 0b00000000000000000000000000100011 = .ok .fecDecode ∧
  decode 0x00000105 = .error .reservedBits ∧ decode 0x00000100 = .error .reservedBits ∧
  decode 0x00000005 = .error .reservedOpcode ∧ decode 0x00000024 = .error .reservedOpcode

/-- When the engine moves, an illegal word completes with BAD_CMD, ERR_INFO 0 and no other effect, and the interrupt follows
if it is enabled (R241). When the engine moves is the model's choice: at its turn of the schedule, which is struck off, or
when the schedule is empty (log entry 3). -/
def Obligations.IllegalWordCompletesWithBadCmd : Prop :=
  ∀ (s : State) (w : Word) (ts : List Turn), s.pend = .running w →
    w.toNat ∉ [0x00, 0x01, 0x02, 0x03, 0x04, 0x10, 0x11, 0x20, 0x21, 0x22, 0x23] →
    (s.turns = [] ∧ ts = []) ∨ s.turns = .engine :: ts →
    ∃ t, step s = .next t ∧
      t = { s with pend := .idle, done := true, err := .badCmd, errInfo := 0, diag := {}, turns := ts } ∧ t.irq = s.irqEn

/-- When the engine moves and the pending word decodes to a command, the step is that command's meaning; the model
only strikes the engine's turn off the schedule first (R111; the schedule is log entry 3's choice). -/
def Obligations.StepRunsTheDecodedCommand : Prop :=
  ∀ (s : State) (w : Word) (i : Instr), s.pend = .running w → decode w = .ok i →
    (s.turns = [] → step s = exec i s) ∧
    (∀ ts, s.turns = .engine :: ts → step s = exec i { s with turns := ts })

/-- A 4-byte write to CMD issues the word when no command runs, and is dropped with HAZ set when one does (R110). -/
def Obligations.CmdWriteIssues : Prop :=
  ∀ (s : State) (w : Word),
    (s.pend = .idle → s.access (.write 0x00010 .b4 w) =
      { s with pend := .running w, done := false, err := .none, diag := {} }) ∧
    (s.busy = true → s.access (.write 0x00010 .b4 w) = { s with haz := true })

/-! ### Reset -/

/-- The values the host finds after reset: every register, every table entry, every counter, no pending command and
the interrupt low (R49, R270). -/
def Obligations.ResetRegisterValues : Prop :=
  let s := State.reset
  s.regRead .id = 0x53464843 ∧ s.regRead .version = 0x00010000 ∧ s.regRead .ctrl = 0 ∧ s.regRead .status = 0 ∧
  s.regRead .cmd = 0 ∧ s.regRead .srcAddr = 0 ∧ s.regRead .srcLen = 0 ∧ s.regRead .dstAddr = 0 ∧
  s.regRead .dstLen = 0 ∧ s.regRead .n = 7 ∧ s.regRead .blockBytes = 16 ∧ s.regRead .fecOrigLen = 0 ∧
  s.regRead .fecPad = 0 ∧ s.regRead .errCorr = 0 ∧ s.regRead .tableCount = 0 ∧ s.regRead .blkIndex = 0 ∧
  s.regRead .blkAgree = 0 ∧ s.regRead .errInfo = 0 ∧ s.pend = .idle ∧ s.irq = false ∧
  ∀ sym : Byte, (ramGet s.table sym).len = 0 ∧ (∀ j : Fin 32, (ramGet s.table sym).code[j] = 0) ∧ ramGet s.freq sym = 0

/-- The reset input at any time, a running command or not, leaves every register, the table, the counters and PEND
as reset leaves them, and every byte of BUF an unspecified one; the model numbers the resets to keep those bytes
apart (R270, R271, R272; log entries 1 and 8; the schedule is log entry 3's choice). -/
def Obligations.ResetInputRestoresReset : Prop :=
  ∀ (s : State) (ts : List Turn), s.turns = .reset :: ts → ∃ t, step s = .next t ∧
    (∀ r, t.regRead r = State.reset.regRead r) ∧ t.table = State.reset.table ∧ t.freq = State.reset.freq ∧
    t.pend = .idle ∧ t.irq = false ∧ ∀ a, t.byteAt a = Config.unwrittenByte (s.bufEpoch + 1) a

/-- The invariant holds after reset. -/
def Obligations.ResetSatisfiesInvariant : Prop := Inv State.reset

/-! ### The whole machine -/

/-- Every step of every state keeps the invariant: BUF's canonical form and the ranges the rules give DST_LEN,
ERR_CORR, FEC_PAD, BLK_AGREE, ERR_INFO, FREQ and the flags (R25, R30, R34, R35, R38, R39, R43, R247, R249). -/
def Obligations.StepKeepsInvariant : Prop :=
  ∀ s t : State, Inv s → step s = .next t → Inv t

/-- No state is stuck and none faults: every run goes on for ever (93, section 3). -/
def Obligations.NoRunEverStops : Prop := ∀ s : State, NeverStops s

/-- Every issued command completes, an illegal word too, whatever turns are laid down before, unless the reset input comes;
and it completes with exactly the effects it would have had at issue, whatever the host does meanwhile, but for CTRL, HAZ
and the host's own side; an illegal word with BAD_CMD alone (R111, R119, R91). The bound counts the turns laid down: log
entry 3's choice. -/
def Obligations.IssuedCommandCompletesAsAtIssue : Prop :=
  ∀ (s : State) (w : Word), s.pend = .running w → Turn.reset ∉ s.turns →
    ∃ (k : Nat) (t : State), 0 < k ∧ k ≤ s.turns.length + 1 ∧ Host.Core.run Sys2Proof.core k s = .next t ∧
      t.pend = .idle ∧ t.done = true ∧
      (∀ i, decode w = .ok i → ∃ u, exec i s = .next u ∧
        t = { u with irqEn := t.irqEn, haz := t.haz, rdata := t.rdata, host := t.host, turns := t.turns }) ∧
      ∀ e, decode w = .error e →
        t = { s with pend := .idle, done := true, err := .badCmd, errInfo := 0, diag := {},
                     irqEn := t.irqEn, haz := t.haz, rdata := t.rdata, host := t.host, turns := t.turns }

/-- The six clauses on accesses while a command runs (R75). In the sixth, that a reserved word of a table entry, a wrong size
or a misaligned word, though in a guarded window, sets no HAZ is the model's reading (log entry 11), and so is the 0 in
the lanes that a shorter read does not name (log entry 4). -/
def Obligations.AccessRulesWhileBusy : Prop :=
  ∀ s : State, s.busy = true →
    (∀ r v, r ∈ [RegName.cmd, .srcAddr, .srcLen, .dstAddr, .n, .blockBytes, .fecOrigLen] →
      s.access (.write r.offset .b4 v) = { s with haz := true }) ∧
    (∀ sym v, s.access (.write (tableOffset sym 0) .b4 v) = { s with haz := true }) ∧
    (∀ sym k v, k < 8 → s.access (.write (tableOffset sym (0x20 + 4 * k)) .b4 v) = { s with haz := true }) ∧
    (∀ a v, a < 65536 → s.access (.write (bufOffset a) .b1 v) = { s with haz := true }) ∧
    (∀ a v, a < 65536 → a % 4 = 0 → s.access (.write (bufOffset a) .b4 v) = { s with haz := true }) ∧
    (∀ sym, s.access (.read (tableOffset sym 0) .b4) = { s with haz := true, rdata := 0 }) ∧
    (∀ sym k, k < 8 → s.access (.read (tableOffset sym (0x20 + 4 * k)) .b4) = { s with haz := true, rdata := 0 }) ∧
    (∀ sym : Byte, s.access (.read (BitVec.ofNat 17 (0x1000 + 4 * sym.toNat)) .b4) = { s with haz := true, rdata := 0 }) ∧
    (∀ a, a < 65536 → s.access (.read (bufOffset a) .b1) = { s with haz := true, rdata := 0 }) ∧
    (∀ a, a < 65536 → a % 4 = 0 → s.access (.read (bufOffset a) .b4) = { s with haz := true, rdata := 0 }) ∧
    (∀ v, s.access (.write 0x00008 .b4 v) = { s with irqEn := v.getLsbD 0 }) ∧
    (∀ v, s.access (.write 0x0000C .b4 v) =
      { s with done := s.done && !v.getLsbD 1, haz := s.haz && !v.getLsbD 2 }) ∧
    (∀ r, s.access (.read r.offset .b4) = { s with rdata := registerValue s r }) ∧
    (∀ off size, DroppedAccess off size →
      (∀ v, s.access (.write off size v) = s) ∧ s.access (.read off size) = { s with rdata := 0 }) ∧
    (∀ off size v, 0x1000 ≤ BitVec.toNat off → BitVec.toNat off < 0x1400 → s.access (.write off size v) = s) ∧
    (∀ r v, r ∈ [RegName.id, .version, .dstLen, .fecPad, .errCorr, .tableCount, .blkIndex, .blkAgree, .errInfo] →
      s.access (.write r.offset .b4 v) = s)

/-- A dropped access: writes to reserved ranges, of a disallowed size, misaligned, to the FREQ window or to a RO
register or field change nothing, and the reads among them return 0; no flag is set, while a command runs too (R62, R64,
R75.6). For the reserved words of a table entry, wrong sizes, misaligned words and writes to FREQ while one runs, that is
the model's reading (log entry 11), and so is the 0 in the lanes that a shorter read does not name (log entry 4). -/
def Obligations.DroppedAccessesChangeNothing : Prop :=
  ∀ s : State,
    (∀ off size, DroppedAccess off size →
      (∀ v, s.access (.write off size v) = s) ∧ s.access (.read off size) = { s with rdata := 0 }) ∧
    (∀ off size v, 0x1000 ≤ BitVec.toNat off → BitVec.toNat off < 0x1400 → s.access (.write off size v) = s) ∧
    (∀ r v, r ∈ [RegName.id, .version, .dstLen, .fecPad, .errCorr, .tableCount, .blkIndex, .blkAgree, .errInfo] →
      s.access (.write r.offset .b4 v) = s) ∧
    (∀ v, let t := s.access (.write 0x0000C .b4 v); t.pend = s.pend ∧ t.err = s.err ∧ t.diag = s.diag)

/-- HAZ is set only by an access of the host that R75.1 to R75.3 drop while a command runs, and that access changes nothing
else, a read returning 0; HAZ is cleared only by writing 1 to it or by reset (R25, R75). That the host moves only at its
turn while a command runs is log entry 3's choice; that reserved words of a table entry, wrong sizes, misaligned words and
writes to FREQ set no HAZ (R62, R64, R75.6) is the model's reading (log entry 11), and so is the 0 in the lanes that a
1-byte read does not name (log entry 4). -/
def Obligations.HazardChangesOnlyByItsRule : Prop :=
  ∀ s t : State, step s = .next t →
    (s.haz = false → t.haz = true → s.busy = true ∧ ∃ ops ts, s.turns = .host :: ts ∧
      ((∃ off size v, s.host = .access (.write off size v) :: ops ∧ RefusedWrite off size ∧
        t = { s with haz := true, host := ops, turns := ts }) ∨
      ∃ off size, s.host = .access (.read off size) :: ops ∧ HiddenRead off size ∧
        t = { s with haz := true, rdata := 0, host := ops, turns := ts })) ∧
    (s.haz = true → t.haz = false → (∃ ts, s.turns = .reset :: ts) ∨
      ∃ v ops, s.host = .access (.write 0x0000C .b4 v) :: ops ∧ v.getLsbD 2 = true)

/-- FREQ changes only when a BUILD_TABLE completes or by reset (R43); reset comes at its turn of the schedule (log
entry 3). -/
def Obligations.FreqChangesOnlyByBuildTable : Prop :=
  ∀ s t : State, step s = .next t → t.freq ≠ s.freq →
    (s.pend = .running 0x00000001 ∧ t.pend = .idle ∧ t.err = .none) ∨ ∃ ts, s.turns = .reset :: ts

/-- The code-table RAM changes only when a BUILD_TABLE or a TABLE_CLEAR completes, by a host's word write to the TABLE
window while no command runs, or by reset (R41); reset comes at its turn of the schedule (log entry 3). -/
def Obligations.TableChangesOnlyByItsWriters : Prop :=
  ∀ s t : State, step s = .next t → t.table ≠ s.table →
    ((s.pend = .running 0x00000001 ∨ s.pend = .running 0x00000002) ∧ t.pend = .idle ∧ t.err = .none) ∨
    (s.pend = .idle ∧ ∃ off v ops, s.host = .access (.write off .b4 v) :: ops ∧
      0x2000 ≤ BitVec.toNat off ∧ BitVec.toNat off < 0x6000) ∨
    ∃ ts, s.turns = .reset :: ts

/-- The result registers change only at a completion (or by reset), and all but ERR_INFO only at a successful one (R118);
FEC_ORIG_LEN has the host's write besides (R33). Reset comes at its turn of the schedule (log entry 3). -/
def Obligations.ResultsChangeOnlyAtCompletion : Prop :=
  ∀ s t : State, step s = .next t →
    (t.dstLen ≠ s.dstLen ∨ t.fecPad ≠ s.fecPad ∨ t.errCorr ≠ s.errCorr ∨ t.blkIndex ≠ s.blkIndex ∨ t.blkAgree ≠ s.blkAgree →
      (s.busy = true ∧ t.pend = .idle ∧ t.done = true ∧ t.err = .none) ∨ ∃ ts, s.turns = .reset :: ts) ∧
    (t.errInfo ≠ s.errInfo → (s.busy = true ∧ t.pend = .idle ∧ t.done = true) ∨ ∃ ts, s.turns = .reset :: ts) ∧
    (t.fecOrigLen ≠ s.fecOrigLen → (s.pend = .running 0x00000022 ∧ t.pend = .idle ∧ t.err = .none) ∨
      (s.pend = .idle ∧ ∃ v ops, s.host = .access (.write 0x0002C .b4 v) :: ops ∧ t.fecOrigLen = v) ∨
      ∃ ts, s.turns = .reset :: ts)

/-! ### The host port -/

/-- The register map: the offset of each register (R22). -/
def Obligations.RegisterMapOffsets : Prop :=
  target 0x0000 .b4 = .reg .id ∧ target 0x0004 .b4 = .reg .version ∧ target 0x0008 .b4 = .reg .ctrl ∧
  target 0x000C .b4 = .reg .status ∧ target 0x0010 .b4 = .reg .cmd ∧ target 0x0014 .b4 = .reg .srcAddr ∧
  target 0x0018 .b4 = .reg .srcLen ∧ target 0x001C .b4 = .reg .dstAddr ∧ target 0x0020 .b4 = .reg .dstLen ∧
  target 0x0024 .b4 = .reg .n ∧ target 0x0028 .b4 = .reg .blockBytes ∧ target 0x002C .b4 = .reg .fecOrigLen ∧
  target 0x0030 .b4 = .reg .fecPad ∧ target 0x0034 .b4 = .reg .errCorr ∧ target 0x0038 .b4 = .reg .tableCount ∧
  target 0x003C .b4 = .reg .blkIndex ∧ target 0x0040 .b4 = .reg .blkAgree ∧ target 0x0044 .b4 = .reg .errInfo ∧
  ∀ r : RegName, target r.offset .b4 = .reg r

/-- While no command runs, a 4-byte write stores the RW field of the register written, changes nothing else, and a read
then returns the field with the reserved bits 0; CTRL and STATUS at any time (R24, R25, R27, R28, R29, R31, R32, R33). -/
def Obligations.RegisterWritesStoreTheirField : Prop :=
  ∀ (s : State) (v : Word),
    (s.pend = .idle →
      s.access (.write 0x00014 .b4 v) = { s with srcAddr := v } ∧
      s.access (.write 0x00018 .b4 v) = { s with srcLen := v } ∧
      s.access (.write 0x0001C .b4 v) = { s with dstAddr := v } ∧
      (let t := s.access (.write 0x00024 .b4 v); t = { s with n := t.n } ∧ t.regRead .n = v &&& 0xF) ∧
      (let t := s.access (.write 0x00028 .b4 v); t = { s with blockBytes := t.blockBytes } ∧ t.regRead .blockBytes = v &&& 0xFF) ∧
      s.access (.write 0x0002C .b4 v) = { s with fecOrigLen := v }) ∧
    (let t := s.access (.write 0x00008 .b4 v); t = { s with irqEn := t.irqEn } ∧ t.regRead .ctrl = v &&& 1) ∧
    s.access (.write 0x0000C .b4 v) = { s with done := s.done && !v.getLsbD 1, haz := s.haz && !v.getLsbD 2 }

/-- STATUS bit by bit, as the host reads it (R25), and the value of its field ERR for each error (R240). -/
def Obligations.StatusWordLayout : Prop :=
  (∀ s : State, (s.regRead .status).extractLsb' 8 8 =
    match s.err with
    | .none => 0x00
    | .badCmd => 0x01
    | .badParam => 0x02
    | .badBlockLen => 0x03
    | .range => 0x04
    | .badTable => 0x05
    | .symbolAbsent => 0x06
    | .overlap => 0x07) ∧
  ∀ (s : State) (k : Nat), (s.regRead .status).getLsbD k =
    if k = 0 then s.busy
    else if k = 1 then s.done
    else if k = 2 then s.haz
    else if k < 8 then false
    else if k < 16 then s.err.code.getLsbD (k - 8)
    else if k = 16 then s.diag.empty
    else if k = 17 then s.diag.tail
    else if k = 18 then s.diag.padFault
    else if k = 19 then s.diag.trunc
    else if k = 20 then s.diag.short
    else false

/-- A read changes no state but what the port returns; but while a command runs, a read of a LEN or CODE word of the TABLE
window, of a word of FREQ or of a byte or word of BUF returns 0 and sets HAZ, and no other read sets it (R71, R75.3). That
reads of the reserved words of a table entry, of wrong sizes and of misaligned words inside the windows are among the others
(R62, R64, R75.6) is the model's reading (log entry 11), and so is the 0 in the lanes that a 1-byte read does not name (log
entry 4). -/
def Obligations.ReadsHaveNoSideEffects : Prop :=
  ∀ (s : State) (off : Offset) (size : Size),
    (¬ (s.busy = true ∧ HiddenRead off size) →
      s.access (.read off size) = { s with rdata := (s.access (.read off size)).rdata }) ∧
    (s.busy = true → HiddenRead off size → s.access (.read off size) = { s with haz := true, rdata := 0 })

/-- The BUF window: whoever stored them, a read returns the byte, or the four bytes little-endian, that BUF holds, and changes
nothing else; a word written lies little-endian, a byte where it is written; each changes the bytes written only, and reads
back whole and by byte (R68, R69). That a 1-byte access carries its byte in the low lane, and a read 0 above it, is the
model's choice (log entry 4). -/
def Obligations.BufWindowAccesses : Prop :=
  ∀ (s : State) (a : Nat) (v : Word), s.pend = .idle → a < 65536 →
    s.access (.read (bufOffset a) .b1) = { s with rdata := (s.byteAt a).setWidth 32 } ∧
    (a % 4 = 0 →
      ∃ t, s.access (.read (bufOffset a) .b4) = t ∧ t = { s with rdata := t.rdata } ∧
      ∀ q, q < 4 → t.rdata.extractLsb' (8 * q) 8 = s.byteAt (a + q)) ∧
    (a % 4 = 0 →
      ∃ t, s.access (.write (bufOffset a) .b4 v) = t ∧ t = { s with buf := t.buf } ∧
      (∀ x, t.byteAt x = if a ≤ x ∧ x < a + 4 then v.extractLsb' (8 * (x - a)) 8 else s.byteAt x) ∧
      (t.access (.read (bufOffset a) .b4)).rdata = v ∧
      ∀ q, q < 4 → (t.access (.read (bufOffset (a + q)) .b1)).rdata = (v >>> (8 * q)) &&& 0xFF) ∧
    ∃ t, s.access (.write (bufOffset a) .b1 v) = t ∧ t = { s with buf := t.buf } ∧
      (∀ x, t.byteAt x = if x = a then v.setWidth 8 else s.byteAt x) ∧
      (t.access (.read (bufOffset a) .b1)).rdata = v &&& 0xFF

/-- The TABLE window: whoever stored them, ELEN reads LEN, and a CODE word the four CODE bytes that the entry holds there,
little-endian, and nothing else changes; ELEN stores LEN and reads it back with RSV 0; a CODE word stores and reads back its four bytes,
little-endian; neither changes another entry, the other field or another word (R64). The FREQ window reads FREQ (R65). -/
def Obligations.TableAndFreqWindows : Prop :=
  ∀ (s : State) (sym : Byte) (v : Word), s.pend = .idle →
    s.access (.read (tableOffset sym 0) .b4) = { s with rdata := (ramGet s.table sym).len.setWidth 32 } ∧
    (∀ j : Fin 32, ∃ t, s.access (.read (tableOffset sym (0x20 + 4 * (j.val / 4))) .b4) = t ∧
      t = { s with rdata := t.rdata } ∧ t.rdata.extractLsb' (8 * (j.val % 4)) 8 = (ramGet s.table sym).code[j]) ∧
    (∃ t, s.access (.write (tableOffset sym 0) .b4 v) = t ∧
      t = { s with table := t.table } ∧ (t.access (.read (tableOffset sym 0) .b4)).rdata = v &&& 0xFF ∧
      (ramGet t.table sym).code = (ramGet s.table sym).code ∧
      ∀ other : Byte, other ≠ sym → ramGet t.table other = ramGet s.table other) ∧
    (∀ k, k < 8 → ∃ t, s.access (.write (tableOffset sym (0x20 + 4 * k)) .b4 v) = t ∧
      t = { s with table := t.table } ∧ (t.access (.read (tableOffset sym (0x20 + 4 * k)) .b4)).rdata = v ∧
      (ramGet t.table sym).len = (ramGet s.table sym).len ∧
      (∀ j : Fin 32, (ramGet t.table sym).code[j] =
        if j.val / 4 = k then v.extractLsb' (8 * (j.val % 4)) 8 else (ramGet s.table sym).code[j]) ∧
      ∀ other : Byte, other ≠ sym → ramGet t.table other = ramGet s.table other) ∧
    s.access (.read (BitVec.ofNat 17 (0x1000 + 4 * sym.toNat)) .b4) = { s with rdata := ramGet s.freq sym }

/-- IRQ is DONE and IRQ_EN at every instant: raised by a completion if enabled, lowered by issue, by writing 1 to DONE, and by
masking, which keeps DONE so that re-enabling raises it again (R246). -/
def Obligations.IrqIsALevel : Prop :=
  ∀ s : State, (s.irq = true ↔ s.done = true ∧ s.irqEn = true) ∧
    (∀ i t, exec i s = .next t → t.irq = s.irqEn) ∧ (∀ w, (s.issue w).irq = false) ∧
    (s.access (.write 0x0000C .b4 2)).irq = false ∧
    (s.access (.write 0x00008 .b4 0)).irq = false ∧ (s.access (.write 0x00008 .b4 0)).done = s.done ∧
    ((s.access (.write 0x00008 .b4 0)).access (.write 0x00008 .b4 1)).irq = s.done

/-- TABLE_COUNT is at every read the number of symbols with LEN ≠ 0, in 0..256; no write changes it, and reset leaves
it 0 (R36). -/
def Obligations.TableCountIsLive : Prop :=
  State.reset.regRead .tableCount = 0 ∧
  ∀ s : State, (s.regRead .tableCount).toNat = (List.finRange 256).countP (fun k => s.table[k].len ≠ 0) ∧
    (s.regRead .tableCount).toNat ≤ 256 ∧ ∀ v, s.access (.write 0x00038 .b4 v) = s

/-! ### The commands: what each does when it succeeds -/

/-- NOP, the word 0 and no other with OP = 0, has no effect but its completion: STATUS is then 2, or 6 if HAZ was set (R120). -/
def Obligations.NopCompletes : Prop :=
  decode 0x00000000 = .ok .nop ∧ (∀ w : Word, w ≠ 0 → w.extractLsb' 0 8 = 0 → ∃ e, decode w = .error e) ∧
  ∀ s : State, ∃ t, exec .nop s = .next t ∧ t = completed s {} ∧ t.regRead .status = if s.haz then 6 else 2

/-- TABLE_CLEAR zeroes every LEN and CODE byte, and changes nothing else (R150). -/
def Obligations.TableClearCompletes : Prop :=
  decode 0x00000002 = .ok .tableClear ∧ ∀ s : State, ∃ t, exec .tableClear s = .next t ∧ t = { completed s {} with table := t.table } ∧
    (∀ sym : Byte, (ramGet t.table sym).len = 0 ∧ ∀ j : Fin 32, (ramGet t.table sym).code[j] = 0) ∧ t.regRead .tableCount = 0

/-- BUILD_TABLE writes FREQ[s] = the occurrences of s, LEN and CODE of every code (the CODE bytes filled with 0x00) and zero
for every absent symbol; TABLE_COUNT is then the number of distinct bytes, EMPTY says SRC_LEN = 0, and nothing else
changes (R140). -/
def Obligations.BuildTableCompletes : Prop :=
  ∀ s : State, Fits s.srcAddr s.srcLen.toNat →
    let d := s.readBytes s.srcAddr.toNat s.srcLen.toNat
    ∃ t, exec .buildTable s = .next t ∧
      t = { completed s { empty := decide (s.srcLen = 0) } with table := t.table, freq := t.freq } ∧
      (∀ sym : Byte, (ramGet t.freq sym).toNat = d.count sym) ∧
      (∀ sym : Byte, ∀ c, (buildCodes d).lookup sym = some c → (ramGet t.table sym).len.toNat = c.length ∧
        (ramGet t.table sym).codeOf = c ∧ ∀ j : Fin 32, (ramGet t.table sym).code[j] = (bytesOf c).getD j 0) ∧
      (∀ sym : Byte, (buildCodes d).lookup sym = none → (ramGet t.table sym).len = 0 ∧
        ∀ j : Fin 32, (ramGet t.table sym).code[j] = 0) ∧
      (∀ sym : Byte, ((buildCodes d).lookup sym).isSome ↔ sym ∈ d) ∧
      (t.regRead .tableCount).toNat = d.toFinset.card

/-- COMPRESS stores the encoded bits at DST_ADDR and their number in DST_LEN, and changes nothing else (R155). -/
def Obligations.CompressCompletes : Prop :=
  ∀ (s : State) (out : BitString), Fits s.srcAddr s.srcLen.toNat →
    encodeBytes (tableOf s.table) (s.readBytes s.srcAddr.toNat s.srcLen.toNat) = .ok out →
    Fits s.dstAddr ((out.length + 7) / 8) → Apart s.srcAddr s.srcLen.toNat s.dstAddr ((out.length + 7) / 8) →
    ∃ t, exec .compress s = .next t ∧ t = { completed s {} with dstLen := t.dstLen, buf := t.buf } ∧
      t.dstLen.toNat = out.length ∧ Stored s t s.dstAddr.toNat (bytesOf out) ∧
      t.readBits s.dstAddr.toNat out.length = out

/-- DECOMPRESS stores the decoded bytes at DST_ADDR and their number in DST_LEN, sets TAIL if bits were left, and changes
nothing else (R165). -/
def Obligations.DecompressCompletes : Prop :=
  ∀ s : State, Fits s.srcAddr ((s.srcLen.toNat + 7) / 8) →
    ((tableOf s.table).length ≤ 1 ∨ ((tableOf s.table).map Prod.snd).Nodup) →
    let r := decodeBits (tableOf s.table) (s.readBits s.srcAddr.toNat s.srcLen.toNat)
    Fits s.dstAddr r.1.length → Apart s.srcAddr ((s.srcLen.toNat + 7) / 8) s.dstAddr r.1.length →
    ∃ t, exec .decompress s = .next t ∧ t = { completed s { tail := r.2 } with dstLen := t.dstLen, buf := t.buf } ∧
      t.dstLen.toNat = r.1.length ∧ Stored s t s.dstAddr.toNat r.1

/-- PACK stores the packed bytes at DST_ADDR and their number in DST_LEN, and changes nothing else (R181). -/
def Obligations.PackCompletes : Prop :=
  ∀ s : State, s.blockBytes ≠ 0 → Fits s.srcAddr ((s.srcLen.toNat + 7) / 8) →
    let out := packBits (s.readBits s.srcAddr.toNat s.srcLen.toNat) s.blockBytes.toNat
    Fits s.dstAddr out.length → Apart s.srcAddr ((s.srcLen.toNat + 7) / 8) s.dstAddr out.length →
    ∃ t, exec .pack s = .next t ∧ t = { completed s {} with dstLen := t.dstLen, buf := t.buf } ∧
      t.dstLen.toNat = out.length ∧ Stored s t s.dstAddr.toNat out

/-- UNPACK stores the stripped bytes' bits at DST_ADDR and their number in DST_LEN, sets PAD_FAULT on the fallback, and
changes nothing else (R188). -/
def Obligations.UnpackCompletes : Prop :=
  ∀ s : State, Fits s.srcAddr s.srcLen.toNat →
    let r := unpackBytes (s.readBytes s.srcAddr.toNat s.srcLen.toNat)
    Fits s.dstAddr (r.1.length / 8) → Apart s.srcAddr s.srcLen.toNat s.dstAddr (r.1.length / 8) →
    ∃ t, exec .unpack s = .next t ∧ t = { completed s { padFault := r.2 } with dstLen := t.dstLen, buf := t.buf } ∧
      t.dstLen.toNat = r.1.length ∧ r.1.length % 8 = 0 ∧ Stored s t s.dstAddr.toNat (bytesOf r.1)

/-- ENCODE_BLOCK stores Row(N, val(p)) at DST_ADDR, DST_LEN = 2^N and BLK_INDEX = val(p), and changes nothing else (R205). -/
def Obligations.EncodeBlockCompletes : Prop :=
  ∀ s : State, 1 ≤ s.n.toNat → s.n.toNat ≤ 8 → s.srcLen.toNat = s.n.toNat → Fits s.srcAddr 1 →
    Fits s.dstAddr ((2 ^ s.n.toNat + 7) / 8) → Apart s.srcAddr 1 s.dstAddr ((2 ^ s.n.toNat + 7) / 8) →
    let p := s.readBits s.srcAddr.toNat s.n.toNat
    ∃ t, exec .encodeBlock s = .next t ∧
      t = { completed s {} with dstLen := t.dstLen, blkIndex := t.blkIndex, buf := t.buf } ∧
      t.dstLen.toNat = 2 ^ s.n.toNat ∧ t.blkIndex.toNat = val p ∧
      Stored s t s.dstAddr.toNat (bytesOf (row s.n.toNat (val p))) ∧ (row s.n.toNat (val p)).length = 2 ^ s.n.toNat

/-- DECODE_BLOCK stores the payload of the chosen row at DST_ADDR, DST_LEN = N, BLK_INDEX the row, BLK_AGREE its agreement and
ERR_CORR its distance, and changes nothing else (R208). -/
def Obligations.DecodeBlockCompletes : Prop :=
  ∀ s : State, 1 ≤ s.n.toNat → s.n.toNat ≤ 8 → s.srcLen.toNat = 2 ^ s.n.toNat →
    Fits s.srcAddr ((2 ^ s.n.toNat + 7) / 8) → Fits s.dstAddr 1 → Apart s.srcAddr ((2 ^ s.n.toNat + 7) / 8) s.dstAddr 1 →
    let d := decBlock s.n.toNat (s.readBits s.srcAddr.toNat (2 ^ s.n.toNat))
    ∃ t, exec .decodeBlock s = .next t ∧
      t = { completed s {} with dstLen := t.dstLen, blkIndex := t.blkIndex, blkAgree := t.blkAgree, errCorr := t.errCorr, buf := t.buf } ∧
      t.dstLen.toNat = s.n.toNat ∧ t.blkIndex.toNat = d.index ∧ t.blkAgree.toNat = d.agree ∧
      t.errCorr.toNat = 2 ^ s.n.toNat - d.agree ∧ Stored s t s.dstAddr.toNat (bytesOf (bin s.n.toNat d.index))

/-- FEC_ENCODE stores the codewords of the padded blocks at DST_ADDR, the row of the j-th block in the j-th place, their number of bits in DST_LEN, the source length in
FEC_ORIG_LEN and the padding in FEC_PAD, and changes nothing else (R213). -/
def Obligations.FecEncodeCompletes : Prop :=
  ∀ s : State, 1 ≤ s.n.toNat → s.n.toNat ≤ 8 → Fits s.srcAddr ((s.srcLen.toNat + 7) / 8) →
    let out := fecEncodeBits s.n.toNat (s.readBits s.srcAddr.toNat s.srcLen.toNat)
    Fits s.dstAddr ((out.length + 7) / 8) →
    Apart s.srcAddr ((s.srcLen.toNat + 7) / 8) s.dstAddr ((out.length + 7) / 8) →
    ∃ t, exec .fecEncode s = .next t ∧
      t = { completed s {} with dstLen := t.dstLen, fecOrigLen := s.srcLen, fecPad := t.fecPad, buf := t.buf } ∧
      t.dstLen.toNat = out.length ∧ t.fecPad.toNat < s.n.toNat ∧ (s.srcLen.toNat + t.fecPad.toNat) % s.n.toNat = 0 ∧
      t.dstLen.toNat = (s.srcLen.toNat + t.fecPad.toNat) / s.n.toNat * 2 ^ s.n.toNat ∧
      (∀ j, j < (s.srcLen.toNat + t.fecPad.toNat) / s.n.toNat → (out.drop (j * 2 ^ s.n.toNat)).take (2 ^ s.n.toNat) =
        row s.n.toNat (val (((s.readBits s.srcAddr.toNat s.srcLen.toNat ++ zeros t.fecPad.toNat).drop (j * s.n.toNat)).take
          s.n.toNat))) ∧
      Stored s t s.dstAddr.toNat (bytesOf out)

/-- FEC_DECODE stores the payloads of the blocks in their order, cut at FEC_ORIG_LEN, at DST_ADDR; DST_LEN = min(FEC_ORIG_LEN, floor(SRC_LEN/2^N)·N),
ERR_CORR the summed distances of all blocks, TRUNC and SHORT as their rules say, and changes nothing else (R217). -/
def Obligations.FecDecodeCompletes : Prop :=
  ∀ s : State, 1 ≤ s.n.toNat → s.n.toNat ≤ 8 → Fits s.srcAddr ((s.srcLen.toNat + 7) / 8) →
    let w := 2 ^ s.n.toNat
    let r := s.readBits s.srcAddr.toNat s.srcLen.toNat
    let d := fecDecodeBits s.n.toNat r s.fecOrigLen.toNat
    let len := min s.fecOrigLen.toNat (s.srcLen.toNat / w * s.n.toNat)
    Fits s.dstAddr ((len + 7) / 8) → Apart s.srcAddr ((s.srcLen.toNat + 7) / 8) s.dstAddr ((len + 7) / 8) →
    ∃ t, exec .fecDecode s = .next t ∧
      t = { completed s { trunc := decide (s.srcLen.toNat % w ≠ 0), short := decide (s.srcLen.toNat / w * s.n.toNat < s.fecOrigLen.toNat) }
            with dstLen := t.dstLen, errCorr := t.errCorr, buf := t.buf } ∧
      t.dstLen.toNat = len ∧
      t.errCorr.toNat = ((List.range (s.srcLen.toNat / w)).map fun j => (decBlock s.n.toNat (block w r j)).dist).sum ∧
      d.bits = ((List.range (s.srcLen.toNat / w)).flatMap fun j =>
        bin s.n.toNat (decBlock s.n.toNat ((r.drop (j * w)).take w)).index).take s.fecOrigLen.toNat ∧
      d.bits.length = len ∧ Stored s t s.dstAddr.toNat (bytesOf d.bits)

/-! ### The commands: errors -/

/-- An error is precise: after it only ERR, ERR_INFO, DONE, BUSY and the cleared flags differ from the state at the
step (R116, R240, R249). -/
def Obligations.ErrorsArePrecise : Prop :=
  ∀ (i : Instr) (s t : State), exec i s = .next t → t.err ≠ .none →
    t = { s with pend := .idle, done := true, err := t.err, errInfo := t.errInfo, diag := {} }

/-- ERR_INFO after a completion: the first byte in source order that the table lacks after SYMBOL_ABSENT, and 0 after
any other (R39). -/
def Obligations.ErrInfoNamesTheFirstAbsentByte : Prop :=
  ∀ (i : Instr) (s t : State), exec i s = .next t →
    (t.err ≠ .symbolAbsent → t.errInfo = 0) ∧
    (t.err = .symbolAbsent → ∃ pre b post,
      s.readBytes s.srcAddr.toNat s.srcLen.toNat = pre ++ b :: post ∧ t.errInfo = b.setWidth 32 ∧
      (ramGet s.table b).len = 0 ∧ ∀ x ∈ pre, (ramGet s.table x).len ≠ 0)

/-- The check order of the entropy commands (R115). -/
def Obligations.EntropyCheckOrder : Prop :=
  ∀ s t : State,
    (exec .buildTable s = .next t → t.err = if ¬ Fits s.srcAddr s.srcLen.toNat then .range else .none) ∧
    (exec .compress s = .next t → t.err =
      if ¬ Fits s.srcAddr s.srcLen.toNat then .range
      else match encodeBytes (tableOf s.table) (s.readBytes s.srcAddr.toNat s.srcLen.toNat) with
        | .error _ => .symbolAbsent
        | .ok out =>
          if ¬ Fits s.dstAddr ((out.length + 7) / 8) then .range
          else if ¬ Apart s.srcAddr s.srcLen.toNat s.dstAddr ((out.length + 7) / 8) then .overlap
          else .none) ∧
    (exec .decompress s = .next t → t.err =
      let out := (decodeBits (tableOf s.table) (s.readBits s.srcAddr.toNat s.srcLen.toNat)).1
      if ¬ Fits s.srcAddr ((s.srcLen.toNat + 7) / 8) then .range
      else if ∃ a b : Fin 256, a ≠ b ∧ s.table[a].len ≠ 0 ∧ s.table[b].len ≠ 0 ∧ s.table[a].codeOf = s.table[b].codeOf then .badTable
      else if ¬ Fits s.dstAddr out.length then .range
      else if ¬ Apart s.srcAddr ((s.srcLen.toNat + 7) / 8) s.dstAddr out.length then .overlap
      else .none)

/-- The check order of PACK and UNPACK (R115). -/
def Obligations.BitPackCheckOrder : Prop :=
  ∀ s t : State,
    (exec .pack s = .next t → t.err =
      let out := packBits (s.readBits s.srcAddr.toNat s.srcLen.toNat) s.blockBytes.toNat
      if s.blockBytes = 0 then .badParam
      else if ¬ Fits s.srcAddr ((s.srcLen.toNat + 7) / 8) then .range
      else if ¬ Fits s.dstAddr out.length then .range
      else if ¬ Apart s.srcAddr ((s.srcLen.toNat + 7) / 8) s.dstAddr out.length then .overlap
      else .none) ∧
    (exec .unpack s = .next t → t.err =
      let out := (unpackBytes (s.readBytes s.srcAddr.toNat s.srcLen.toNat)).1
      if ¬ Fits s.srcAddr s.srcLen.toNat then .range
      else if ¬ Fits s.dstAddr (out.length / 8) then .range
      else if ¬ Apart s.srcAddr s.srcLen.toNat s.dstAddr (out.length / 8) then .overlap
      else .none)

/-- The check order of the FEC commands (R115). -/
def Obligations.FecCheckOrder : Prop :=
  ∀ s t : State,
    let n := s.n.toNat
    let w := 2 ^ n
    let m := (s.srcLen.toNat + 7) / 8
    (exec .encodeBlock s = .next t → t.err =
      if n = 0 ∨ 8 < n then .badParam
      else if s.srcLen.toNat ≠ n then .badBlockLen
      else if ¬ Fits s.srcAddr 1 then .range
      else if ¬ Fits s.dstAddr ((w + 7) / 8) then .range
      else if ¬ Apart s.srcAddr 1 s.dstAddr ((w + 7) / 8) then .overlap
      else .none) ∧
    (exec .decodeBlock s = .next t → t.err =
      if n = 0 ∨ 8 < n then .badParam
      else if s.srcLen.toNat ≠ w then .badBlockLen
      else if ¬ Fits s.srcAddr ((w + 7) / 8) then .range
      else if ¬ Fits s.dstAddr 1 then .range
      else if ¬ Apart s.srcAddr ((w + 7) / 8) s.dstAddr 1 then .overlap
      else .none) ∧
    (exec .fecEncode s = .next t → t.err =
      let out := (s.srcLen.toNat + n - 1) / n * w
      if n = 0 ∨ 8 < n then .badParam
      else if ¬ Fits s.srcAddr m then .range
      else if ¬ Fits s.dstAddr ((out + 7) / 8) then .range
      else if ¬ Apart s.srcAddr m s.dstAddr ((out + 7) / 8) then .overlap
      else .none) ∧
    (exec .fecDecode s = .next t → t.err =
      let out := min s.fecOrigLen.toNat (s.srcLen.toNat / w * n)
      if n = 0 ∨ 8 < n then .badParam
      else if ¬ Fits s.srcAddr m then .range
      else if ¬ Fits s.dstAddr ((out + 7) / 8) then .range
      else if ¬ Apart s.srcAddr m s.dstAddr ((out + 7) / 8) then .overlap
      else .none)

/-! ### Extents -/

/-- Bytes of BUF outside the destination extent, and all of them after an error, are unchanged by a command (R112). -/
def Obligations.BytesOutsideDestinationUnchanged : Prop :=
  ∀ (i : Instr) (s t : State) (x : Nat), exec i s = .next t →
    (t.err = .none → ¬ (s.dstAddr.toNat ≤ x ∧ x < s.dstAddr.toNat + destinationBytes i t.dstLen.toNat)) →
    t.byteAt x = s.byteAt x

/-- A command reads BUF only inside its source extent: from states that differ only in BUF outside that extent (and in
what unspecified bytes there are, log entry 1), it makes the same next state but for those bytes (R112, R271). -/
def Obligations.CommandReadsOnlyItsSource : Prop :=
  ∀ (i : Instr) (s : State) (m : Memory) (e : Nat),
    let s' := { s with buf := m, bufEpoch := e }
    (∀ x, s.srcAddr.toNat ≤ x → x < s.srcAddr.toNat + sourceBytes i s.srcLen.toNat → s'.byteAt x = s.byteAt x) →
    ∃ t t', exec i s = .next t ∧ exec i s' = .next t' ∧ t' = { t with buf := t'.buf, bufEpoch := e } ∧
      ∀ x, t.err = .none → s.dstAddr.toNat ≤ x → x < s.dstAddr.toNat + destinationBytes i t.dstLen.toNat →
        t'.byteAt x = t.byteAt x

/-! ### Bit strings -/

/-- Bit strings and bytes: bit k of bits_of(bs), and of a bit string read from BUF, is bit 7 − k mod 8 of byte k/8; bin_n(v) is
written most significant bit first and val reads it back; bits_of(bytes_of(s)) is s with zeros to a byte boundary, bytes_of(bits_of(b)) is b; ReadBits is
the bits of ReadBytes cut at its length; and a bit string written to BUF reads back at its length (R10, R66, R67, R70). -/
def Obligations.BitStringsInBuf : Prop :=
  (∀ (bs : ByteString) (k : Nat), k < 8 * bs.length →
    (bitsOf bs)[k]? = some ((bs.getD (k / 8) 0).getLsbD (7 - k % 8))) ∧
  (∀ (s : State) (a len k : Nat), k < len →
    (s.readBits a len)[k]? = some ((s.byteAt (a + k / 8)).getLsbD (7 - k % 8))) ∧
  (∀ n v : Nat, v < 2 ^ n → val (bin n v) = v ∧ (bin n v).length = n ∧
    ∀ k, k < n → (bin n v)[k]? = some (v.testBit (n - 1 - k))) ∧
  (∀ b : BitString, bitsOf (bytesOf b) = b ++ zeros ((8 - b.length % 8) % 8)) ∧
  (∀ bs : ByteString, bytesOf (bitsOf bs) = bs) ∧
  (∀ (s : State) (a len : Nat), s.readBits a len = (bitsOf (s.readBytes a ((len + 7) / 8))).take len) ∧
  ∀ (s : State) (a : Nat) (b : BitString), (s.writeBytes a (bytesOf b)).readBits a b.length = b

/-! ### The entropy unit -/

/-- SortSyms: exactly the symbols that occur, frequency descending and equal frequencies by ascending symbol (R131). -/
def Obligations.SymbolOrder : Prop :=
  ∀ f : FreqTable, (∀ s : Byte, s ∈ sortSyms f ↔ 0 < ramGet f s) ∧
    (sortSyms f).Pairwise fun a b => ramGet f b < ramGet f a ∨ (ramGet f a = ramGet f b ∧ a.toNat < b.toNat)

/-- SF is the bisection: its base cases, and for a longer list a split at the least index of least |2·C(i) − T|, where
T is the total of this list (R132). Build is the empty table for no bytes, the placeholder code "0" for one symbol, and SF
of the sorted symbols from the empty prefix for more, over the occurrences of each symbol (R130, R134). -/
def Obligations.ShannonFanoIsTheBisection : Prop :=
  (∀ (f : FreqTable) (p : BitString),
    (∀ a, shannonFano f 1 [a] p = [(a, p)]) ∧
    (∀ a b, shannonFano f 2 [a, b] p = [(a, p ++ [false]), (b, p ++ [true])]) ∧
    ∀ l : List Byte, 3 ≤ l.length → ∃ i, 1 ≤ i ∧ i ≤ l.length - 1 ∧
      (∀ j, 1 ≤ j → j ≤ l.length - 1 →
        (2 * (mass f (l.take i) : Int) - mass f l).natAbs ≤ (2 * (mass f (l.take j) : Int) - mass f l).natAbs ∧
        (j < i → (2 * (mass f (l.take i) : Int) - mass f l).natAbs < (2 * (mass f (l.take j) : Int) - mass f l).natAbs)) ∧
      shannonFano f l.length l p =
        shannonFano f (l.take i).length (l.take i) (p ++ [false]) ++
          shannonFano f (l.drop i).length (l.drop i) (p ++ [true])) ∧
  ∀ d : ByteString,
    (∀ sym : Byte, ramGet (freqOf d) sym = d.count sym) ∧
    (sortSyms (freqOf d) = [] ↔ d = []) ∧
    (sortSyms (freqOf d) = [] → buildCodes d = []) ∧
    (∀ a, sortSyms (freqOf d) = [a] → buildCodes d = [(a, [false])]) ∧
    (2 ≤ (sortSyms (freqOf d)).length →
      buildCodes d = shannonFano (freqOf d) (sortSyms (freqOf d)).length (sortSyms (freqOf d)) [])

/-- The table built from any input with two distinct byte values is prefix-free (R135). -/
def Obligations.BuiltTableIsPrefixFree : Prop :=
  ∀ d : ByteString, (∃ a ∈ d, ∃ b ∈ d, a ≠ b) →
    ∀ x ∈ buildCodes d, ∀ y ∈ buildCodes d, x.2 <+: y.2 → x = y

/-- The codes built from any input with two distinct byte values are complete: the sum of 2^(−length) is 1; and each is
non-empty and at most k − 1 ≤ 255 bits long for k distinct values (R133). -/
def Obligations.BuiltCodesAreComplete : Prop :=
  ∀ d : ByteString, (∃ a ∈ d, ∃ b ∈ d, a ≠ b) →
    ((buildCodes d).map fun e => (1 / 2 : ℚ) ^ e.2.length).sum = 1 ∧
    ∀ e ∈ buildCodes d, 1 ≤ e.2.length ∧ e.2.length ≤ d.toFinset.card - 1 ∧ e.2.length ≤ 255

/-- After a BUILD_TABLE of the bytes d, Enc of d with that table is some bit string c; COMPRESS of d with that table stores
this c, and DECOMPRESS of exactly its |c| bits with that table stores d, with TAIL = 0 (R170). -/
def Obligations.EntropyRoundTrip : Prop :=
  ∀ s t : State, Fits s.srcAddr s.srcLen.toNat → exec .buildTable s = .next t →
    let d := s.readBytes s.srcAddr.toNat s.srcLen.toNat
    ∃ c : BitString, encodeBytes (tableOf t.table) d = .ok c ∧
      (∀ u : State, u.table = t.table → Fits u.srcAddr u.srcLen.toNat → u.readBytes u.srcAddr.toNat u.srcLen.toNat = d →
        Fits u.dstAddr ((c.length + 7) / 8) → Apart u.srcAddr u.srcLen.toNat u.dstAddr ((c.length + 7) / 8) →
        ∃ v, exec .compress u = .next v ∧ v.err = .none ∧ v.dstLen.toNat = c.length ∧
          v.readBits u.dstAddr.toNat c.length = c) ∧
      ∀ u : State, u.table = t.table → u.srcLen.toNat = c.length → Fits u.srcAddr ((c.length + 7) / 8) →
        u.readBits u.srcAddr.toNat c.length = c → Fits u.dstAddr d.length →
        Apart u.srcAddr ((c.length + 7) / 8) u.dstAddr d.length →
        ∃ v, exec .decompress u = .next v ∧ v.err = .none ∧ v.diag = {} ∧ v.dstLen.toNat = d.length ∧
          v.readBytes u.dstAddr.toNat d.length = d

/-- Enc: a one-entry table gives one 0 bit a byte whatever its code; any other the concatenated codes; and the first byte
the table lacks is the error, in both cases (R156). -/
def Obligations.EncoderRule : Prop :=
  ∀ (t : CodeTable) (d : ByteString), (t.map Prod.fst).Nodup →
    (∀ pre b post, d = pre ++ b :: post → (∀ x ∈ pre, x ∈ t.map Prod.fst) → b ∉ t.map Prod.fst →
      encodeBytes t d = .error b) ∧
    ((∀ x ∈ d, x ∈ t.map Prod.fst) → encodeBytes t d =
      .ok (if t.length = 1 then List.replicate d.length false else d.flatMap fun b => (t.lookup b).getD []))

/-- Dec is greedy: the shortest code that starts the input is taken and its symbol emitted; an input that no code starts is
left over whole, with TAIL unless it is empty; a one-entry table repeats its symbol once a bit (R166). -/
def Obligations.DecoderIsGreedy : Prop :=
  ∀ t : CodeTable, (t.map Prod.snd).Nodup → (∀ e ∈ t, e.2 ≠ []) →
    (t.length ≠ 1 → ∀ e ∈ t, ∀ rest : BitString, (∀ e' ∈ t, e'.2 <+: e.2 → e' = e) →
      decodeBits t (e.2 ++ rest) = (e.1 :: (decodeBits t rest).1, (decodeBits t rest).2)) ∧
    (t.length ≠ 1 → ∀ bits : BitString, (∀ e ∈ t, ¬ e.2 <+: bits) → decodeBits t bits = ([], !bits.isEmpty)) ∧
    (∀ sym c, t = [(sym, c)] → ∀ bits : BitString, decodeBits t bits = (List.replicate bits.length sym, false))

/-! ### The bit-packing unit -/

/-- Pack: the bytes of the bit string, then p in 1..B bytes of the value p, to a multiple of B (R180). -/
def Obligations.PackedShape : Prop :=
  ∀ (b : BitString) (blockBytes : Nat), 1 ≤ blockBytes → blockBytes ≤ 255 →
    ∃ p, 1 ≤ p ∧ p ≤ blockBytes ∧ packBits b blockBytes = bytesOf b ++ List.replicate p (BitVec.ofNat 8 p) ∧
      (packBits b blockBytes).length % blockBytes = 0

/-- Unpack: c trailing bytes of the value c, 1 ≤ c, are stripped; a byte string that ends in no such run falls back to
its raw bytes with the diagnostic, the empty one too (R185). -/
def Obligations.UnpackRule : Prop :=
  (∀ (d : ByteString) (c : Byte), 1 ≤ c.toNat → unpackBytes (d ++ List.replicate c.toNat c) = (bitsOf d, false)) ∧
  ∀ d : ByteString, (∀ (pre : ByteString) (c : Byte), 1 ≤ c.toNat → d ≠ pre ++ List.replicate c.toNat c) →
    unpackBytes d = (bitsOf d, true)

/-- Unpacking a packed bit string gives it back with its byte-alignment zeros and no diagnostic, for every block size (R190). -/
def Obligations.UnpackReversesPack : Prop :=
  ∀ (b : BitString) (blockBytes : Nat), 1 ≤ blockBytes → blockBytes ≤ 255 →
    unpackBytes (packBits b blockBytes) = (b ++ zeros ((8 - b.length % 8) % 8), false)

/-! ### The FEC unit -/

/-- The closed form of the code matrix: bit j of row i is 1 exactly when popcount(i AND j) is even (R201). -/
def Obligations.CodeMatrixClosedForm : Prop :=
  ∀ n i j : Nat, i < 2 ^ n → j < 2 ^ n →
    (row n i)[j]? = some (decide ((List.range n).countP (fun k => (i &&& j).testBit k) % 2 = 0))

/-- Any two distinct rows agree, and differ, in exactly 2^(N−1) positions (R202). -/
def Obligations.RowsAreEquidistant : Prop :=
  ∀ n i j : Nat, 1 ≤ n → i < 2 ^ n → j < 2 ^ n → i ≠ j →
    (row n i).length = 2 ^ n ∧ agreement (row n i) (row n j) = 2 ^ (n - 1) ∧
    (List.zipWith (fun a b => a != b) (row n i) (row n j)).count true = 2 ^ (n - 1)

/-- DecBlock chooses the least row of greatest agreement, and dist is the number of positions in which the chosen
codeword differs from the received block (R207). -/
def Obligations.BlockDecisionRule : Prop :=
  ∀ (n : Nat) (r : BitString), r.length = 2 ^ n →
    let d := decBlock n r
    d.index < 2 ^ n ∧ d.payload = bin n d.index ∧ val d.payload = d.index ∧ d.agree = agreement (row n d.index) r ∧
    (∀ i, i < 2 ^ n → agreement (row n i) r ≤ d.agree ∧ (i < d.index → agreement (row n i) r < d.agree)) ∧
    d.dist = (List.zipWith (fun a b => a != b) (encBlock n d.payload) r).count true ∧ d.agree + d.dist = 2 ^ n

/-- A received block at distance at most ⌊(2^(N−1)−1)/2⌋ from a row agrees strictly most with that row, and decodes to it
(R203). -/
def Obligations.ErrorsWithinRadiusAreCorrected : Prop :=
  ∀ (n i : Nat) (r : BitString), 1 ≤ n → n ≤ 8 → i < 2 ^ n → r.length = 2 ^ n →
    (List.zipWith (fun a b => a != b) (row n i) r).count true ≤ (2 ^ (n - 1) - 1) / 2 →
      (decBlock n r).index = i ∧ ∀ k, k < 2 ^ n → k ≠ i → agreement (row n k) r < agreement (row n i) r

/-- Every bit string b is what its encoded stream decodes to, with no correction, truncation or shortfall; and so at the
machine: FEC_ENCODE of b stores a stream, and FEC_DECODE of exactly that stream with the same N and FEC_ORIG_LEN = |b|
stores b, with ERR_CORR = 0, TRUNC = 0 and SHORT = 0 (R221). -/
def Obligations.FecRoundTrip : Prop :=
  (∀ (n : Nat) (b : BitString), 1 ≤ n → n ≤ 8 →
    fecDecodeBits n (fecEncodeBits n b) b.length = { bits := b, errors := 0, trunc := false, short := false }) ∧
  ∀ s : State, 1 ≤ s.n.toNat → s.n.toNat ≤ 8 → Fits s.srcAddr ((s.srcLen.toNat + 7) / 8) →
    let b := s.readBits s.srcAddr.toNat s.srcLen.toNat
    let c := fecEncodeBits s.n.toNat b
    Fits s.dstAddr ((c.length + 7) / 8) → Apart s.srcAddr ((s.srcLen.toNat + 7) / 8) s.dstAddr ((c.length + 7) / 8) →
    (∃ t, exec .fecEncode s = .next t ∧ t.err = .none ∧ t.dstLen.toNat = c.length ∧ t.fecOrigLen = s.srcLen ∧
      t.readBits s.dstAddr.toNat c.length = c) ∧
    ∀ u : State, u.n = s.n → u.fecOrigLen = s.srcLen → u.srcLen.toNat = c.length → Fits u.srcAddr ((c.length + 7) / 8) →
      u.readBits u.srcAddr.toNat c.length = c → Fits u.dstAddr ((b.length + 7) / 8) →
      Apart u.srcAddr ((c.length + 7) / 8) u.dstAddr ((b.length + 7) / 8) →
      ∃ v, exec .fecDecode u = .next v ∧ v.err = .none ∧ v.diag = {} ∧ v.errCorr = 0 ∧ v.dstLen = s.srcLen ∧
        v.readBits u.dstAddr.toNat b.length = b

/-! ### Register reads -/

/-- A 4-byte read of a register returns its current value with the reserved bits 0, and changes nothing else, a command
running or not (R63). -/
def Obligations.RegisterReadsReturnTheirValue : Prop :=
  ∀ (s : State) (r : RegName), s.access (.read r.offset .b4) = { s with rdata := registerValue s r }
end

