-- ==== Sys2Proof/Laws/State.lean ====
section
/-! SUPPORT. One lemma per field per named update of State, so that no proof unfolds a record update. -/

namespace Sys2Proof.Machine

/-! ### writeBytes -/

@[simp] theorem writeBytes_irqEn (s : State) (a : Nat) (bs : ByteString) : (s.writeBytes a bs).irqEn = s.irqEn := rfl
@[simp] theorem writeBytes_done (s : State) (a : Nat) (bs : ByteString) : (s.writeBytes a bs).done = s.done := rfl
@[simp] theorem writeBytes_haz (s : State) (a : Nat) (bs : ByteString) : (s.writeBytes a bs).haz = s.haz := rfl
@[simp] theorem writeBytes_err (s : State) (a : Nat) (bs : ByteString) : (s.writeBytes a bs).err = s.err := rfl
@[simp] theorem writeBytes_diag (s : State) (a : Nat) (bs : ByteString) : (s.writeBytes a bs).diag = s.diag := rfl
@[simp] theorem writeBytes_srcAddr (s : State) (a : Nat) (bs : ByteString) : (s.writeBytes a bs).srcAddr = s.srcAddr := rfl
@[simp] theorem writeBytes_srcLen (s : State) (a : Nat) (bs : ByteString) : (s.writeBytes a bs).srcLen = s.srcLen := rfl
@[simp] theorem writeBytes_dstAddr (s : State) (a : Nat) (bs : ByteString) : (s.writeBytes a bs).dstAddr = s.dstAddr := rfl
@[simp] theorem writeBytes_dstLen (s : State) (a : Nat) (bs : ByteString) : (s.writeBytes a bs).dstLen = s.dstLen := rfl
@[simp] theorem writeBytes_n (s : State) (a : Nat) (bs : ByteString) : (s.writeBytes a bs).n = s.n := rfl
@[simp] theorem writeBytes_blockBytes (s : State) (a : Nat) (bs : ByteString) : (s.writeBytes a bs).blockBytes = s.blockBytes := rfl
@[simp] theorem writeBytes_fecOrigLen (s : State) (a : Nat) (bs : ByteString) : (s.writeBytes a bs).fecOrigLen = s.fecOrigLen := rfl
@[simp] theorem writeBytes_fecPad (s : State) (a : Nat) (bs : ByteString) : (s.writeBytes a bs).fecPad = s.fecPad := rfl
@[simp] theorem writeBytes_errCorr (s : State) (a : Nat) (bs : ByteString) : (s.writeBytes a bs).errCorr = s.errCorr := rfl
@[simp] theorem writeBytes_blkIndex (s : State) (a : Nat) (bs : ByteString) : (s.writeBytes a bs).blkIndex = s.blkIndex := rfl
@[simp] theorem writeBytes_blkAgree (s : State) (a : Nat) (bs : ByteString) : (s.writeBytes a bs).blkAgree = s.blkAgree := rfl
@[simp] theorem writeBytes_errInfo (s : State) (a : Nat) (bs : ByteString) : (s.writeBytes a bs).errInfo = s.errInfo := rfl
@[simp] theorem writeBytes_table (s : State) (a : Nat) (bs : ByteString) : (s.writeBytes a bs).table = s.table := rfl
@[simp] theorem writeBytes_freq (s : State) (a : Nat) (bs : ByteString) : (s.writeBytes a bs).freq = s.freq := rfl
@[simp] theorem writeBytes_buf (s : State) (a : Nat) (bs : ByteString) : (s.writeBytes a bs).buf = s.buf.putAll a bs := rfl
@[simp] theorem writeBytes_pend (s : State) (a : Nat) (bs : ByteString) : (s.writeBytes a bs).pend = s.pend := rfl
@[simp] theorem writeBytes_bufEpoch (s : State) (a : Nat) (bs : ByteString) : (s.writeBytes a bs).bufEpoch = s.bufEpoch := rfl
@[simp] theorem writeBytes_rdata (s : State) (a : Nat) (bs : ByteString) : (s.writeBytes a bs).rdata = s.rdata := rfl
@[simp] theorem writeBytes_host (s : State) (a : Nat) (bs : ByteString) : (s.writeBytes a bs).host = s.host := rfl
@[simp] theorem writeBytes_turns (s : State) (a : Nat) (bs : ByteString) : (s.writeBytes a bs).turns = s.turns := rfl

/-! ### setDstLen -/

@[simp] theorem setDstLen_irqEn (s : State) (k : Nat) : (s.setDstLen k).irqEn = s.irqEn := rfl
@[simp] theorem setDstLen_done (s : State) (k : Nat) : (s.setDstLen k).done = s.done := rfl
@[simp] theorem setDstLen_haz (s : State) (k : Nat) : (s.setDstLen k).haz = s.haz := rfl
@[simp] theorem setDstLen_err (s : State) (k : Nat) : (s.setDstLen k).err = s.err := rfl
@[simp] theorem setDstLen_diag (s : State) (k : Nat) : (s.setDstLen k).diag = s.diag := rfl
@[simp] theorem setDstLen_srcAddr (s : State) (k : Nat) : (s.setDstLen k).srcAddr = s.srcAddr := rfl
@[simp] theorem setDstLen_srcLen (s : State) (k : Nat) : (s.setDstLen k).srcLen = s.srcLen := rfl
@[simp] theorem setDstLen_dstAddr (s : State) (k : Nat) : (s.setDstLen k).dstAddr = s.dstAddr := rfl
@[simp] theorem setDstLen_dstLen (s : State) (k : Nat) : (s.setDstLen k).dstLen = BitVec.ofNat 32 k := rfl
@[simp] theorem setDstLen_n (s : State) (k : Nat) : (s.setDstLen k).n = s.n := rfl
@[simp] theorem setDstLen_blockBytes (s : State) (k : Nat) : (s.setDstLen k).blockBytes = s.blockBytes := rfl
@[simp] theorem setDstLen_fecOrigLen (s : State) (k : Nat) : (s.setDstLen k).fecOrigLen = s.fecOrigLen := rfl
@[simp] theorem setDstLen_fecPad (s : State) (k : Nat) : (s.setDstLen k).fecPad = s.fecPad := rfl
@[simp] theorem setDstLen_errCorr (s : State) (k : Nat) : (s.setDstLen k).errCorr = s.errCorr := rfl
@[simp] theorem setDstLen_blkIndex (s : State) (k : Nat) : (s.setDstLen k).blkIndex = s.blkIndex := rfl
@[simp] theorem setDstLen_blkAgree (s : State) (k : Nat) : (s.setDstLen k).blkAgree = s.blkAgree := rfl
@[simp] theorem setDstLen_errInfo (s : State) (k : Nat) : (s.setDstLen k).errInfo = s.errInfo := rfl
@[simp] theorem setDstLen_table (s : State) (k : Nat) : (s.setDstLen k).table = s.table := rfl
@[simp] theorem setDstLen_freq (s : State) (k : Nat) : (s.setDstLen k).freq = s.freq := rfl
@[simp] theorem setDstLen_buf (s : State) (k : Nat) : (s.setDstLen k).buf = s.buf := rfl
@[simp] theorem setDstLen_pend (s : State) (k : Nat) : (s.setDstLen k).pend = s.pend := rfl
@[simp] theorem setDstLen_bufEpoch (s : State) (k : Nat) : (s.setDstLen k).bufEpoch = s.bufEpoch := rfl
@[simp] theorem setDstLen_rdata (s : State) (k : Nat) : (s.setDstLen k).rdata = s.rdata := rfl
@[simp] theorem setDstLen_host (s : State) (k : Nat) : (s.setDstLen k).host = s.host := rfl
@[simp] theorem setDstLen_turns (s : State) (k : Nat) : (s.setDstLen k).turns = s.turns := rfl

/-! ### setEncodingParams -/

@[simp] theorem setEncodingParams_irqEn (s : State) (k p : Nat) : (s.setEncodingParams k p).irqEn = s.irqEn := rfl
@[simp] theorem setEncodingParams_done (s : State) (k p : Nat) : (s.setEncodingParams k p).done = s.done := rfl
@[simp] theorem setEncodingParams_haz (s : State) (k p : Nat) : (s.setEncodingParams k p).haz = s.haz := rfl
@[simp] theorem setEncodingParams_err (s : State) (k p : Nat) : (s.setEncodingParams k p).err = s.err := rfl
@[simp] theorem setEncodingParams_diag (s : State) (k p : Nat) : (s.setEncodingParams k p).diag = s.diag := rfl
@[simp] theorem setEncodingParams_srcAddr (s : State) (k p : Nat) : (s.setEncodingParams k p).srcAddr = s.srcAddr := rfl
@[simp] theorem setEncodingParams_srcLen (s : State) (k p : Nat) : (s.setEncodingParams k p).srcLen = s.srcLen := rfl
@[simp] theorem setEncodingParams_dstAddr (s : State) (k p : Nat) : (s.setEncodingParams k p).dstAddr = s.dstAddr := rfl
@[simp] theorem setEncodingParams_dstLen (s : State) (k p : Nat) : (s.setEncodingParams k p).dstLen = s.dstLen := rfl
@[simp] theorem setEncodingParams_n (s : State) (k p : Nat) : (s.setEncodingParams k p).n = s.n := rfl
@[simp] theorem setEncodingParams_blockBytes (s : State) (k p : Nat) : (s.setEncodingParams k p).blockBytes = s.blockBytes := rfl
@[simp] theorem setEncodingParams_fecOrigLen (s : State) (k p : Nat) : (s.setEncodingParams k p).fecOrigLen = BitVec.ofNat 32 k := rfl
@[simp] theorem setEncodingParams_fecPad (s : State) (k p : Nat) : (s.setEncodingParams k p).fecPad = BitVec.ofNat 32 p := rfl
@[simp] theorem setEncodingParams_errCorr (s : State) (k p : Nat) : (s.setEncodingParams k p).errCorr = s.errCorr := rfl
@[simp] theorem setEncodingParams_blkIndex (s : State) (k p : Nat) : (s.setEncodingParams k p).blkIndex = s.blkIndex := rfl
@[simp] theorem setEncodingParams_blkAgree (s : State) (k p : Nat) : (s.setEncodingParams k p).blkAgree = s.blkAgree := rfl
@[simp] theorem setEncodingParams_errInfo (s : State) (k p : Nat) : (s.setEncodingParams k p).errInfo = s.errInfo := rfl
@[simp] theorem setEncodingParams_table (s : State) (k p : Nat) : (s.setEncodingParams k p).table = s.table := rfl
@[simp] theorem setEncodingParams_freq (s : State) (k p : Nat) : (s.setEncodingParams k p).freq = s.freq := rfl
@[simp] theorem setEncodingParams_buf (s : State) (k p : Nat) : (s.setEncodingParams k p).buf = s.buf := rfl
@[simp] theorem setEncodingParams_pend (s : State) (k p : Nat) : (s.setEncodingParams k p).pend = s.pend := rfl
@[simp] theorem setEncodingParams_bufEpoch (s : State) (k p : Nat) : (s.setEncodingParams k p).bufEpoch = s.bufEpoch := rfl
@[simp] theorem setEncodingParams_rdata (s : State) (k p : Nat) : (s.setEncodingParams k p).rdata = s.rdata := rfl
@[simp] theorem setEncodingParams_host (s : State) (k p : Nat) : (s.setEncodingParams k p).host = s.host := rfl
@[simp] theorem setEncodingParams_turns (s : State) (k p : Nat) : (s.setEncodingParams k p).turns = s.turns := rfl

/-! ### setErrCorr -/

@[simp] theorem setErrCorr_irqEn (s : State) (k : Nat) : (s.setErrCorr k).irqEn = s.irqEn := rfl
@[simp] theorem setErrCorr_done (s : State) (k : Nat) : (s.setErrCorr k).done = s.done := rfl
@[simp] theorem setErrCorr_haz (s : State) (k : Nat) : (s.setErrCorr k).haz = s.haz := rfl
@[simp] theorem setErrCorr_err (s : State) (k : Nat) : (s.setErrCorr k).err = s.err := rfl
@[simp] theorem setErrCorr_diag (s : State) (k : Nat) : (s.setErrCorr k).diag = s.diag := rfl
@[simp] theorem setErrCorr_srcAddr (s : State) (k : Nat) : (s.setErrCorr k).srcAddr = s.srcAddr := rfl
@[simp] theorem setErrCorr_srcLen (s : State) (k : Nat) : (s.setErrCorr k).srcLen = s.srcLen := rfl
@[simp] theorem setErrCorr_dstAddr (s : State) (k : Nat) : (s.setErrCorr k).dstAddr = s.dstAddr := rfl
@[simp] theorem setErrCorr_dstLen (s : State) (k : Nat) : (s.setErrCorr k).dstLen = s.dstLen := rfl
@[simp] theorem setErrCorr_n (s : State) (k : Nat) : (s.setErrCorr k).n = s.n := rfl
@[simp] theorem setErrCorr_blockBytes (s : State) (k : Nat) : (s.setErrCorr k).blockBytes = s.blockBytes := rfl
@[simp] theorem setErrCorr_fecOrigLen (s : State) (k : Nat) : (s.setErrCorr k).fecOrigLen = s.fecOrigLen := rfl
@[simp] theorem setErrCorr_fecPad (s : State) (k : Nat) : (s.setErrCorr k).fecPad = s.fecPad := rfl
@[simp] theorem setErrCorr_errCorr (s : State) (k : Nat) : (s.setErrCorr k).errCorr = BitVec.ofNat 32 k := rfl
@[simp] theorem setErrCorr_blkIndex (s : State) (k : Nat) : (s.setErrCorr k).blkIndex = s.blkIndex := rfl
@[simp] theorem setErrCorr_blkAgree (s : State) (k : Nat) : (s.setErrCorr k).blkAgree = s.blkAgree := rfl
@[simp] theorem setErrCorr_errInfo (s : State) (k : Nat) : (s.setErrCorr k).errInfo = s.errInfo := rfl
@[simp] theorem setErrCorr_table (s : State) (k : Nat) : (s.setErrCorr k).table = s.table := rfl
@[simp] theorem setErrCorr_freq (s : State) (k : Nat) : (s.setErrCorr k).freq = s.freq := rfl
@[simp] theorem setErrCorr_buf (s : State) (k : Nat) : (s.setErrCorr k).buf = s.buf := rfl
@[simp] theorem setErrCorr_pend (s : State) (k : Nat) : (s.setErrCorr k).pend = s.pend := rfl
@[simp] theorem setErrCorr_bufEpoch (s : State) (k : Nat) : (s.setErrCorr k).bufEpoch = s.bufEpoch := rfl
@[simp] theorem setErrCorr_rdata (s : State) (k : Nat) : (s.setErrCorr k).rdata = s.rdata := rfl
@[simp] theorem setErrCorr_host (s : State) (k : Nat) : (s.setErrCorr k).host = s.host := rfl
@[simp] theorem setErrCorr_turns (s : State) (k : Nat) : (s.setErrCorr k).turns = s.turns := rfl

/-! ### setBlkIndex -/

@[simp] theorem setBlkIndex_irqEn (s : State) (k : Nat) : (s.setBlkIndex k).irqEn = s.irqEn := rfl
@[simp] theorem setBlkIndex_done (s : State) (k : Nat) : (s.setBlkIndex k).done = s.done := rfl
@[simp] theorem setBlkIndex_haz (s : State) (k : Nat) : (s.setBlkIndex k).haz = s.haz := rfl
@[simp] theorem setBlkIndex_err (s : State) (k : Nat) : (s.setBlkIndex k).err = s.err := rfl
@[simp] theorem setBlkIndex_diag (s : State) (k : Nat) : (s.setBlkIndex k).diag = s.diag := rfl
@[simp] theorem setBlkIndex_srcAddr (s : State) (k : Nat) : (s.setBlkIndex k).srcAddr = s.srcAddr := rfl
@[simp] theorem setBlkIndex_srcLen (s : State) (k : Nat) : (s.setBlkIndex k).srcLen = s.srcLen := rfl
@[simp] theorem setBlkIndex_dstAddr (s : State) (k : Nat) : (s.setBlkIndex k).dstAddr = s.dstAddr := rfl
@[simp] theorem setBlkIndex_dstLen (s : State) (k : Nat) : (s.setBlkIndex k).dstLen = s.dstLen := rfl
@[simp] theorem setBlkIndex_n (s : State) (k : Nat) : (s.setBlkIndex k).n = s.n := rfl
@[simp] theorem setBlkIndex_blockBytes (s : State) (k : Nat) : (s.setBlkIndex k).blockBytes = s.blockBytes := rfl
@[simp] theorem setBlkIndex_fecOrigLen (s : State) (k : Nat) : (s.setBlkIndex k).fecOrigLen = s.fecOrigLen := rfl
@[simp] theorem setBlkIndex_fecPad (s : State) (k : Nat) : (s.setBlkIndex k).fecPad = s.fecPad := rfl
@[simp] theorem setBlkIndex_errCorr (s : State) (k : Nat) : (s.setBlkIndex k).errCorr = s.errCorr := rfl
@[simp] theorem setBlkIndex_blkIndex (s : State) (k : Nat) : (s.setBlkIndex k).blkIndex = BitVec.ofNat 8 k := rfl
@[simp] theorem setBlkIndex_blkAgree (s : State) (k : Nat) : (s.setBlkIndex k).blkAgree = s.blkAgree := rfl
@[simp] theorem setBlkIndex_errInfo (s : State) (k : Nat) : (s.setBlkIndex k).errInfo = s.errInfo := rfl
@[simp] theorem setBlkIndex_table (s : State) (k : Nat) : (s.setBlkIndex k).table = s.table := rfl
@[simp] theorem setBlkIndex_freq (s : State) (k : Nat) : (s.setBlkIndex k).freq = s.freq := rfl
@[simp] theorem setBlkIndex_buf (s : State) (k : Nat) : (s.setBlkIndex k).buf = s.buf := rfl
@[simp] theorem setBlkIndex_pend (s : State) (k : Nat) : (s.setBlkIndex k).pend = s.pend := rfl
@[simp] theorem setBlkIndex_bufEpoch (s : State) (k : Nat) : (s.setBlkIndex k).bufEpoch = s.bufEpoch := rfl
@[simp] theorem setBlkIndex_rdata (s : State) (k : Nat) : (s.setBlkIndex k).rdata = s.rdata := rfl
@[simp] theorem setBlkIndex_host (s : State) (k : Nat) : (s.setBlkIndex k).host = s.host := rfl
@[simp] theorem setBlkIndex_turns (s : State) (k : Nat) : (s.setBlkIndex k).turns = s.turns := rfl

/-! ### setBlkAgree -/

@[simp] theorem setBlkAgree_irqEn (s : State) (k : Nat) : (s.setBlkAgree k).irqEn = s.irqEn := rfl
@[simp] theorem setBlkAgree_done (s : State) (k : Nat) : (s.setBlkAgree k).done = s.done := rfl
@[simp] theorem setBlkAgree_haz (s : State) (k : Nat) : (s.setBlkAgree k).haz = s.haz := rfl
@[simp] theorem setBlkAgree_err (s : State) (k : Nat) : (s.setBlkAgree k).err = s.err := rfl
@[simp] theorem setBlkAgree_diag (s : State) (k : Nat) : (s.setBlkAgree k).diag = s.diag := rfl
@[simp] theorem setBlkAgree_srcAddr (s : State) (k : Nat) : (s.setBlkAgree k).srcAddr = s.srcAddr := rfl
@[simp] theorem setBlkAgree_srcLen (s : State) (k : Nat) : (s.setBlkAgree k).srcLen = s.srcLen := rfl
@[simp] theorem setBlkAgree_dstAddr (s : State) (k : Nat) : (s.setBlkAgree k).dstAddr = s.dstAddr := rfl
@[simp] theorem setBlkAgree_dstLen (s : State) (k : Nat) : (s.setBlkAgree k).dstLen = s.dstLen := rfl
@[simp] theorem setBlkAgree_n (s : State) (k : Nat) : (s.setBlkAgree k).n = s.n := rfl
@[simp] theorem setBlkAgree_blockBytes (s : State) (k : Nat) : (s.setBlkAgree k).blockBytes = s.blockBytes := rfl
@[simp] theorem setBlkAgree_fecOrigLen (s : State) (k : Nat) : (s.setBlkAgree k).fecOrigLen = s.fecOrigLen := rfl
@[simp] theorem setBlkAgree_fecPad (s : State) (k : Nat) : (s.setBlkAgree k).fecPad = s.fecPad := rfl
@[simp] theorem setBlkAgree_errCorr (s : State) (k : Nat) : (s.setBlkAgree k).errCorr = s.errCorr := rfl
@[simp] theorem setBlkAgree_blkIndex (s : State) (k : Nat) : (s.setBlkAgree k).blkIndex = s.blkIndex := rfl
@[simp] theorem setBlkAgree_blkAgree (s : State) (k : Nat) : (s.setBlkAgree k).blkAgree = BitVec.ofNat 9 k := rfl
@[simp] theorem setBlkAgree_errInfo (s : State) (k : Nat) : (s.setBlkAgree k).errInfo = s.errInfo := rfl
@[simp] theorem setBlkAgree_table (s : State) (k : Nat) : (s.setBlkAgree k).table = s.table := rfl
@[simp] theorem setBlkAgree_freq (s : State) (k : Nat) : (s.setBlkAgree k).freq = s.freq := rfl
@[simp] theorem setBlkAgree_buf (s : State) (k : Nat) : (s.setBlkAgree k).buf = s.buf := rfl
@[simp] theorem setBlkAgree_pend (s : State) (k : Nat) : (s.setBlkAgree k).pend = s.pend := rfl
@[simp] theorem setBlkAgree_bufEpoch (s : State) (k : Nat) : (s.setBlkAgree k).bufEpoch = s.bufEpoch := rfl
@[simp] theorem setBlkAgree_rdata (s : State) (k : Nat) : (s.setBlkAgree k).rdata = s.rdata := rfl
@[simp] theorem setBlkAgree_host (s : State) (k : Nat) : (s.setBlkAgree k).host = s.host := rfl
@[simp] theorem setBlkAgree_turns (s : State) (k : Nat) : (s.setBlkAgree k).turns = s.turns := rfl

/-! ### setTable -/

@[simp] theorem setTable_irqEn (s : State) (t : TableRam) : (s.setTable t).irqEn = s.irqEn := rfl
@[simp] theorem setTable_done (s : State) (t : TableRam) : (s.setTable t).done = s.done := rfl
@[simp] theorem setTable_haz (s : State) (t : TableRam) : (s.setTable t).haz = s.haz := rfl
@[simp] theorem setTable_err (s : State) (t : TableRam) : (s.setTable t).err = s.err := rfl
@[simp] theorem setTable_diag (s : State) (t : TableRam) : (s.setTable t).diag = s.diag := rfl
@[simp] theorem setTable_srcAddr (s : State) (t : TableRam) : (s.setTable t).srcAddr = s.srcAddr := rfl
@[simp] theorem setTable_srcLen (s : State) (t : TableRam) : (s.setTable t).srcLen = s.srcLen := rfl
@[simp] theorem setTable_dstAddr (s : State) (t : TableRam) : (s.setTable t).dstAddr = s.dstAddr := rfl
@[simp] theorem setTable_dstLen (s : State) (t : TableRam) : (s.setTable t).dstLen = s.dstLen := rfl
@[simp] theorem setTable_n (s : State) (t : TableRam) : (s.setTable t).n = s.n := rfl
@[simp] theorem setTable_blockBytes (s : State) (t : TableRam) : (s.setTable t).blockBytes = s.blockBytes := rfl
@[simp] theorem setTable_fecOrigLen (s : State) (t : TableRam) : (s.setTable t).fecOrigLen = s.fecOrigLen := rfl
@[simp] theorem setTable_fecPad (s : State) (t : TableRam) : (s.setTable t).fecPad = s.fecPad := rfl
@[simp] theorem setTable_errCorr (s : State) (t : TableRam) : (s.setTable t).errCorr = s.errCorr := rfl
@[simp] theorem setTable_blkIndex (s : State) (t : TableRam) : (s.setTable t).blkIndex = s.blkIndex := rfl
@[simp] theorem setTable_blkAgree (s : State) (t : TableRam) : (s.setTable t).blkAgree = s.blkAgree := rfl
@[simp] theorem setTable_errInfo (s : State) (t : TableRam) : (s.setTable t).errInfo = s.errInfo := rfl
@[simp] theorem setTable_table (s : State) (t : TableRam) : (s.setTable t).table = t := rfl
@[simp] theorem setTable_freq (s : State) (t : TableRam) : (s.setTable t).freq = s.freq := rfl
@[simp] theorem setTable_buf (s : State) (t : TableRam) : (s.setTable t).buf = s.buf := rfl
@[simp] theorem setTable_pend (s : State) (t : TableRam) : (s.setTable t).pend = s.pend := rfl
@[simp] theorem setTable_bufEpoch (s : State) (t : TableRam) : (s.setTable t).bufEpoch = s.bufEpoch := rfl
@[simp] theorem setTable_rdata (s : State) (t : TableRam) : (s.setTable t).rdata = s.rdata := rfl
@[simp] theorem setTable_host (s : State) (t : TableRam) : (s.setTable t).host = s.host := rfl
@[simp] theorem setTable_turns (s : State) (t : TableRam) : (s.setTable t).turns = s.turns := rfl

/-! ### setFreq -/

@[simp] theorem setFreq_irqEn (s : State) (f : Vector Word 256) : (s.setFreq f).irqEn = s.irqEn := rfl
@[simp] theorem setFreq_done (s : State) (f : Vector Word 256) : (s.setFreq f).done = s.done := rfl
@[simp] theorem setFreq_haz (s : State) (f : Vector Word 256) : (s.setFreq f).haz = s.haz := rfl
@[simp] theorem setFreq_err (s : State) (f : Vector Word 256) : (s.setFreq f).err = s.err := rfl
@[simp] theorem setFreq_diag (s : State) (f : Vector Word 256) : (s.setFreq f).diag = s.diag := rfl
@[simp] theorem setFreq_srcAddr (s : State) (f : Vector Word 256) : (s.setFreq f).srcAddr = s.srcAddr := rfl
@[simp] theorem setFreq_srcLen (s : State) (f : Vector Word 256) : (s.setFreq f).srcLen = s.srcLen := rfl
@[simp] theorem setFreq_dstAddr (s : State) (f : Vector Word 256) : (s.setFreq f).dstAddr = s.dstAddr := rfl
@[simp] theorem setFreq_dstLen (s : State) (f : Vector Word 256) : (s.setFreq f).dstLen = s.dstLen := rfl
@[simp] theorem setFreq_n (s : State) (f : Vector Word 256) : (s.setFreq f).n = s.n := rfl
@[simp] theorem setFreq_blockBytes (s : State) (f : Vector Word 256) : (s.setFreq f).blockBytes = s.blockBytes := rfl
@[simp] theorem setFreq_fecOrigLen (s : State) (f : Vector Word 256) : (s.setFreq f).fecOrigLen = s.fecOrigLen := rfl
@[simp] theorem setFreq_fecPad (s : State) (f : Vector Word 256) : (s.setFreq f).fecPad = s.fecPad := rfl
@[simp] theorem setFreq_errCorr (s : State) (f : Vector Word 256) : (s.setFreq f).errCorr = s.errCorr := rfl
@[simp] theorem setFreq_blkIndex (s : State) (f : Vector Word 256) : (s.setFreq f).blkIndex = s.blkIndex := rfl
@[simp] theorem setFreq_blkAgree (s : State) (f : Vector Word 256) : (s.setFreq f).blkAgree = s.blkAgree := rfl
@[simp] theorem setFreq_errInfo (s : State) (f : Vector Word 256) : (s.setFreq f).errInfo = s.errInfo := rfl
@[simp] theorem setFreq_table (s : State) (f : Vector Word 256) : (s.setFreq f).table = s.table := rfl
@[simp] theorem setFreq_freq (s : State) (f : Vector Word 256) : (s.setFreq f).freq = f := rfl
@[simp] theorem setFreq_buf (s : State) (f : Vector Word 256) : (s.setFreq f).buf = s.buf := rfl
@[simp] theorem setFreq_pend (s : State) (f : Vector Word 256) : (s.setFreq f).pend = s.pend := rfl
@[simp] theorem setFreq_bufEpoch (s : State) (f : Vector Word 256) : (s.setFreq f).bufEpoch = s.bufEpoch := rfl
@[simp] theorem setFreq_rdata (s : State) (f : Vector Word 256) : (s.setFreq f).rdata = s.rdata := rfl
@[simp] theorem setFreq_host (s : State) (f : Vector Word 256) : (s.setFreq f).host = s.host := rfl
@[simp] theorem setFreq_turns (s : State) (f : Vector Word 256) : (s.setFreq f).turns = s.turns := rfl

/-! ### markHazard -/

@[simp] theorem markHazard_irqEn (s : State) : s.markHazard.irqEn = s.irqEn := rfl
@[simp] theorem markHazard_done (s : State) : s.markHazard.done = s.done := rfl
@[simp] theorem markHazard_haz (s : State) : s.markHazard.haz = true := rfl
@[simp] theorem markHazard_err (s : State) : s.markHazard.err = s.err := rfl
@[simp] theorem markHazard_diag (s : State) : s.markHazard.diag = s.diag := rfl
@[simp] theorem markHazard_srcAddr (s : State) : s.markHazard.srcAddr = s.srcAddr := rfl
@[simp] theorem markHazard_srcLen (s : State) : s.markHazard.srcLen = s.srcLen := rfl
@[simp] theorem markHazard_dstAddr (s : State) : s.markHazard.dstAddr = s.dstAddr := rfl
@[simp] theorem markHazard_dstLen (s : State) : s.markHazard.dstLen = s.dstLen := rfl
@[simp] theorem markHazard_n (s : State) : s.markHazard.n = s.n := rfl
@[simp] theorem markHazard_blockBytes (s : State) : s.markHazard.blockBytes = s.blockBytes := rfl
@[simp] theorem markHazard_fecOrigLen (s : State) : s.markHazard.fecOrigLen = s.fecOrigLen := rfl
@[simp] theorem markHazard_fecPad (s : State) : s.markHazard.fecPad = s.fecPad := rfl
@[simp] theorem markHazard_errCorr (s : State) : s.markHazard.errCorr = s.errCorr := rfl
@[simp] theorem markHazard_blkIndex (s : State) : s.markHazard.blkIndex = s.blkIndex := rfl
@[simp] theorem markHazard_blkAgree (s : State) : s.markHazard.blkAgree = s.blkAgree := rfl
@[simp] theorem markHazard_errInfo (s : State) : s.markHazard.errInfo = s.errInfo := rfl
@[simp] theorem markHazard_table (s : State) : s.markHazard.table = s.table := rfl
@[simp] theorem markHazard_freq (s : State) : s.markHazard.freq = s.freq := rfl
@[simp] theorem markHazard_buf (s : State) : s.markHazard.buf = s.buf := rfl
@[simp] theorem markHazard_pend (s : State) : s.markHazard.pend = s.pend := rfl
@[simp] theorem markHazard_bufEpoch (s : State) : s.markHazard.bufEpoch = s.bufEpoch := rfl
@[simp] theorem markHazard_rdata (s : State) : s.markHazard.rdata = s.rdata := rfl
@[simp] theorem markHazard_host (s : State) : s.markHazard.host = s.host := rfl
@[simp] theorem markHazard_turns (s : State) : s.markHazard.turns = s.turns := rfl

/-! ### setRdata -/

@[simp] theorem setRdata_irqEn (s : State) (v : Word) : (s.setRdata v).irqEn = s.irqEn := rfl
@[simp] theorem setRdata_done (s : State) (v : Word) : (s.setRdata v).done = s.done := rfl
@[simp] theorem setRdata_haz (s : State) (v : Word) : (s.setRdata v).haz = s.haz := rfl
@[simp] theorem setRdata_err (s : State) (v : Word) : (s.setRdata v).err = s.err := rfl
@[simp] theorem setRdata_diag (s : State) (v : Word) : (s.setRdata v).diag = s.diag := rfl
@[simp] theorem setRdata_srcAddr (s : State) (v : Word) : (s.setRdata v).srcAddr = s.srcAddr := rfl
@[simp] theorem setRdata_srcLen (s : State) (v : Word) : (s.setRdata v).srcLen = s.srcLen := rfl
@[simp] theorem setRdata_dstAddr (s : State) (v : Word) : (s.setRdata v).dstAddr = s.dstAddr := rfl
@[simp] theorem setRdata_dstLen (s : State) (v : Word) : (s.setRdata v).dstLen = s.dstLen := rfl
@[simp] theorem setRdata_n (s : State) (v : Word) : (s.setRdata v).n = s.n := rfl
@[simp] theorem setRdata_blockBytes (s : State) (v : Word) : (s.setRdata v).blockBytes = s.blockBytes := rfl
@[simp] theorem setRdata_fecOrigLen (s : State) (v : Word) : (s.setRdata v).fecOrigLen = s.fecOrigLen := rfl
@[simp] theorem setRdata_fecPad (s : State) (v : Word) : (s.setRdata v).fecPad = s.fecPad := rfl
@[simp] theorem setRdata_errCorr (s : State) (v : Word) : (s.setRdata v).errCorr = s.errCorr := rfl
@[simp] theorem setRdata_blkIndex (s : State) (v : Word) : (s.setRdata v).blkIndex = s.blkIndex := rfl
@[simp] theorem setRdata_blkAgree (s : State) (v : Word) : (s.setRdata v).blkAgree = s.blkAgree := rfl
@[simp] theorem setRdata_errInfo (s : State) (v : Word) : (s.setRdata v).errInfo = s.errInfo := rfl
@[simp] theorem setRdata_table (s : State) (v : Word) : (s.setRdata v).table = s.table := rfl
@[simp] theorem setRdata_freq (s : State) (v : Word) : (s.setRdata v).freq = s.freq := rfl
@[simp] theorem setRdata_buf (s : State) (v : Word) : (s.setRdata v).buf = s.buf := rfl
@[simp] theorem setRdata_pend (s : State) (v : Word) : (s.setRdata v).pend = s.pend := rfl
@[simp] theorem setRdata_bufEpoch (s : State) (v : Word) : (s.setRdata v).bufEpoch = s.bufEpoch := rfl
@[simp] theorem setRdata_rdata (s : State) (v : Word) : (s.setRdata v).rdata = v := rfl
@[simp] theorem setRdata_host (s : State) (v : Word) : (s.setRdata v).host = s.host := rfl
@[simp] theorem setRdata_turns (s : State) (v : Word) : (s.setRdata v).turns = s.turns := rfl

/-! ### setHost -/

@[simp] theorem setHost_irqEn (s : State) (ops : List HostOp) : (s.setHost ops).irqEn = s.irqEn := rfl
@[simp] theorem setHost_done (s : State) (ops : List HostOp) : (s.setHost ops).done = s.done := rfl
@[simp] theorem setHost_haz (s : State) (ops : List HostOp) : (s.setHost ops).haz = s.haz := rfl
@[simp] theorem setHost_err (s : State) (ops : List HostOp) : (s.setHost ops).err = s.err := rfl
@[simp] theorem setHost_diag (s : State) (ops : List HostOp) : (s.setHost ops).diag = s.diag := rfl
@[simp] theorem setHost_srcAddr (s : State) (ops : List HostOp) : (s.setHost ops).srcAddr = s.srcAddr := rfl
@[simp] theorem setHost_srcLen (s : State) (ops : List HostOp) : (s.setHost ops).srcLen = s.srcLen := rfl
@[simp] theorem setHost_dstAddr (s : State) (ops : List HostOp) : (s.setHost ops).dstAddr = s.dstAddr := rfl
@[simp] theorem setHost_dstLen (s : State) (ops : List HostOp) : (s.setHost ops).dstLen = s.dstLen := rfl
@[simp] theorem setHost_n (s : State) (ops : List HostOp) : (s.setHost ops).n = s.n := rfl
@[simp] theorem setHost_blockBytes (s : State) (ops : List HostOp) : (s.setHost ops).blockBytes = s.blockBytes := rfl
@[simp] theorem setHost_fecOrigLen (s : State) (ops : List HostOp) : (s.setHost ops).fecOrigLen = s.fecOrigLen := rfl
@[simp] theorem setHost_fecPad (s : State) (ops : List HostOp) : (s.setHost ops).fecPad = s.fecPad := rfl
@[simp] theorem setHost_errCorr (s : State) (ops : List HostOp) : (s.setHost ops).errCorr = s.errCorr := rfl
@[simp] theorem setHost_blkIndex (s : State) (ops : List HostOp) : (s.setHost ops).blkIndex = s.blkIndex := rfl
@[simp] theorem setHost_blkAgree (s : State) (ops : List HostOp) : (s.setHost ops).blkAgree = s.blkAgree := rfl
@[simp] theorem setHost_errInfo (s : State) (ops : List HostOp) : (s.setHost ops).errInfo = s.errInfo := rfl
@[simp] theorem setHost_table (s : State) (ops : List HostOp) : (s.setHost ops).table = s.table := rfl
@[simp] theorem setHost_freq (s : State) (ops : List HostOp) : (s.setHost ops).freq = s.freq := rfl
@[simp] theorem setHost_buf (s : State) (ops : List HostOp) : (s.setHost ops).buf = s.buf := rfl
@[simp] theorem setHost_pend (s : State) (ops : List HostOp) : (s.setHost ops).pend = s.pend := rfl
@[simp] theorem setHost_bufEpoch (s : State) (ops : List HostOp) : (s.setHost ops).bufEpoch = s.bufEpoch := rfl
@[simp] theorem setHost_rdata (s : State) (ops : List HostOp) : (s.setHost ops).rdata = s.rdata := rfl
@[simp] theorem setHost_host (s : State) (ops : List HostOp) : (s.setHost ops).host = ops := rfl
@[simp] theorem setHost_turns (s : State) (ops : List HostOp) : (s.setHost ops).turns = s.turns := rfl

/-! ### setTurns -/

@[simp] theorem setTurns_irqEn (s : State) (ts : List Turn) : (s.setTurns ts).irqEn = s.irqEn := rfl
@[simp] theorem setTurns_done (s : State) (ts : List Turn) : (s.setTurns ts).done = s.done := rfl
@[simp] theorem setTurns_haz (s : State) (ts : List Turn) : (s.setTurns ts).haz = s.haz := rfl
@[simp] theorem setTurns_err (s : State) (ts : List Turn) : (s.setTurns ts).err = s.err := rfl
@[simp] theorem setTurns_diag (s : State) (ts : List Turn) : (s.setTurns ts).diag = s.diag := rfl
@[simp] theorem setTurns_srcAddr (s : State) (ts : List Turn) : (s.setTurns ts).srcAddr = s.srcAddr := rfl
@[simp] theorem setTurns_srcLen (s : State) (ts : List Turn) : (s.setTurns ts).srcLen = s.srcLen := rfl
@[simp] theorem setTurns_dstAddr (s : State) (ts : List Turn) : (s.setTurns ts).dstAddr = s.dstAddr := rfl
@[simp] theorem setTurns_dstLen (s : State) (ts : List Turn) : (s.setTurns ts).dstLen = s.dstLen := rfl
@[simp] theorem setTurns_n (s : State) (ts : List Turn) : (s.setTurns ts).n = s.n := rfl
@[simp] theorem setTurns_blockBytes (s : State) (ts : List Turn) : (s.setTurns ts).blockBytes = s.blockBytes := rfl
@[simp] theorem setTurns_fecOrigLen (s : State) (ts : List Turn) : (s.setTurns ts).fecOrigLen = s.fecOrigLen := rfl
@[simp] theorem setTurns_fecPad (s : State) (ts : List Turn) : (s.setTurns ts).fecPad = s.fecPad := rfl
@[simp] theorem setTurns_errCorr (s : State) (ts : List Turn) : (s.setTurns ts).errCorr = s.errCorr := rfl
@[simp] theorem setTurns_blkIndex (s : State) (ts : List Turn) : (s.setTurns ts).blkIndex = s.blkIndex := rfl
@[simp] theorem setTurns_blkAgree (s : State) (ts : List Turn) : (s.setTurns ts).blkAgree = s.blkAgree := rfl
@[simp] theorem setTurns_errInfo (s : State) (ts : List Turn) : (s.setTurns ts).errInfo = s.errInfo := rfl
@[simp] theorem setTurns_table (s : State) (ts : List Turn) : (s.setTurns ts).table = s.table := rfl
@[simp] theorem setTurns_freq (s : State) (ts : List Turn) : (s.setTurns ts).freq = s.freq := rfl
@[simp] theorem setTurns_buf (s : State) (ts : List Turn) : (s.setTurns ts).buf = s.buf := rfl
@[simp] theorem setTurns_pend (s : State) (ts : List Turn) : (s.setTurns ts).pend = s.pend := rfl
@[simp] theorem setTurns_bufEpoch (s : State) (ts : List Turn) : (s.setTurns ts).bufEpoch = s.bufEpoch := rfl
@[simp] theorem setTurns_rdata (s : State) (ts : List Turn) : (s.setTurns ts).rdata = s.rdata := rfl
@[simp] theorem setTurns_host (s : State) (ts : List Turn) : (s.setTurns ts).host = s.host := rfl
@[simp] theorem setTurns_turns (s : State) (ts : List Turn) : (s.setTurns ts).turns = ts := rfl

/-! ### issue -/

@[simp] theorem issue_irqEn (s : State) (w : Word) : (s.issue w).irqEn = s.irqEn := rfl
@[simp] theorem issue_done (s : State) (w : Word) : (s.issue w).done = false := rfl
@[simp] theorem issue_haz (s : State) (w : Word) : (s.issue w).haz = s.haz := rfl
@[simp] theorem issue_err (s : State) (w : Word) : (s.issue w).err = .none := rfl
@[simp] theorem issue_diag (s : State) (w : Word) : (s.issue w).diag = {} := rfl
@[simp] theorem issue_srcAddr (s : State) (w : Word) : (s.issue w).srcAddr = s.srcAddr := rfl
@[simp] theorem issue_srcLen (s : State) (w : Word) : (s.issue w).srcLen = s.srcLen := rfl
@[simp] theorem issue_dstAddr (s : State) (w : Word) : (s.issue w).dstAddr = s.dstAddr := rfl
@[simp] theorem issue_dstLen (s : State) (w : Word) : (s.issue w).dstLen = s.dstLen := rfl
@[simp] theorem issue_n (s : State) (w : Word) : (s.issue w).n = s.n := rfl
@[simp] theorem issue_blockBytes (s : State) (w : Word) : (s.issue w).blockBytes = s.blockBytes := rfl
@[simp] theorem issue_fecOrigLen (s : State) (w : Word) : (s.issue w).fecOrigLen = s.fecOrigLen := rfl
@[simp] theorem issue_fecPad (s : State) (w : Word) : (s.issue w).fecPad = s.fecPad := rfl
@[simp] theorem issue_errCorr (s : State) (w : Word) : (s.issue w).errCorr = s.errCorr := rfl
@[simp] theorem issue_blkIndex (s : State) (w : Word) : (s.issue w).blkIndex = s.blkIndex := rfl
@[simp] theorem issue_blkAgree (s : State) (w : Word) : (s.issue w).blkAgree = s.blkAgree := rfl
@[simp] theorem issue_errInfo (s : State) (w : Word) : (s.issue w).errInfo = s.errInfo := rfl
@[simp] theorem issue_table (s : State) (w : Word) : (s.issue w).table = s.table := rfl
@[simp] theorem issue_freq (s : State) (w : Word) : (s.issue w).freq = s.freq := rfl
@[simp] theorem issue_buf (s : State) (w : Word) : (s.issue w).buf = s.buf := rfl
@[simp] theorem issue_pend (s : State) (w : Word) : (s.issue w).pend = .running w := rfl
@[simp] theorem issue_bufEpoch (s : State) (w : Word) : (s.issue w).bufEpoch = s.bufEpoch := rfl
@[simp] theorem issue_rdata (s : State) (w : Word) : (s.issue w).rdata = s.rdata := rfl
@[simp] theorem issue_host (s : State) (w : Word) : (s.issue w).host = s.host := rfl
@[simp] theorem issue_turns (s : State) (w : Word) : (s.issue w).turns = s.turns := rfl

/-! ### finish -/

@[simp] theorem finish_irqEn (s : State) (e : ErrCode) (info : Word) (fl : Diag) : (s.finish e info fl).irqEn = s.irqEn := rfl
@[simp] theorem finish_done (s : State) (e : ErrCode) (info : Word) (fl : Diag) : (s.finish e info fl).done = true := rfl
@[simp] theorem finish_haz (s : State) (e : ErrCode) (info : Word) (fl : Diag) : (s.finish e info fl).haz = s.haz := rfl
@[simp] theorem finish_err (s : State) (e : ErrCode) (info : Word) (fl : Diag) : (s.finish e info fl).err = e := rfl
@[simp] theorem finish_diag (s : State) (e : ErrCode) (info : Word) (fl : Diag) : (s.finish e info fl).diag = fl := rfl
@[simp] theorem finish_srcAddr (s : State) (e : ErrCode) (info : Word) (fl : Diag) : (s.finish e info fl).srcAddr = s.srcAddr := rfl
@[simp] theorem finish_srcLen (s : State) (e : ErrCode) (info : Word) (fl : Diag) : (s.finish e info fl).srcLen = s.srcLen := rfl
@[simp] theorem finish_dstAddr (s : State) (e : ErrCode) (info : Word) (fl : Diag) : (s.finish e info fl).dstAddr = s.dstAddr := rfl
@[simp] theorem finish_dstLen (s : State) (e : ErrCode) (info : Word) (fl : Diag) : (s.finish e info fl).dstLen = s.dstLen := rfl
@[simp] theorem finish_n (s : State) (e : ErrCode) (info : Word) (fl : Diag) : (s.finish e info fl).n = s.n := rfl
@[simp] theorem finish_blockBytes (s : State) (e : ErrCode) (info : Word) (fl : Diag) : (s.finish e info fl).blockBytes = s.blockBytes := rfl
@[simp] theorem finish_fecOrigLen (s : State) (e : ErrCode) (info : Word) (fl : Diag) : (s.finish e info fl).fecOrigLen = s.fecOrigLen := rfl
@[simp] theorem finish_fecPad (s : State) (e : ErrCode) (info : Word) (fl : Diag) : (s.finish e info fl).fecPad = s.fecPad := rfl
@[simp] theorem finish_errCorr (s : State) (e : ErrCode) (info : Word) (fl : Diag) : (s.finish e info fl).errCorr = s.errCorr := rfl
@[simp] theorem finish_blkIndex (s : State) (e : ErrCode) (info : Word) (fl : Diag) : (s.finish e info fl).blkIndex = s.blkIndex := rfl
@[simp] theorem finish_blkAgree (s : State) (e : ErrCode) (info : Word) (fl : Diag) : (s.finish e info fl).blkAgree = s.blkAgree := rfl
@[simp] theorem finish_errInfo (s : State) (e : ErrCode) (info : Word) (fl : Diag) : (s.finish e info fl).errInfo = info := rfl
@[simp] theorem finish_table (s : State) (e : ErrCode) (info : Word) (fl : Diag) : (s.finish e info fl).table = s.table := rfl
@[simp] theorem finish_freq (s : State) (e : ErrCode) (info : Word) (fl : Diag) : (s.finish e info fl).freq = s.freq := rfl
@[simp] theorem finish_buf (s : State) (e : ErrCode) (info : Word) (fl : Diag) : (s.finish e info fl).buf = s.buf := rfl
@[simp] theorem finish_pend (s : State) (e : ErrCode) (info : Word) (fl : Diag) : (s.finish e info fl).pend = .idle := rfl
@[simp] theorem finish_bufEpoch (s : State) (e : ErrCode) (info : Word) (fl : Diag) : (s.finish e info fl).bufEpoch = s.bufEpoch := rfl
@[simp] theorem finish_rdata (s : State) (e : ErrCode) (info : Word) (fl : Diag) : (s.finish e info fl).rdata = s.rdata := rfl
@[simp] theorem finish_host (s : State) (e : ErrCode) (info : Word) (fl : Diag) : (s.finish e info fl).host = s.host := rfl
@[simp] theorem finish_turns (s : State) (e : ErrCode) (info : Word) (fl : Diag) : (s.finish e info fl).turns = s.turns := rfl

/-! ### resetInput -/

@[simp] theorem resetInput_irqEn (s : State) : s.resetInput.irqEn = State.reset.irqEn := rfl
@[simp] theorem resetInput_done (s : State) : s.resetInput.done = State.reset.done := rfl
@[simp] theorem resetInput_haz (s : State) : s.resetInput.haz = State.reset.haz := rfl
@[simp] theorem resetInput_err (s : State) : s.resetInput.err = State.reset.err := rfl
@[simp] theorem resetInput_diag (s : State) : s.resetInput.diag = State.reset.diag := rfl
@[simp] theorem resetInput_srcAddr (s : State) : s.resetInput.srcAddr = State.reset.srcAddr := rfl
@[simp] theorem resetInput_srcLen (s : State) : s.resetInput.srcLen = State.reset.srcLen := rfl
@[simp] theorem resetInput_dstAddr (s : State) : s.resetInput.dstAddr = State.reset.dstAddr := rfl
@[simp] theorem resetInput_dstLen (s : State) : s.resetInput.dstLen = State.reset.dstLen := rfl
@[simp] theorem resetInput_n (s : State) : s.resetInput.n = State.reset.n := rfl
@[simp] theorem resetInput_blockBytes (s : State) : s.resetInput.blockBytes = State.reset.blockBytes := rfl
@[simp] theorem resetInput_fecOrigLen (s : State) : s.resetInput.fecOrigLen = State.reset.fecOrigLen := rfl
@[simp] theorem resetInput_fecPad (s : State) : s.resetInput.fecPad = State.reset.fecPad := rfl
@[simp] theorem resetInput_errCorr (s : State) : s.resetInput.errCorr = State.reset.errCorr := rfl
@[simp] theorem resetInput_blkIndex (s : State) : s.resetInput.blkIndex = State.reset.blkIndex := rfl
@[simp] theorem resetInput_blkAgree (s : State) : s.resetInput.blkAgree = State.reset.blkAgree := rfl
@[simp] theorem resetInput_errInfo (s : State) : s.resetInput.errInfo = State.reset.errInfo := rfl
@[simp] theorem resetInput_table (s : State) : s.resetInput.table = State.reset.table := rfl
@[simp] theorem resetInput_freq (s : State) : s.resetInput.freq = State.reset.freq := rfl
@[simp] theorem resetInput_buf (s : State) : s.resetInput.buf = State.reset.buf := rfl
@[simp] theorem resetInput_pend (s : State) : s.resetInput.pend = State.reset.pend := rfl
@[simp] theorem resetInput_bufEpoch (s : State) : s.resetInput.bufEpoch = s.bufEpoch + 1 := rfl
@[simp] theorem resetInput_rdata (s : State) : s.resetInput.rdata = s.rdata := rfl
@[simp] theorem resetInput_host (s : State) : s.resetInput.host = s.host := rfl
@[simp] theorem resetInput_turns (s : State) : s.resetInput.turns = s.turns := rfl

/-! ### Completion, BUSY and one byte of BUF -/

@[simp] theorem complete_err (s : State) (e : ErrCode) (info : Word) :
    s.complete (.err e info) = s.finish e info {} := rfl

@[simp] theorem complete_ok (s t : State) (fl : Diag) : s.complete (.ok t fl) = t.finish .none 0 fl := rfl

@[simp] theorem busy_issue (s : State) (w : Word) : (s.issue w).busy = true := rfl

@[simp] theorem busy_finish (s : State) (e : ErrCode) (info : Word) (fl : Diag) :
    (s.finish e info fl).busy = false := rfl

@[simp] theorem busy_resetInput (s : State) : s.resetInput.busy = false := rfl

theorem busy_eq_true_iff (s : State) : s.busy = true ↔ ∃ w, s.pend = .running w := by
  unfold State.busy
  cases s.pend <;> simp

theorem busy_eq_false_iff (s : State) : s.busy = false ↔ s.pend = .idle := by
  unfold State.busy
  cases s.pend <;> simp

@[simp] theorem busy_writeBytes (s : State) (a : Nat) (bs : ByteString) : (s.writeBytes a bs).busy = s.busy := rfl
@[simp] theorem busy_setDstLen (s : State) (k : Nat) : (s.setDstLen k).busy = s.busy := rfl
@[simp] theorem busy_setEncodingParams (s : State) (k p : Nat) : (s.setEncodingParams k p).busy = s.busy := rfl
@[simp] theorem busy_setErrCorr (s : State) (k : Nat) : (s.setErrCorr k).busy = s.busy := rfl
@[simp] theorem busy_setBlkIndex (s : State) (k : Nat) : (s.setBlkIndex k).busy = s.busy := rfl
@[simp] theorem busy_setBlkAgree (s : State) (k : Nat) : (s.setBlkAgree k).busy = s.busy := rfl
@[simp] theorem busy_setTable (s : State) (t : TableRam) : (s.setTable t).busy = s.busy := rfl
@[simp] theorem busy_setFreq (s : State) (f : Vector Word 256) : (s.setFreq f).busy = s.busy := rfl
@[simp] theorem busy_markHazard (s : State) : s.markHazard.busy = s.busy := rfl
@[simp] theorem busy_setRdata (s : State) (v : Word) : (s.setRdata v).busy = s.busy := rfl
@[simp] theorem busy_setHost (s : State) (ops : List HostOp) : (s.setHost ops).busy = s.busy := rfl
@[simp] theorem busy_setTurns (s : State) (ts : List Turn) : (s.setTurns ts).busy = s.busy := rfl

@[simp] theorem byteAt_setDstLen (s : State) (k : Nat) (x : Nat) : (s.setDstLen k).byteAt x = s.byteAt x := rfl
@[simp] theorem byteAt_setEncodingParams (s : State) (k p : Nat) (x : Nat) : (s.setEncodingParams k p).byteAt x = s.byteAt x := rfl
@[simp] theorem byteAt_setErrCorr (s : State) (k : Nat) (x : Nat) : (s.setErrCorr k).byteAt x = s.byteAt x := rfl
@[simp] theorem byteAt_setBlkIndex (s : State) (k : Nat) (x : Nat) : (s.setBlkIndex k).byteAt x = s.byteAt x := rfl
@[simp] theorem byteAt_setBlkAgree (s : State) (k : Nat) (x : Nat) : (s.setBlkAgree k).byteAt x = s.byteAt x := rfl
@[simp] theorem byteAt_setTable (s : State) (t : TableRam) (x : Nat) : (s.setTable t).byteAt x = s.byteAt x := rfl
@[simp] theorem byteAt_setFreq (s : State) (f : Vector Word 256) (x : Nat) : (s.setFreq f).byteAt x = s.byteAt x := rfl
@[simp] theorem byteAt_markHazard (s : State) (x : Nat) : s.markHazard.byteAt x = s.byteAt x := rfl
@[simp] theorem byteAt_setRdata (s : State) (v : Word) (x : Nat) : (s.setRdata v).byteAt x = s.byteAt x := rfl
@[simp] theorem byteAt_setHost (s : State) (ops : List HostOp) (x : Nat) : (s.setHost ops).byteAt x = s.byteAt x := rfl
@[simp] theorem byteAt_setTurns (s : State) (ts : List Turn) (x : Nat) : (s.setTurns ts).byteAt x = s.byteAt x := rfl
@[simp] theorem byteAt_issue (s : State) (w : Word) (x : Nat) : (s.issue w).byteAt x = s.byteAt x := rfl
@[simp] theorem byteAt_finish (s : State) (e : ErrCode) (info : Word) (fl : Diag) (x : Nat) : (s.finish e info fl).byteAt x = s.byteAt x := rfl

end Sys2Proof.Machine
end

