-- ==== Sys2Proof/Laws/Memory.lean ====
section
/-! SUPPORT. The laws of BUF: read after write, and the canonical form that every write keeps (R11, R44, R72). -/

namespace Sys2Proof.Machine

@[simp] theorem Memory.get?_nil (a : Nat) : Memory.get? [] a = none := rfl

/-- A read after a write of one byte: the byte written at its address, and the old byte everywhere else. -/
theorem Memory.get?_put (m : Memory) (a x : Nat) (b : Byte) :
    (Memory.put m a b).get? x = if x = a then some b else m.get? x := by
  induction m with
  | nil =>
    simp only [Memory.put, Memory.get?]
    split <;> split <;> first | rfl | omega
  | cons c rest ih =>
    obtain ⟨k, v⟩ := c
    unfold Memory.put
    split
    · simp only [Memory.get?, eq_comm (a := x)]
    · split
      · subst_vars
        simp only [Memory.get?]
        split <;> split <;> first | rfl | omega
      · simp only [Memory.get?, ih]
        split <;> split <;> first | rfl | omega

/-- A read after a write of consecutive bytes. -/
theorem Memory.get?_putAll (bs : ByteString) (m : Memory) (a x : Nat) :
    (Memory.putAll m a bs).get? x = if a ≤ x ∧ x < a + bs.length then bs[x - a]? else m.get? x := by
  induction bs generalizing m a with
  | nil =>
    have h : ¬ (a ≤ x ∧ x < a + ([] : ByteString).length) := by simp
    rw [if_neg h]
    rfl
  | cons b rest ih =>
    rw [Memory.putAll, ih, Memory.get?_put]
    by_cases hx : x = a
    · subst hx
      simp
    · by_cases hr : a + 1 ≤ x ∧ x < a + 1 + rest.length
      · have hs : a ≤ x ∧ x < a + (b :: rest).length := by simp only [List.length_cons]; omega
        rw [if_pos hr, if_pos hs]
        obtain ⟨d, rfl⟩ : ∃ d, x = a + 1 + d := ⟨x - (a + 1), by omega⟩
        have h1 : a + 1 + d - (a + 1) = d := by omega
        have h2 : a + 1 + d - a = d + 1 := by omega
        rw [h1, h2, List.getElem?_cons_succ]
      · have hs : ¬ (a ≤ x ∧ x < a + (b :: rest).length) := by simp only [List.length_cons]; omega
        rw [if_neg hr, if_neg hs, if_neg hx]

/-- The addresses a write of one byte leaves listed. -/
theorem Memory.mem_put {m : Memory} {a : Nat} {b : Byte} {c : Host.Cell} (h : c ∈ Memory.put m a b) :
    c = (a, b) ∨ c ∈ m := by
  induction m with
  | nil => simpa [Memory.put] using h
  | cons d rest ih =>
    obtain ⟨k, v⟩ := d
    unfold Memory.put at h
    split at h
    · simpa using h
    · split at h
      · rcases List.mem_cons.1 h with rfl | h
        · exact .inl rfl
        · exact .inr (List.mem_cons_of_mem _ h)
      · rcases List.mem_cons.1 h with rfl | h
        · exact .inr List.mem_cons_self
        · exact (ih h).imp_right (List.mem_cons_of_mem _)

/-- One byte written inside BUF keeps the canonical form. -/
theorem Memory.put_wf {m : Memory} {a : Nat} (b : Byte) (h : Memory.wf m) (ha : a < Config.bufBytes) :
    (Memory.put m a b).wf := by
  refine ⟨?_, fun c hc => ?_⟩
  · obtain ⟨h, -⟩ := h
    induction m with
    | nil => simp [Memory.put]
    | cons d rest ih =>
      obtain ⟨k, v⟩ := d
      obtain ⟨hk, hrest⟩ := List.pairwise_cons.1 h
      unfold Memory.put
      split
      · refine List.pairwise_cons.2 ⟨fun c hc => ?_, h⟩
        rcases List.mem_cons.1 hc with rfl | hc
        · assumption
        · have := hk c hc
          simp only at this ⊢
          omega
      · split
        · subst_vars
          exact List.pairwise_cons.2 ⟨hk, hrest⟩
        · refine List.pairwise_cons.2 ⟨fun c hc => ?_, ih hrest⟩
          rcases Memory.mem_put hc with rfl | hc
          · simp only
            omega
          · exact hk c hc
  · rcases Memory.mem_put hc with rfl | hc
    · exact ha
    · exact h.2 c hc

/-- Bytes written inside BUF keep the canonical form. -/
theorem Memory.putAll_wf (bs : ByteString) {m : Memory} {a : Nat} (h : Memory.wf m)
    (ha : bs = [] ∨ a + bs.length ≤ Config.bufBytes) : (Memory.putAll m a bs).wf := by
  induction bs generalizing m a with
  | nil => exact h
  | cons b rest ih =>
    simp only [List.length_cons] at ha
    have hb : a < Config.bufBytes := by
      rcases ha with ha | ha
      · cases ha
      · omega
    refine ih (Memory.put_wf b h hb) ?_
    rcases ha with ha | ha
    · cases ha
    · exact .inr (by omega)

/-- An address below every listed one is not listed. -/
theorem Memory.get?_eq_none_of_lt {m : Memory} {a : Nat} (h : ∀ c ∈ m, a < c.1) : m.get? a = none := by
  induction m with
  | nil => rfl
  | cons d rest ih =>
    obtain ⟨k, v⟩ := d
    have hk : a < k := h (k, v) List.mem_cons_self
    rw [Memory.get?, if_neg (by omega), ih fun c hc => h c (List.mem_cons_of_mem _ hc)]

/-- The form is canonical: memories that read alike are equal data. -/
theorem Memory.ext_of_get? {m m' : Memory} (h : m.wf) (h' : m'.wf) (heq : ∀ a, m.get? a = m'.get? a) : m = m' := by
  obtain ⟨h, -⟩ := h
  obtain ⟨h', -⟩ := h'
  induction m generalizing m' with
  | nil =>
    cases m' with
    | nil => rfl
    | cons d rest => simpa [Memory.get?] using heq d.1
  | cons d rest ih =>
    cases m' with
    | nil => simpa [Memory.get?] using heq d.1
    | cons d' rest' =>
      obtain ⟨k, v⟩ := d
      obtain ⟨k', v'⟩ := d'
      obtain ⟨hk, hr⟩ := List.pairwise_cons.1 h
      obtain ⟨hk', hr'⟩ := List.pairwise_cons.1 h'
      simp only at hk hk'
      have hkk : k = k' := by
        rcases Nat.lt_trichotomy k k' with hlt | rfl | hlt
        · have h1 := heq k
          rw [Memory.get?, if_pos rfl, Memory.get?, if_neg (by omega),
            Memory.get?_eq_none_of_lt fun c hc => Nat.lt_trans hlt (hk' c hc)] at h1
          cases h1
        · rfl
        · have h1 := heq k'
          rw [Memory.get?, if_neg (by omega), Memory.get?_eq_none_of_lt fun c hc => Nat.lt_trans hlt (hk c hc),
            Memory.get?, if_pos rfl] at h1
          cases h1
      subst hkk
      have hv : v = v' := by simpa [Memory.get?] using heq k
      subst hv
      congr 1
      refine ih (m' := rest') (fun a => ?_) hr hr'
      by_cases ha : k = a
      · subst ha
        rw [Memory.get?_eq_none_of_lt hk, Memory.get?_eq_none_of_lt hk']
      · simpa [Memory.get?, ha] using heq a

/-- Reset's memory has the canonical form. -/
theorem reset_buf_wf : State.reset.buf.wf := by decide

/-- One byte of BUF after a write of consecutive bytes. -/
theorem byteAt_writeBytes (s : State) (a : Nat) (bs : ByteString) (x : Nat) :
    (s.writeBytes a bs).byteAt x = if a ≤ x ∧ x < a + bs.length then bs.getD (x - a) 0 else s.byteAt x := by
  unfold State.byteAt
  rw [writeBytes_buf, writeBytes_bufEpoch, Memory.get?_putAll]
  split
  · have hx : x - a < bs.length := by omega
    simp [List.getD, List.getElem?_eq_getElem hx]
  · rfl

/-- A write inside BUF keeps the canonical form. -/
theorem writeBytes_wf {s : State} {a : Nat} {bs : ByteString} (h : s.buf.wf)
    (ha : bs = [] ∨ a + bs.length ≤ Config.bufBytes) : (s.writeBytes a bs).buf.wf :=
  Memory.putAll_wf bs h ha

end Sys2Proof.Machine
end

