-- ==== Sys2Proof/Laws/Operands.lean ====
section
/-! SUPPORT. The small lemmas of the operand forms: lengths and positions of bit and byte strings (R10, R66, R67), the
extent checks as arithmetic (R113, R114), and the entries of a RAM read as a mapping (R12). -/

namespace Sys2Proof.Machine

/-! ### Lengths -/

@[simp] theorem length_zeros (k : Nat) : (zeros k).length = k := List.length_replicate

@[simp] theorem length_bin (n v : Nat) : (bin n v).length = n := by simp [bin]

@[simp] theorem length_bitsOf (bs : ByteString) : (bitsOf bs).length = 8 * bs.length := by
  induction bs with
  | nil => rfl
  | cons b rest ih =>
    rw [bitsOf, List.flatMap_cons, List.length_append, length_bin]
    rw [bitsOf] at ih
    rw [ih, List.length_cons]
    omega

@[simp] theorem length_bytesOf (s : BitString) : (bytesOf s).length = bytesFor s.length := by simp [bytesOf]

@[simp] theorem length_readBytes (s : State) (a m : Nat) : (s.readBytes a m).length = m := by simp [State.readBytes]

@[simp] theorem length_readBits (s : State) (a len : Nat) : (s.readBits a len).length = len := by simp [State.readBits]

@[simp] theorem length_lanes (v : Word) : (lanes v).length = 4 := rfl

theorem bytesFor_eq_zero_iff (k : Nat) : bytesFor k = 0 ↔ k = 0 := by
  unfold bytesFor
  omega

/-- A bit string whose bytes fit m bytes has at most 8·m bits. -/
theorem le_of_bytesFor_le {k m : Nat} (h : bytesFor k ≤ m) : k ≤ 8 * m := by
  unfold bytesFor at h
  omega

/-! ### Positions -/

theorem getElem?_readBytes (s : State) (a m i : Nat) :
    (s.readBytes a m)[i]? = if i < m then some (s.byteAt (a + i)) else none := by
  unfold State.readBytes
  by_cases h : i < m <;> simp [h]

theorem getElem?_readBits (s : State) (a len k : Nat) :
    (s.readBits a len)[k]? = if k < len then some ((s.byteAt (a + k / 8)).getLsbD (7 - k % 8)) else none := by
  unfold State.readBits
  by_cases h : k < len <;> simp [h]

theorem getElem?_bin (n v k : Nat) : (bin n v)[k]? = if k < n then some (v.testBit (n - 1 - k)) else none := by
  unfold bin
  by_cases h : k < n <;> simp [h]

/-- Bit k of `bits_of(bs)` (R66, R67). -/
theorem getElem?_bitsOf (bs : ByteString) (k : Nat) (h : k < 8 * bs.length) :
    (bitsOf bs)[k]? = some ((bs.getD (k / 8) 0).getLsbD (7 - k % 8)) := by
  induction bs generalizing k with
  | nil => simp at h
  | cons b r ih =>
    show (bin 8 b.toNat ++ bitsOf r)[k]? = _
    by_cases hk : k < 8
    · rw [List.getElem?_append_left (by simpa using hk), getElem?_bin, if_pos hk]
      have : k / 8 = 0 := by omega
      have h2 : k % 8 = k := by omega
      simp [this, h2, BitVec.getLsbD]
    · rw [List.getElem?_append_right (by simp; omega)]
      simp only [length_bin]
      rw [ih _ (by simp at h; omega)]
      have : k / 8 = (k - 8) / 8 + 1 := by omega
      have h2 : k % 8 = (k-8) % 8 := by omega
      simp [this, h2]

theorem getElem?_bytesOf (s : BitString) (i : Nat) :
    (bytesOf s)[i]? = if i < bytesFor s.length then some (packedByte s i) else none := by
  unfold bytesOf
  by_cases h : i < bytesFor s.length <;> simp [h]

/-! ### The integer a bit string writes -/

/-- The fold of `val` started at any value. -/
theorem val_foldl (s : BitString) (v : Nat) : s.foldl (fun v b => 2 * v + b.toNat) v = v * 2 ^ s.length + val s := by
  induction s generalizing v with
  | nil => simp [val]
  | cons b rest ih =>
    have hv : val (b :: rest) = rest.foldl (fun v b => 2 * v + b.toNat) (2 * 0 + b.toNat) := rfl
    rw [List.foldl_cons, ih, hv, ih, List.length_cons, Nat.pow_succ]
    ring

@[simp] theorem val_nil : val [] = 0 := rfl

theorem val_append (s t : BitString) : val (s ++ t) = val s * 2 ^ t.length + val t := by
  have h : val (s ++ t) = t.foldl (fun v b => 2 * v + b.toNat) (val s) := by
    unfold val
    rw [List.foldl_append]
  rw [h, val_foldl]

theorem val_lt (s : BitString) : val s < 2 ^ s.length := by
  induction s using List.reverseRecOn with
  | nil => simp
  | append_singleton t b ih =>
    have hb : b.toNat ≤ 1 := by cases b <;> decide
    have h1 : val [b] = b.toNat := by simp [val]
    rw [val_append, List.length_append, List.length_singleton, h1, Nat.pow_succ]
    omega

/-! ### Extents -/

theorem inRange_iff (a : Word) (m : Nat) : inRange a m = true ↔ m = 0 ∨ a.toNat + m ≤ 65536 := by
  rw [inRange, Bool.or_eq_true, decide_eq_true_eq, decide_eq_true_eq]
  rfl

theorem overlaps_iff (a : Word) (m : Nat) (a' : Word) (m' : Nat) :
    overlaps a m a' m' = true ↔ 0 < m ∧ 0 < m' ∧ a.toNat < a'.toNat + m' ∧ a'.toNat < a.toNat + m := by
  simp [overlaps, and_assoc]

theorem nLegal_iff (n : BitVec 4) : nLegal n = true ↔ 1 ≤ n.toNat ∧ n.toNat ≤ 8 := by
  rw [nLegal, Bool.and_eq_true, decide_eq_true_eq, decide_eq_true_eq]
  rfl

/-! ### RAMs -/

theorem mem_symbols (s : Byte) : s ∈ symbols := by
  unfold symbols
  exact List.mem_map.2 ⟨s.toNat, List.mem_range.2 s.isLt, by simp⟩

theorem nodup_symbols : symbols.Nodup := by
  unfold symbols
  refine List.Nodup.map_on ?_ List.nodup_range
  intro a ha b hb h
  have ha' := List.mem_range.1 ha
  have hb' := List.mem_range.1 hb
  have := congrArg BitVec.toNat h
  simp only [BitVec.toNat_ofNat] at this
  omega

@[simp] theorem ramGet_ramSet {α : Type} (v : Vector α 256) (i j : Byte) (x : α) :
    ramGet (ramSet v i x) j = if i = j then x else ramGet v j := by
  unfold ramGet ramSet
  rw [Vector.getElem_set]
  by_cases h : i = j
  · simp [h]
  · have : i.toNat ≠ j.toNat := fun hh => h (BitVec.eq_of_toNat_eq hh)
    simp [h, this]

@[simp] theorem ramGet_ramFn {α : Type} (f : Byte → α) (s : Byte) : ramGet (ramFn f) s = f s := by
  unfold ramGet ramFn
  simp [symbols]

theorem ramEntries_eq {α : Type} (v : Vector α 256) : ramEntries v = symbols.map fun s => (s, ramGet v s) := by
  apply List.ext_getElem
  · simp [ramEntries, symbols]
  · intro k h1 h2
    have hk : k < 256 := by simpa [symbols] using h2
    simp [ramEntries, symbols, ramGet, Nat.mod_eq_of_lt hk]

/-- `Table` is taken symbol by symbol in ascending order. -/
theorem tableOf_eq (ram : TableRam) : tableOf ram =
    symbols.filterMap fun s => if (ramGet ram s).len = 0 then none else some (s, (ramGet ram s).codeOf) := by
  unfold tableOf
  rw [ramEntries_eq, List.filterMap_map]
  rfl

@[simp] theorem ramGet_zero (s : Byte) : ramGet TableRam.zero s = TableEntry.zero := by
  unfold ramGet TableRam.zero
  simp

@[simp] theorem length_codeOf (e : TableEntry) : e.codeOf.length = e.len.toNat := by simp [TableEntry.codeOf]

/-- The pairs of `Table`: exactly the present entries with their codes. -/
theorem mem_tableOf {ram : TableRam} {s : Byte} {c : BitString} :
    (s, c) ∈ tableOf ram ↔ (ramGet ram s).len ≠ 0 ∧ c = (ramGet ram s).codeOf := by
  rw [tableOf_eq, List.mem_filterMap]
  constructor
  · rintro ⟨a, -, ha⟩
    by_cases h : (ramGet ram a).len = 0
    · simp [h] at ha
    · simp only [h, if_false, Option.some.injEq, Prod.mk.injEq] at ha
      obtain ⟨rfl, rfl⟩ := ha
      exact ⟨h, rfl⟩
  · rintro ⟨h, rfl⟩
    exact ⟨s, mem_symbols s, by simp only [h, if_false]⟩

/-- No symbol stands twice in `Table`. -/
theorem nodup_tableOf_symbols (ram : TableRam) : ((tableOf ram).map Prod.fst).Nodup := by
  have h : (tableOf ram).map Prod.fst = symbols.filter fun s => (ramGet ram s).len ≠ 0 := by
    rw [tableOf_eq]
    generalize symbols = l
    induction l with
    | nil => rfl
    | cons a rest ih =>
      by_cases ha : (ramGet ram a).len = 0
      · rw [List.filterMap_cons_none (by simp only [ha, if_true]), List.filter_cons_of_neg (by simp only [ha]; decide)]
        exact ih
      · rw [List.filterMap_cons_some (by simp only [ha, if_false]; rfl), List.filter_cons_of_pos (by simpa using ha),
          List.map_cons, ih]
  rw [h]
  exact nodup_symbols.filter _

/-- A code has at least one bit, so no code of `Table` is empty. -/
theorem code_ne_nil_of_mem_tableOf {ram : TableRam} {e : Byte × BitString} (h : e ∈ tableOf ram) : e.2 ≠ [] := by
  obtain ⟨s, c⟩ := e
  obtain ⟨hs, rfl⟩ := mem_tableOf.1 h
  intro hn
  have hl : (ramGet ram s).codeOf.length = 0 := by
    rw [show (ramGet ram s).codeOf = [] from hn]
    rfl
  rw [length_codeOf] at hl
  exact hs (BitVec.eq_of_toNat_eq hl)

end Sys2Proof.Machine
end

