-- ==== Sys2Proof/Laws/Ops.lean ====
section
/-! SUPPORT. What the shared operations can do: the last steps of a command (R115), its completion (R111, R116), and what
any command can change (R94, R118). -/

namespace Sys2Proof.Machine

/-- `Exec(w, S)` for a word that decodes to the command `i` (R111). -/
def outcomeOf : Instr → State → CmdOutcome
  | .nop => nopOutcome
  | .buildTable => buildTableOutcome
  | .tableClear => tableClearOutcome
  | .compress => compressOutcome
  | .decompress => decompressOutcome
  | .pack => packOutcome
  | .unpack => unpackOutcome
  | .encodeBlock => encodeBlockOutcome
  | .decodeBlock => decodeBlockOutcome
  | .fecEncode => fecEncodeOutcome
  | .fecDecode => fecDecodeOutcome

/-- Every meaning is the completion of its command's outcome: it always answers a next state. -/
theorem exec_eq_complete (i : Instr) (s : State) : exec i s = .next (s.complete (outcomeOf i s)) := by
  cases i <;> rfl

/-- The next state of a meaning, named. -/
theorem exec_next_iff {i : Instr} {s t : State} : exec i s = .next t ↔ t = s.complete (outcomeOf i s) := by
  rw [exec_eq_complete, Host.Outcome.next.injEq]
  exact eq_comm

/-- All that the last steps of a command can answer (R115, steps 7 to 9). -/
theorem deliver_cases (s : State) (m : Nat) (dst : ByteString) (results : State → State) (fl : Diag) :
    (¬ (dst.length = 0 ∨ s.dstAddr.toNat + dst.length ≤ 65536) ∧ deliver s m dst results fl = .err .range 0) ∨
    ((dst.length = 0 ∨ s.dstAddr.toNat + dst.length ≤ 65536) ∧
      (0 < m ∧ 0 < dst.length ∧ s.srcAddr.toNat < s.dstAddr.toNat + dst.length ∧ s.dstAddr.toNat < s.srcAddr.toNat + m) ∧
      deliver s m dst results fl = .err .overlap 0) ∨
    ((dst.length = 0 ∨ s.dstAddr.toNat + dst.length ≤ 65536) ∧
      ¬ (0 < m ∧ 0 < dst.length ∧ s.srcAddr.toNat < s.dstAddr.toNat + dst.length ∧ s.dstAddr.toNat < s.srcAddr.toNat + m) ∧
      deliver s m dst results fl = .ok (results (s.writeBytes s.dstAddr.toNat dst)) fl) := by
  rw [← inRange_iff, ← overlaps_iff]
  unfold deliver
  by_cases h : inRange s.dstAddr dst.length = true
  · by_cases h' : overlaps s.srcAddr m s.dstAddr dst.length = true
    · exact .inr (.inl ⟨h, h', by simp [h, h']⟩)
    · exact .inr (.inr ⟨h, h', by simp [h, h']⟩)
  · exact .inl ⟨h, by simp [h]⟩

/-- The last steps on an extent that fits and does not overlap. -/
theorem deliver_ok {s : State} {m : Nat} {dst : ByteString} (results : State → State) (fl : Diag)
    (hfit : dst.length = 0 ∨ s.dstAddr.toNat + dst.length ≤ 65536)
    (hapart : ¬ (0 < m ∧ 0 < dst.length ∧ s.srcAddr.toNat < s.dstAddr.toNat + dst.length ∧ s.dstAddr.toNat < s.srcAddr.toNat + m)) :
    deliver s m dst results fl = .ok (results (s.writeBytes s.dstAddr.toNat dst)) fl := by
  rcases deliver_cases s m dst results fl with ⟨h, -⟩ | ⟨-, h, -⟩ | ⟨-, -, h⟩
  · exact absurd hfit h
  · exact absurd h hapart
  · exact h

/-- The effects of a command change only what it may list as results (R94): the table, FREQ, BUF and the result registers. -/
def OnlyResults (s t : State) : Prop :=
  t = { s with dstLen := t.dstLen, fecOrigLen := t.fecOrigLen, fecPad := t.fecPad, errCorr := t.errCorr,
               blkIndex := t.blkIndex, blkAgree := t.blkAgree, table := t.table, freq := t.freq, buf := t.buf }

/-- If the last steps answer effects, they are the bytes stored and the results written. -/
theorem deliver_eq_ok {s t : State} {m : Nat} {dst : ByteString} {results : State → State} {fl fl' : Diag}
    (h : deliver s m dst results fl = .ok t fl') :
    t = results (s.writeBytes s.dstAddr.toNat dst) ∧ fl' = fl ∧
      (dst.length = 0 ∨ s.dstAddr.toNat + dst.length ≤ 65536) := by
  rcases deliver_cases s m dst results fl with ⟨-, h'⟩ | ⟨-, -, h'⟩ | ⟨hf, -, h'⟩
  · rw [h'] at h; cases h
  · rw [h'] at h; cases h
  · rw [h'] at h
    cases h
    exact ⟨rfl, rfl, hf⟩

/-! ### The outcomes, each unfolded once -/

theorem buildTableOutcome_eq (s : State) : buildTableOutcome s =
    if ¬ inRange s.srcAddr s.srcLen.toNat then .err .range 0
    else .ok ((s.setFreq (freqRamOf (freqOf (s.readBytes s.srcAddr.toNat s.srcLen.toNat)))).setTable
      (ramOf (buildCodes (s.readBytes s.srcAddr.toNat s.srcLen.toNat)))) { empty := decide (s.srcLen.toNat = 0) } := rfl

theorem compressOutcome_eq (s : State) : compressOutcome s =
    if ¬ inRange s.srcAddr s.srcLen.toNat then .err .range 0
    else
      match encodeBytes (tableOf s.table) (s.readBytes s.srcAddr.toNat s.srcLen.toNat) with
      | .error b => .err .symbolAbsent (b.setWidth 32)
      | .ok out => deliver s s.srcLen.toNat (bytesOf out) (fun t => t.setDstLen out.length) {} := rfl

theorem decompressOutcome_eq (s : State) : decompressOutcome s =
    if ¬ inRange s.srcAddr (bytesFor s.srcLen.toNat) then .err .range 0
    else if duplicateCodes (tableOf s.table) then .err .badTable 0
    else
      deliver s (bytesFor s.srcLen.toNat) (decodeBits (tableOf s.table) (s.readBits s.srcAddr.toNat s.srcLen.toNat)).1
        (fun t => t.setDstLen (decodeBits (tableOf s.table) (s.readBits s.srcAddr.toNat s.srcLen.toNat)).1.length)
        { tail := (decodeBits (tableOf s.table) (s.readBits s.srcAddr.toNat s.srcLen.toNat)).2 } := rfl

theorem packOutcome_eq (s : State) : packOutcome s =
    if s.blockBytes = 0 then .err .badParam 0
    else if ¬ inRange s.srcAddr (bytesFor s.srcLen.toNat) then .err .range 0
    else
      deliver s (bytesFor s.srcLen.toNat) (packBits (s.readBits s.srcAddr.toNat s.srcLen.toNat) s.blockBytes.toNat)
        (fun t => t.setDstLen (packBits (s.readBits s.srcAddr.toNat s.srcLen.toNat) s.blockBytes.toNat).length) {} := rfl

theorem unpackOutcome_eq (s : State) : unpackOutcome s =
    if ¬ inRange s.srcAddr s.srcLen.toNat then .err .range 0
    else
      deliver s s.srcLen.toNat (bytesOf (unpackBytes (s.readBytes s.srcAddr.toNat s.srcLen.toNat)).1)
        (fun t => t.setDstLen (unpackBytes (s.readBytes s.srcAddr.toNat s.srcLen.toNat)).1.length)
        { padFault := (unpackBytes (s.readBytes s.srcAddr.toNat s.srcLen.toNat)).2 } := rfl

theorem encodeBlockOutcome_eq (s : State) : encodeBlockOutcome s =
    if ¬ nLegal s.n then .err .badParam 0
    else if s.srcLen.toNat ≠ s.n.toNat then .err .badBlockLen 0
    else if ¬ inRange s.srcAddr (bytesFor s.n.toNat) then .err .range 0
    else
      deliver s (bytesFor s.n.toNat) (bytesOf (encBlock s.n.toNat (s.readBits s.srcAddr.toNat s.n.toNat)))
        (fun t => (t.setDstLen (2 ^ s.n.toNat)).setBlkIndex (val (s.readBits s.srcAddr.toNat s.n.toNat))) {} := rfl

theorem decodeBlockOutcome_eq (s : State) : decodeBlockOutcome s =
    if ¬ nLegal s.n then .err .badParam 0
    else if s.srcLen.toNat ≠ 2 ^ s.n.toNat then .err .badBlockLen 0
    else if ¬ inRange s.srcAddr (bytesFor (2 ^ s.n.toNat)) then .err .range 0
    else
      deliver s (bytesFor (2 ^ s.n.toNat)) (bytesOf (decBlock s.n.toNat (s.readBits s.srcAddr.toNat (2 ^ s.n.toNat))).payload)
        (fun t => (((t.setDstLen s.n.toNat).setBlkIndex (decBlock s.n.toNat (s.readBits s.srcAddr.toNat (2 ^ s.n.toNat))).index).setBlkAgree
          (decBlock s.n.toNat (s.readBits s.srcAddr.toNat (2 ^ s.n.toNat))).agree).setErrCorr
          (decBlock s.n.toNat (s.readBits s.srcAddr.toNat (2 ^ s.n.toNat))).dist) {} := rfl

theorem fecEncodeOutcome_eq (s : State) : fecEncodeOutcome s =
    if ¬ nLegal s.n then .err .badParam 0
    else if ¬ inRange s.srcAddr (bytesFor s.srcLen.toNat) then .err .range 0
    else
      deliver s (bytesFor s.srcLen.toNat) (bytesOf (fecEncodeBits s.n.toNat (s.readBits s.srcAddr.toNat s.srcLen.toNat)))
        (fun t => (t.setDstLen (fecEncodeBits s.n.toNat (s.readBits s.srcAddr.toNat s.srcLen.toNat)).length).setEncodingParams
          s.srcLen.toNat (fecPadOf s.n.toNat s.srcLen.toNat)) {} := rfl

theorem fecDecodeOutcome_eq (s : State) : fecDecodeOutcome s =
    if ¬ nLegal s.n then .err .badParam 0
    else if ¬ inRange s.srcAddr (bytesFor s.srcLen.toNat) then .err .range 0
    else
      deliver s (bytesFor s.srcLen.toNat)
        (bytesOf (fecDecodeBits s.n.toNat (s.readBits s.srcAddr.toNat s.srcLen.toNat) s.fecOrigLen.toNat).bits)
        (fun t => (t.setDstLen (fecDecodeBits s.n.toNat (s.readBits s.srcAddr.toNat s.srcLen.toNat) s.fecOrigLen.toNat).bits.length).setErrCorr
          (fecDecodeBits s.n.toNat (s.readBits s.srcAddr.toNat s.srcLen.toNat) s.fecOrigLen.toNat).errors)
        { trunc := (fecDecodeBits s.n.toNat (s.readBits s.srcAddr.toNat s.srcLen.toNat) s.fecOrigLen.toNat).trunc,
          short := (fecDecodeBits s.n.toNat (s.readBits s.srcAddr.toNat s.srcLen.toNat) s.fecOrigLen.toNat).short } := rfl

/-! ### What a command can change -/

/-- Every successful command changes only results. -/
theorem outcomeOf_ok_onlyResults {i : Instr} {s t : State} {fl : Diag} (h : outcomeOf i s = .ok t fl) : OnlyResults s t := by
  cases i <;> simp only [outcomeOf] at h
  case nop => cases h; rfl
  case tableClear => cases h; rfl
  case buildTable =>
    rw [buildTableOutcome_eq] at h
    split at h <;> cases h
    rfl
  case compress =>
    rw [compressOutcome_eq] at h
    split at h
    · cases h
    · split at h
      · cases h
      · obtain ⟨rfl, -⟩ := deliver_eq_ok h
        rfl
  case decompress =>
    rw [decompressOutcome_eq] at h
    split at h
    · cases h
    · split at h
      · cases h
      · obtain ⟨rfl, -⟩ := deliver_eq_ok h
        rfl
  case pack =>
    rw [packOutcome_eq] at h
    split at h
    · cases h
    · split at h
      · cases h
      · obtain ⟨rfl, -⟩ := deliver_eq_ok h
        rfl
  case unpack =>
    rw [unpackOutcome_eq] at h
    split at h
    · cases h
    · obtain ⟨rfl, -⟩ := deliver_eq_ok h
      rfl
  case encodeBlock =>
    rw [encodeBlockOutcome_eq] at h
    split at h
    · cases h
    · split at h
      · cases h
      · split at h
        · cases h
        · obtain ⟨rfl, -⟩ := deliver_eq_ok h
          rfl
  case decodeBlock =>
    rw [decodeBlockOutcome_eq] at h
    split at h
    · cases h
    · split at h
      · cases h
      · split at h
        · cases h
        · obtain ⟨rfl, -⟩ := deliver_eq_ok h
          rfl
  case fecEncode =>
    rw [fecEncodeOutcome_eq] at h
    split at h
    · cases h
    · split at h
      · cases h
      · obtain ⟨rfl, -⟩ := deliver_eq_ok h
        rfl
  case fecDecode =>
    rw [fecDecodeOutcome_eq] at h
    split at h
    · cases h
    · split at h
      · cases h
      · obtain ⟨rfl, -⟩ := deliver_eq_ok h
        rfl

/-- All that a completion can be (R111): an error that changes only the marks of completion, or effects that change only
results, then the marks. -/
theorem complete_cases (i : Instr) (s : State) :
    (∃ e info, outcomeOf i s = .err e info ∧ s.complete (outcomeOf i s) = s.finish e info {}) ∨
    ∃ t fl, outcomeOf i s = .ok t fl ∧ OnlyResults s t ∧ s.complete (outcomeOf i s) = t.finish .none 0 fl := by
  cases h : outcomeOf i s with
  | err e info => exact .inl ⟨e, info, rfl, rfl⟩
  | ok t fl => exact .inr ⟨t, fl, rfl, outcomeOf_ok_onlyResults h, rfl⟩

end Sys2Proof.Machine
end

