-- ==== Sys2Proof/Laws/BitPack.lean ====
section
/-! SUPPORT. The small lemmas of the bit-packing unit (R180, R185). -/

namespace Sys2Proof.Machine

/-- PACK appends at least one and at most B bytes, up to a multiple of B (R180). -/
theorem padCount_spec (k : Nat) {b : Nat} (h : 1 ≤ b) :
    1 ≤ padCount k b ∧ padCount k b ≤ b ∧ (k + padCount k b) % b = 0 := by
  unfold padCount
  have hlt := Nat.mod_lt k (show b > 0 by omega)
  refine ⟨by omega, by omega, ?_⟩
  have hk := Nat.div_add_mod k b
  have : k + (b - k % b) = b * (k / b + 1) := by
    rw [Nat.mul_add, Nat.mul_one]
    omega
  rw [this, Nat.mul_mod_right]

@[simp] theorem length_packBits (s : BitString) (b : Nat) :
    (packBits s b).length = bytesFor s.length + padCount (bytesFor s.length) b := by
  simp [packBits]

/-- The bits UNPACK answers are whole bytes. -/
theorem length_unpackBytes_mod (d : ByteString) : (unpackBytes d).1.length % 8 = 0 := by
  unfold unpackBytes
  split
  · simp
  · split <;> simp

end Sys2Proof.Machine
end

