-- ==== Sys2Proof/Laws/Entropy.lean ====
section
/-! SUPPORT. The small lemmas of the entropy unit: counts (R130), the split index (R132), fuel that is enough (R133),
and the equations of the encoder and the decoder (R156, R166). -/

namespace Sys2Proof.Machine

/-! ### Counts -/

@[simp] theorem ramGet_freqOf (d : ByteString) (s : Byte) : ramGet (freqOf d) s = d.count s := ramGet_ramFn _ s

@[simp] theorem ramGet_freqRamOf (f : FreqTable) (s : Byte) : ramGet (freqRamOf f) s = BitVec.ofNat 32 (ramGet f s) :=
  ramGet_ramFn _ s

theorem ramGet_ramOf (codes : CodeTable) (s : Byte) :
    ramGet (ramOf codes) s =
      match codes.lookup s with
      | some c => TableEntry.ofCode c
      | none => TableEntry.zero := ramGet_ramFn _ s

/-- `SortSyms` sorts the symbols that occur. -/
theorem sortSyms_eq (f : FreqTable) :
    sortSyms f = (symbols.filter fun s => 0 < ramGet f s).insertionSort (sortsBefore f) := by
  unfold sortSyms
  rw [ramEntries_eq, List.filter_map, List.map_map]
  simp [Function.comp_def]

/-- `SortSyms` only reorders: a symbol is in it exactly when it occurs. -/
theorem mem_sortSyms (f : FreqTable) (s : Byte) : s ∈ sortSyms f ↔ 0 < ramGet f s := by
  rw [sortSyms_eq, List.mem_insertionSort, List.mem_filter]
  simp [mem_symbols]

theorem nodup_sortSyms (f : FreqTable) : (sortSyms f).Nodup := by
  rw [sortSyms_eq]
  exact (List.perm_insertionSort _ _).nodup_iff.2 (nodup_symbols.filter _)

/-! ### The split -/

/-- Among 1..k the chosen index is the least of least cost. -/
theorem argmin_range'_spec (cost : Nat → Nat) {k : Nat} (hk : 1 ≤ k) :
    ∃ m, (List.range' 1 k).argmin cost = some m ∧ 1 ≤ m ∧ m ≤ k ∧
      ∀ j, 1 ≤ j → j ≤ k → cost m ≤ cost j ∧ (j < m → cost m < cost j) := by
  cases hm : (List.range' 1 k).argmin cost with
  | none =>
    rw [List.argmin_eq_none] at hm
    have := congrArg List.length hm
    simp at this
    omega
  | some m =>
    have hmem := List.argmin_mem hm
    have hm1 : 1 ≤ m ∧ m < 1 + k := by simpa [List.mem_range'_1] using hmem
    refine ⟨m, rfl, hm1.1, by omega, fun j hj hjk => ?_⟩
    have hjm : j ∈ List.range' 1 k := by
      rw [List.mem_range'_1]
      omega
    refine ⟨List.le_of_mem_argmin hjm hm, fun hlt => ?_⟩
    by_contra hle
    have hidx := List.index_of_argmin hm hjm (Nat.not_lt.1 hle)
    have hpos : ∀ x, 1 ≤ x → x ≤ k → (List.range' 1 k).idxOf x = x - 1 := by
      intro x hx hxk
      have hlen : x - 1 < (List.range' 1 k).length := by rw [List.length_range']; omega
      have hget : (List.range' 1 k)[x - 1] = x := by rw [List.getElem_range']; omega
      have hi := List.Nodup.idxOf_getElem (List.nodup_range' (s := 1) (n := k)) (x - 1) hlen
      rwa [hget] at hi
    rw [hpos m hm1.1 (by omega), hpos j hj hjk] at hidx
    omega

/-- The split index of a list of two symbols or more: inside the list, least of least cost (R132). -/
theorem splitIndex_spec (f : FreqTable) {l : List Byte} (h : 2 ≤ l.length) :
    1 ≤ splitIndex f l ∧ splitIndex f l ≤ l.length - 1 ∧
      ∀ j, 1 ≤ j → j ≤ l.length - 1 →
        splitCost f l (splitIndex f l) ≤ splitCost f l j ∧
          (j < splitIndex f l → splitCost f l (splitIndex f l) < splitCost f l j) := by
  obtain ⟨m, hm, h1, h2, h3⟩ := argmin_range'_spec (splitCost f l) (k := l.length - 1) (by omega)
  unfold splitIndex
  rw [hm]
  exact ⟨h1, h2, h3⟩

/-- A list of three symbols or more is split. -/
theorem shannonFano_split (f : FreqTable) (fuel : Nat) {l : List Byte} (p : BitString) (h : 3 ≤ l.length) :
    shannonFano f (fuel + 1) l p =
      shannonFano f fuel (l.take (splitIndex f l)) (p ++ [false]) ++
        shannonFano f fuel (l.drop (splitIndex f l)) (p ++ [true]) := by
  match l, h with
  | _ :: _ :: _ :: _, _ => rfl

/-- Fuel of the list's length, or more, is enough. -/
theorem shannonFano_fuel (f : FreqTable) (fuel : Nat) (l : List Byte) (p : BitString) (h : l.length ≤ fuel) :
    shannonFano f fuel l p = shannonFano f l.length l p := by
  induction fuel using Nat.strong_induction_on generalizing l p with
  | _ fuel ih =>
    match fuel, l, h with
    | 0, [], _ => rfl
    | _ + 1, [], _ => rfl
    | _ + 1, [_], _ => rfl
    | _ + 1, [_, _], _ => rfl
    | k + 1, a :: b :: c :: rest, h =>
      have h3 : 3 ≤ (a :: b :: c :: rest).length := by simp
      obtain ⟨h1, h2, -⟩ := splitIndex_spec f (l := a :: b :: c :: rest) (by omega)
      have hlen : (a :: b :: c :: rest).length = rest.length + 2 + 1 := rfl
      rw [shannonFano_split f k p h3, hlen, shannonFano_split f (rest.length + 2) p h3]
      generalize hl : a :: b :: c :: rest = l at *
      have ht : (l.take (splitIndex f l)).length ≤ rest.length + 2 := by rw [List.length_take]; omega
      have hd : (l.drop (splitIndex f l)).length ≤ rest.length + 2 := by rw [List.length_drop]; omega
      have hk : rest.length + 2 ≤ k := by omega
      rw [ih k (by omega) _ _ (by omega), ih k (by omega) (l.drop _) _ (by omega),
        ih (rest.length + 2) (by omega) _ _ ht, ih (rest.length + 2) (by omega) (l.drop _) _ hd]

/-! ### Encoding and decoding -/

theorem encodeBytes_one (sym : Byte) (c : BitString) (d : ByteString) : encodeBytes [(sym, c)] d =
    match d.find? fun b => b ≠ sym with
    | some b => .error b
    | none => .ok (zeros d.length) := rfl

theorem encodeBytes_of_length_ne_one {t : CodeTable} (d : ByteString) (h : t.length ≠ 1) :
    encodeBytes t d = encodeSymbols t d := by
  match t, h with
  | [], _ => rfl
  | _ :: _ :: _, _ => rfl

theorem decodeBits_one (sym : Byte) (c : BitString) (bits : BitString) :
    decodeBits [(sym, c)] bits = (List.replicate bits.length sym, false) := rfl

theorem decodeBits_of_length_ne_one {t : CodeTable} (bits : BitString) (h : t.length ≠ 1) :
    decodeBits t bits = ((decodeSymbols t bits []).1, !(decodeSymbols t bits []).2.isEmpty) := by
  match t, h with
  | [], _ => rfl
  | _ :: _ :: _, _ => rfl

theorem decodeSymbols_cons_some {t : CodeTable} {b : Bool} {acc : BitString} {sym : Byte} (rest : BitString)
    (h : symbolOf? t (acc ++ [b]) = some sym) :
    decodeSymbols t (b :: rest) acc = (sym :: (decodeSymbols t rest []).1, (decodeSymbols t rest []).2) := by
  rw [decodeSymbols, h]

theorem decodeSymbols_cons_none {t : CodeTable} {b : Bool} {acc : BitString} (rest : BitString)
    (h : symbolOf? t (acc ++ [b]) = none) : decodeSymbols t (b :: rest) acc = decodeSymbols t rest (acc ++ [b]) := by
  rw [decodeSymbols, h]

theorem symbolOf?_eq_none_iff {t : CodeTable} {acc : BitString} : symbolOf? t acc = none ↔ ∀ e ∈ t, e.2 ≠ acc := by
  simp [symbolOf?]

theorem symbolOf?_eq_some {t : CodeTable} {acc : BitString} {sym : Byte} (h : symbolOf? t acc = some sym) :
    (sym, acc) ∈ t := by
  unfold symbolOf? at h
  rw [Option.map_eq_some_iff] at h
  obtain ⟨e, he, rfl⟩ := h
  have h1 := List.mem_of_find?_eq_some he
  have h2 := List.find?_some he
  simp only [decide_eq_true_eq] at h2
  rw [← h2]
  exact h1

end Sys2Proof.Machine
end

