-- ==== Sys2Proof/Laws/Fec.lean ====
section
/-! SUPPORT. The small lemmas of the FEC unit: the sizes of the code matrix (R200), the choice of a row (R207) and the
lengths of blocks and streams (R212, R216). -/

namespace Sys2Proof.Machine

/-! ### The code matrix -/

theorem length_sylvester (k : Nat) : (sylvester k).length = 2 ^ k := by
  induction k with
  | zero => rfl
  | succ k ih =>
    simp only [sylvester, List.length_append, List.length_map, ih, Nat.pow_succ]
    omega

theorem length_of_mem_sylvester {k : Nat} {r : List Int} (h : r ∈ sylvester k) : r.length = 2 ^ k := by
  induction k generalizing r with
  | zero =>
    simp only [sylvester, List.mem_singleton] at h
    rw [h]
    rfl
  | succ k ih =>
    simp only [sylvester, List.mem_append, List.mem_map] at h
    rcases h with ⟨x, hx, rfl⟩ | ⟨x, hx, rfl⟩ <;>
      simp only [List.length_append, List.length_map, ih hx, Nat.pow_succ] <;> omega

/-- Every entry of the Sylvester matrix is +1 or −1. -/
theorem entry_of_mem_sylvester {k : Nat} {r : List Int} (h : r ∈ sylvester k) : ∀ x ∈ r, x = 1 ∨ x = -1 := by
  induction k generalizing r with
  | zero =>
    simp only [sylvester, List.mem_singleton] at h
    subst h
    simp
  | succ k ih =>
    simp only [sylvester, List.mem_append, List.mem_map] at h
    rcases h with ⟨y, hy, rfl⟩ | ⟨y, hy, rfl⟩
    · intro x hx
      rcases List.mem_append.1 hx with hx | hx <;> exact ih hy x hx
    · intro x hx
      rcases List.mem_append.1 hx with hx | hx
      · exact ih hy x hx
      · obtain ⟨z, hz, rfl⟩ := List.mem_map.1 hx
        rcases ih hy z hz with rfl | rfl
        · exact .inr rfl
        · exact .inl rfl

@[simp] theorem length_hadamard (n : Nat) : (hadamard n).length = 2 ^ n := by
  rw [hadamard, List.length_map, length_sylvester]

theorem length_row {n i : Nat} (h : i < 2 ^ n) : (row n i).length = 2 ^ n := by
  have hi : i < (hadamard n).length := by rwa [length_hadamard]
  unfold row
  rw [List.getD_eq_getElem _ _ hi]
  have hm := List.getElem_mem hi
  unfold hadamard at hm
  obtain ⟨r, hr, he⟩ := List.mem_map.1 hm
  have hl := congrArg List.length he
  rw [List.length_map, length_of_mem_sylvester hr] at hl
  exact hl.symm

/-! ### Blocks -/

theorem agreement_le_left (a b : BitString) : agreement a b ≤ a.length := by
  unfold agreement
  refine List.count_le_length.trans ?_
  rw [List.length_zipWith]
  exact Nat.min_le_left _ _

/-- The chosen row: a row, of greatest agreement, and the least such (R207). -/
theorem bestRow_spec (n : Nat) (r : BitString) :
    bestRow n r < 2 ^ n ∧ ∀ i, i < 2 ^ n → agreement (row n i) r ≤ agreement (row n (bestRow n r)) r ∧
      (i < bestRow n r → agreement (row n i) r < agreement (row n (bestRow n r)) r) := by
  have hrow : bestRow n r = ((List.range (2 ^ n)).argmax fun i => agreement (row n i) r).getD 0 := rfl
  have hpos : 0 < 2 ^ n := Nat.two_pow_pos n
  rw [hrow]
  cases hm : (List.range (2 ^ n)).argmax fun i => agreement (row n i) r with
  | none =>
    rw [List.argmax_eq_none] at hm
    have := congrArg List.length hm
    rw [List.length_range, List.length_nil] at this
    omega
  | some m =>
    have hmm : m < 2 ^ n := List.mem_range.1 (List.argmax_mem hm)
    refine ⟨hmm, fun i hi => ⟨List.le_of_mem_argmax (List.mem_range.2 hi) hm, fun hlt => ?_⟩⟩
    by_contra hle
    have hidx := List.index_of_argmax hm (List.mem_range.2 hi) (Nat.not_lt.1 hle)
    have hx : ∀ x, x < 2 ^ n → (List.range (2 ^ n)).idxOf x = x := by
      intro x hx
      have hlen : x < (List.range (2 ^ n)).length := by rwa [List.length_range]
      have h := List.Nodup.idxOf_getElem (List.nodup_range (n := 2 ^ n)) x hlen
      rwa [List.getElem_range] at h
    rw [hx m hmm, hx i hi] at hidx
    simp only [Option.getD_some] at hlt
    omega

@[simp] theorem length_decBlock_payload (n : Nat) (r : BitString) : (decBlock n r).payload.length = n := length_bin _ _

theorem decBlock_dist_le (n : Nat) (r : BitString) : (decBlock n r).dist ≤ 2 ^ n := Nat.sub_le _ _

theorem length_block (w : Nat) (s : BitString) (j : Nat) : (block w s j).length = min w (s.length - j * w) := by
  simp [block]

/-! ### Streams -/

/-- FEC_ENCODE appends fewer than N zeros, up to a multiple of N (R212). -/
theorem fecPadOf_spec {n : Nat} (h : 1 ≤ n) (len : Nat) : fecPadOf n len < n ∧ (len + fecPadOf n len) % n = 0 := by
  unfold fecPadOf
  refine ⟨Nat.mod_lt _ (by omega), ?_⟩
  have hlt := Nat.mod_lt len (show n > 0 by omega)
  rw [Nat.add_mod, Nat.mod_mod, ← Nat.add_mod]
  have hk := Nat.div_add_mod len n
  have : len + (n - len % n) = n * (len / n + 1) := by
    rw [Nat.mul_add, Nat.mul_one]
    omega
  rw [this, Nat.mul_mod_right]

/-- A payload of n bits names a row, so its codeword has 2^n bits. -/
theorem length_encBlock {n : Nat} {p : BitString} (h : p.length = n) : (encBlock n p).length = 2 ^ n := by
  subst h
  exact length_row (val_lt p)

/-- Block j of blocks of one width put end to end is the j-th block. -/
theorem take_drop_flatMap_range {w : Nat} (f : Nat → BitString) (hf : ∀ j, (f j).length = w) {b j : Nat} (hj : j < b) :
    (((List.range b).flatMap f).drop (j * w)).take w = f j := by
  induction b generalizing f j with
  | zero => omega
  | succ b ih =>
    rw [List.range_succ_eq_map, List.flatMap_cons, List.flatMap_map]
    cases j with
    | zero =>
      rw [Nat.zero_mul, List.drop_zero]
      exact List.take_left' (hf 0)
    | succ j =>
      rw [List.drop_append, hf]
      have : (j + 1) * w - w = j * w := by rw [Nat.succ_mul]; omega
      rw [this, List.drop_eq_nil_of_le (by rw [hf, Nat.succ_mul]; omega), List.nil_append]
      exact ih (fun k => f (k + 1)) (fun k => hf _) (by omega)

end Sys2Proof.Machine
end

