-- ==== Sys2Proof/Laws/HostPort.lean ====
section
/-! SUPPORT. The address map as arithmetic (R61, R64, R68) and what a host transaction can change (R62, R63, R71, R75). -/

namespace Sys2Proof.Machine

open Sys2Proof.Safety

/-! ### The address map -/

theorem target_reg (r : RegName) : target r.offset .b4 = .reg r := by cases r <;> rfl

theorem toNat_bufOffset {a : Nat} (h : a < 65536) : (bufOffset a).toNat = 0x10000 + a := by
  unfold bufOffset
  rw [BitVec.toNat_ofNat]
  omega

theorem toNat_tableOffset (sym : Byte) {k : Nat} (h : k < 64) : (tableOffset sym k).toNat = 0x2000 + 64 * sym.toNat + k := by
  unfold tableOffset
  have := sym.isLt
  rw [BitVec.toNat_ofNat]
  omega

theorem target_bufByte {a : Nat} (h : a < 65536) : target (bufOffset a) .b1 = .bufByte a := by
  unfold target
  rw [toNat_bufOffset h, if_pos (by omega)]
  simp [bufTarget]

theorem target_bufWord {a : Nat} (h : a < 65536) (ha : a % 4 = 0) : target (bufOffset a) .b4 = .bufWord a := by
  unfold target
  rw [toNat_bufOffset h, if_pos (by omega)]
  simp [bufTarget, ha]

theorem wordTarget_table (sym : Byte) {k : Nat} (h : k < 64) :
    wordTarget (0x2000 + 64 * sym.toNat + k) = tableTarget sym k := by
  have hs := sym.isLt
  unfold wordTarget
  rw [if_neg (by omega), if_neg (by omega), if_neg (by omega), if_pos (by omega)]
  have h1 : (0x2000 + 64 * sym.toNat + k - 0x2000) / 64 = sym.toNat := by omega
  have h2 : (0x2000 + 64 * sym.toNat + k - 0x2000) % 64 = k := by omega
  rw [h1, h2, BitVec.ofNat_toNat, BitVec.setWidth_eq]

theorem target_elen (sym : Byte) : target (tableOffset sym 0) .b4 = .elen sym := by
  have hs := sym.isLt
  unfold target
  rw [toNat_tableOffset sym (by omega), if_neg (by omega), if_pos ⟨rfl, by omega⟩, wordTarget_table sym (by omega)]
  rfl

theorem target_code (sym : Byte) {k : Nat} (h : k < 8) :
    target (tableOffset sym (0x20 + 4 * k)) .b4 = .code sym (BitVec.ofNat 3 k) := by
  have hs := sym.isLt
  unfold target
  rw [toNat_tableOffset sym (by omega), if_neg (by omega), if_pos ⟨rfl, by omega⟩, wordTarget_table sym (by omega)]
  unfold tableTarget
  rw [if_neg (by omega), if_pos (by omega), show (0x20 + 4 * k - 0x20) / 4 = k by omega]

theorem target_freq (sym : Byte) : target (BitVec.ofNat 17 (0x1000 + 4 * sym.toNat)) .b4 = .freq sym := by
  have hs := sym.isLt
  have hn : (BitVec.ofNat 17 (0x1000 + 4 * sym.toNat)).toNat = 0x1000 + 4 * sym.toNat := by
    rw [BitVec.toNat_ofNat]
    omega
  unfold target
  rw [hn, if_neg (by omega), if_pos ⟨rfl, by omega⟩]
  unfold wordTarget
  rw [if_neg (by omega), if_pos (by omega), show (0x1000 + 4 * sym.toNat - 0x1000) / 4 = sym.toNat by omega,
    BitVec.ofNat_toNat, BitVec.setWidth_eq]

/-- The targets a running command guards are those of the reads that R75.3 hides. -/
theorem guarded_target_iff (off : Offset) (size : Size) : (target off size).guarded = true ↔ HiddenRead off size := by
  have hlt := off.isLt
  unfold HiddenRead TableAccess FreqAccess BufAccess target
  split
  · rename_i h
    cases size <;> simp only [bufTarget]
    · simp [Target.guarded, h]
    · simp [Target.guarded]
    · split <;> (simp [Target.guarded, h]; omega)
  · rename_i h
    split
    · rename_i h4
      obtain ⟨rfl, h4⟩ := h4
      unfold wordTarget
      split
      · split <;> (simp [Target.guarded, h]; omega)
      · split
        · simp [Target.guarded, h]; omega
        · split
          · simp [Target.guarded, h]; omega
          · split
            · unfold tableTarget
              split
              · simp [Target.guarded, h]; omega
              · split <;> (simp [Target.guarded, h]; omega)
            · simp [Target.guarded, h]; omega
    · simp [Target.guarded, h]
      cases size <;> simp at *
      omega

/-- No word below the BUF window is a BUF target. -/
theorem wordTarget_not_buf (o a : Nat) : wordTarget o ≠ .bufByte a ∧ wordTarget o ≠ .bufWord a := by
  unfold wordTarget tableTarget
  split
  · cases regAt (o / 4) <;> exact ⟨nofun, nofun⟩
  · split
    · exact ⟨nofun, nofun⟩
    · split
      · exact ⟨nofun, nofun⟩
      · split
        · split
          · exact ⟨nofun, nofun⟩
          · split <;> exact ⟨nofun, nofun⟩
        · exact ⟨nofun, nofun⟩

/-- An access reaches BUF only inside its 65536 addresses. -/
theorem bound_of_target_bufByte {off : Offset} {size : Size} {a : Nat} (h : target off size = .bufByte a) : a < 65536 := by
  have ho := off.isLt
  unfold target at h
  split at h
  · generalize hx : off.toNat - 0x10000 = x at h
    cases size
    · simp only [bufTarget, Target.bufByte.injEq] at h
      omega
    · simp only [bufTarget, reduceCtorEq] at h
    · simp only [bufTarget] at h
      split at h <;> simp only [reduceCtorEq] at h
  · split at h
    · exact absurd h (wordTarget_not_buf _ _).1
    · simp only [reduceCtorEq] at h

/-- A word access reaches BUF only at four addresses inside it. -/
theorem bound_of_target_bufWord {off : Offset} {size : Size} {a : Nat} (h : target off size = .bufWord a) :
    a % 4 = 0 ∧ a + 4 ≤ 65536 := by
  have ho := off.isLt
  unfold target at h
  split at h
  · generalize hx : off.toNat - 0x10000 = x at h
    cases size
    · simp only [bufTarget, reduceCtorEq] at h
    · simp only [bufTarget, reduceCtorEq] at h
    · simp only [bufTarget] at h
      split at h
      · simp only [Target.bufWord.injEq] at h
        omega
      · simp only [reduceCtorEq] at h
  · split at h
    · exact absurd h (wordTarget_not_buf _ _).2
    · simp only [reduceCtorEq] at h

/-! ### What a transaction can change -/

theorem whileIdle_busy {s : State} (act : State → State) (h : s.busy = true) : s.whileIdle act = s.markHazard := by
  rw [State.whileIdle, if_pos h]

theorem whileIdle_idle {s : State} (act : State → State) (h : s.busy = false) : s.whileIdle act = act s := by
  rw [State.whileIdle, if_neg (by simp [h])]

/-- Byte lane q of a little-endian word is its byte q (R69). -/
theorem extractLsb'_leWord (b : Nat → Byte) {q : Nat} (h : q < 4) :
    (leWord (b 0) (b 1) (b 2) (b 3)).extractLsb' (8 * q) 8 = b q := by
  unfold leWord
  apply BitVec.eq_of_getLsbD_eq
  intro i hi
  rw [BitVec.getLsbD_extractLsb']
  simp only [hi, decide_true, Bool.true_and, BitVec.getLsbD_append]
  interval_cases q <;> interval_cases i <;> rfl

/-- A read changes only what the port returns and HAZ (R71). -/
theorem readTarget_frame (s : State) (t : Target) :
    s.readTarget t = { s with haz := (s.readTarget t).haz, rdata := (s.readTarget t).rdata } := by
  unfold State.readTarget
  split <;> rfl

/-- While no command runs, a read changes only what the port returns. -/
theorem readTarget_idle {s : State} (t : Target) (h : s.busy = false) : s.readTarget t = s.setRdata (s.windowRead t) := by
  simp [State.readTarget, h]

/-- While a command runs, a register write changes only HAZ, DONE and IRQ_EN (R75). -/
theorem regWrite_busy {s : State} (r : RegName) (v : Word) (h : s.busy = true) :
    s.regWrite r v = { s with haz := (s.regWrite r v).haz, done := (s.regWrite r v).done, irqEn := (s.regWrite r v).irqEn } := by
  cases r <;> simp only [State.regWrite, whileIdle_busy _ h] <;> rfl

/-- While a command runs, a write changes only HAZ, DONE and IRQ_EN (R75). -/
theorem writeTarget_busy {s : State} (t : Target) (v : Word) (h : s.busy = true) :
    s.writeTarget t v =
      { s with haz := (s.writeTarget t v).haz, done := (s.writeTarget t v).done, irqEn := (s.writeTarget t v).irqEn } := by
  cases t with
  | dropped => rfl
  | reg r => exact regWrite_busy r v h
  | freq sym => rfl
  | elen sym => simp only [State.writeTarget, whileIdle_busy _ h]; rfl
  | code sym w => simp only [State.writeTarget, whileIdle_busy _ h]; rfl
  | bufByte a => simp only [State.writeTarget, whileIdle_busy _ h]; rfl
  | bufWord a => simp only [State.writeTarget, whileIdle_busy _ h]; rfl

/-- While a command runs, a transaction changes only HAZ, DONE, IRQ_EN and what the port returns (R72, R75). -/
theorem access_busy {s : State} (a : Access) (h : s.busy = true) :
    s.access a = { s with haz := (s.access a).haz, done := (s.access a).done, irqEn := (s.access a).irqEn, rdata := (s.access a).rdata } := by
  cases a with
  | read off size =>
    have hf := readTarget_frame s (target off size)
    rw [State.access, hf]
  | write off size v =>
    have hf := writeTarget_busy (target off size) v h
    rw [State.access, hf]

/-- What a write can do to BUF: nothing, or bytes written inside BUF. -/
theorem writeTarget_buf_cases {s : State} {t : Target} (v : Word)
    (hb : ∀ a, t = .bufByte a → a < 65536) (hw : ∀ a, t = .bufWord a → a + 4 ≤ 65536) :
    (s.writeTarget t v).buf = s.buf ∨
    ∃ x bs, (s.writeTarget t v).buf = s.buf.putAll x bs ∧ x + bs.length ≤ Config.bufBytes := by
  cases hbusy : s.busy with
  | true => exact .inl (by rw [writeTarget_busy t v hbusy])
  | false =>
    cases t with
    | dropped => exact .inl rfl
    | reg r => exact .inl (by cases r <;> (simp only [State.writeTarget, State.regWrite, whileIdle_idle _ hbusy]; try rfl))
    | freq sym => exact .inl rfl
    | elen sym => exact .inl (by simp only [State.writeTarget, whileIdle_idle _ hbusy]; rfl)
    | code sym w => exact .inl (by simp only [State.writeTarget, whileIdle_idle _ hbusy]; rfl)
    | bufByte a =>
      exact .inr ⟨a, [lane v 0], by simp only [State.writeTarget, whileIdle_idle _ hbusy]; rfl, hb a rfl⟩
    | bufWord a =>
      exact .inr ⟨a, lanes v, by simp only [State.writeTarget, whileIdle_idle _ hbusy]; rfl, hw a rfl⟩

/-- What a transaction can do to BUF: nothing, or bytes written inside BUF. -/
theorem access_buf_cases (s : State) (a : Access) :
    (s.access a).buf = s.buf ∨
    ∃ x bs, (s.access a).buf = s.buf.putAll x bs ∧ x + bs.length ≤ Config.bufBytes := by
  cases a with
  | read off size => exact .inl (by rw [State.access, readTarget_frame])
  | write off size v =>
    exact writeTarget_buf_cases v (fun _ h => bound_of_target_bufByte h) fun _ h => (bound_of_target_bufWord h).2

/-- A transaction keeps BUF's canonical form. -/
theorem access_wf {s : State} (a : Access) (h : s.buf.wf) : (s.access a).buf.wf := by
  rcases access_buf_cases s a with he | ⟨x, bs, he, hx⟩
  · rw [he]; exact h
  · rw [he]; exact Memory.putAll_wf bs h (.inr hx)

/-- The polling loop reads STATUS once a move, and stands while BUSY = 1 (R97). -/
theorem hostTurn_wait {s : State} {ops : List HostOp} (h : s.host = .wait :: ops) :
    s.hostTurn = { s with rdata := s.statusWord, host := if s.busy then s.host else ops } := by
  unfold State.hostTurn State.readTarget
  simp only [h, Target.guarded, Bool.and_false, Bool.false_eq_true, if_false]
  cases hb : s.busy with
  | true =>
    simp only [if_true]
    rw [← h]
    rfl
  | false =>
    simp only [Bool.false_eq_true, if_false]
    rfl

end Sys2Proof.Machine
end

