-- ==== Sys2Proof/Laws/PerInstr.lean ====
section
/-! SUPPORT. Statements about every command as syntax, one lemma per command (LAWS.json). -/

namespace Sys2Proof.Laws.EncodingFits

/-- The encoding of a command has RSV = 0 and a word of its own below 0x24 (R90, R92, R93). -/
def Statement (i : Instr) : Prop :=
  rsvField (encode i) = 0 ∧ opField (encode i) = opcode i ∧ commandOf (opcode i) = some i ∧ (encode i).toNat < 0x24

theorem nop : Statement .nop := by unfold Statement; decide
theorem buildTable : Statement .buildTable := by unfold Statement; decide
theorem tableClear : Statement .tableClear := by unfold Statement; decide
theorem compress : Statement .compress := by unfold Statement; decide
theorem decompress : Statement .decompress := by unfold Statement; decide
theorem pack : Statement .pack := by unfold Statement; decide
theorem unpack : Statement .unpack := by unfold Statement; decide
theorem encodeBlock : Statement .encodeBlock := by unfold Statement; decide
theorem decodeBlock : Statement .decodeBlock := by unfold Statement; decide
theorem fecEncode : Statement .fecEncode := by unfold Statement; decide
theorem fecDecode : Statement .fecDecode := by unfold Statement; decide

end Sys2Proof.Laws.EncodingFits
end

