-- ==== Sys2Proof/Tests/Slice0.lean ====
section
/-! SUPPORT. Tests of one step each, their expected results taken from spec/95_test_vectors.md (named T1 to T11, S1 to S14, P4) or
computed by hand from the rule named, and one witness for every statement with hypotheses. -/

namespace Sys2Proof.Tests

open Sys2Proof.Machine Sys2Proof.Safety

/-! ### Helpers -/

/-- Reset with bytes placed in BUF from address 0, SRC_LEN set and DST_ADDR = 0x100. -/
def withSource (bytes : ByteString) (srcLen : Word) : State :=
  { State.reset.writeBytes 0 bytes with srcLen := srcLen, dstAddr := 0x100 }

/-- That state with a code table stored. -/
def withTable (bytes : ByteString) (srcLen : Word) (codes : CodeTable) : State :=
  (withSource bytes srcLen).setTable (ramOf codes)

/-- That state with N set. -/
def withN (n : BitVec 4) (bytes : ByteString) (srcLen : Word) : State := { withSource bytes srcLen with n := n }

/-- What is read from the next state of a command. -/
def after {α : Type} (i : Instr) (s : State) (f : State → α) : Option α :=
  match exec i s with
  | .next t => some (f t)
  | _ => none

/-- STATUS, DST_LEN and some bytes at 0x100. -/
def result (k : Nat) (t : State) : Word × Word × ByteString := (t.statusWord, t.dstLen, t.readBytes 0x100 k)

/-- {41: "0", 42: "1"}. -/
def tableAB : CodeTable := [(0x41, [false]), (0x42, [true])]

/-- "AAAB". -/
def aaab : ByteString := [0x41, 0x41, 0x41, 0x42]

/-! ### Words, each written out from R90 and R92 -/

theorem test_decode_nop : decode 0b00000000000000000000000000000000 = .ok .nop := by decide
theorem test_decode_build_table : decode 0b00000000000000000000000000000001 = .ok .buildTable := by decide
theorem test_decode_table_clear : decode 0b00000000000000000000000000000010 = .ok .tableClear := by decide
theorem test_decode_compress : decode 0b00000000000000000000000000000011 = .ok .compress := by decide
theorem test_decode_decompress : decode 0b00000000000000000000000000000100 = .ok .decompress := by decide
theorem test_decode_pack : decode 0b00000000000000000000000000010000 = .ok .pack := by decide
theorem test_decode_unpack : decode 0b00000000000000000000000000010001 = .ok .unpack := by decide
theorem test_decode_encode_block : decode 0b00000000000000000000000000100000 = .ok .encodeBlock := by decide
theorem test_decode_decode_block : decode 0b00000000000000000000000000100001 = .ok .decodeBlock := by decide
theorem test_decode_fec_encode : decode 0b00000000000000000000000000100010 = .ok .fecEncode := by decide
theorem test_decode_fec_decode : decode 0b00000000000000000000000000100011 = .ok .fecDecode := by decide
theorem test_decode_reserved_bits : decode 0x00000105 = .error .reservedBits := by decide
theorem test_decode_reserved_opcode : decode 0x00000024 = .error .reservedOpcode := by decide
theorem test_decode_table_word : decodeTableWord 32 0x23 = some .fecDecode := by decide
theorem test_fetch_word_runs : step (State.reset.withFetchWord 32 0x00) = exec .nop (State.reset.withFetchWord 32 0x00) := rfl

/-! ### Well-formedness: an ill-formed term for each check -/

theorem test_wf_word_reserved_bits : wordWf 0x00000105 = false := by decide
theorem test_wf_word_reserved_opcode : wordWf 0x00000005 = false := by decide
theorem test_wf_write_byte_address : (HostLine.writeByte 65536 0).wf = false := by decide
theorem test_wf_read_byte_address : (HostLine.readByte 65536).wf = false := by decide
theorem test_wf_write_word_address : (HostLine.writeWord 65536 0).wf = false := by decide
theorem test_wf_write_word_alignment : (HostLine.writeWord 2 0).wf = false := by decide
theorem test_wf_table_length : (HostLine.writeTable 0x41 0x100 []).wf = false := by decide
theorem test_wf_table_code : (HostLine.writeTable 0x41 1 (List.replicate 33 0)).wf = false := by decide
theorem test_wf_good_lines : (HostLine.writeWord 65532 0).wf = true ∧ (HostLine.writeTable 0x41 255 (List.replicate 32 0)).wf = true ∧
    (Instr.nop).wf = true := by decide

/-! ### The host port (T11, T2, R97) -/

theorem test_read_id : (State.reset.access (.read 0x00000 .b4)).rdata = 0x53464843 := by decide
theorem test_read_two_bytes : (State.reset.access (.read 0x00000 .b2)).rdata = 0 := by decide
theorem test_write_id : ((State.reset.access (.write 0x00000 .b4 0)).access (.read 0x00000 .b4)).rdata = 0x53464843 := by decide
theorem test_write_n : ((State.reset.access (.write 0x00024 .b4 0x12345678)).access (.read 0x00024 .b4)).rdata = 8 := by decide
theorem test_write_block_bytes : ((State.reset.access (.write 0x00028 .b4 0x100)).access (.read 0x00028 .b4)).rdata = 0 := by decide
theorem test_write_ctrl : ((State.reset.access (.write 0x00008 .b4 0xFFFFFFFF)).access (.read 0x00008 .b4)).rdata = 1 := by decide
theorem test_misaligned_buf_write : (State.reset.access (.write 0x10002 .b4 1)).buf = [] := by decide
theorem test_table_window : ((State.reset.setTable (ramOf tableAB)).access (.read 0x030A0 .b4)).rdata = 0x80 ∧
    ((State.reset.setTable (ramOf tableAB)).access (.read 0x03080 .b4)).rdata = 1 := by decide +kernel
theorem test_run_expands : (HostLine.run .compress).expand =
    [.access (.write 0x00010 .b4 0x00000003), .wait] := by decide
theorem test_write_table_expands : (HostLine.writeTable 0x42 1 [0x80]).expand =
    [.access (.write 0x03080 .b4 1), .access (.write 0x030A0 .b4 0x80)] := by decide
theorem test_wait_stands : (({ State.reset.issue 0 with host := [.wait] }).hostTurn).host = [.wait] := by decide
theorem test_wait_goes : (({ State.reset with host := [.wait] }).hostTurn).host = [] := by decide

/-! ### The commands -/

/-- R120: from HAZ = 0 a NOP leaves STATUS = 0x00000002, from HAZ = 1 it leaves 0x00000006. -/
theorem test_nop_status : after .nop State.reset State.statusWord = some 0x00000002 ∧
    after .nop State.reset.markHazard State.statusWord = some 0x00000006 := by decide

/-- S1, T2. -/
theorem test_build_table_aaab : after .buildTable (withSource aaab 4) (fun t =>
    (tableOf t.table, ramGet t.freq 0x41, ramGet t.freq 0x42, t.statusWord)) = some (tableAB, 3, 1, 0x00000002) := by
  decide +kernel

/-- T1: 00 00 00 01 01 02 03 04 05 06, the codes of 02, 04 and 06. -/
theorem test_build_codes_split : let t := buildCodes [0, 0, 0, 1, 1, 2, 3, 4, 5, 6]
    t.lookup 2 = some [true, false, false] ∧ t.lookup 4 = some [true, true, false] ∧
    t.lookup 6 = some [true, true, true, true] := by decide +kernel

/-- T4. -/
theorem test_table_clear_keeps_freq : after .tableClear ((withTable aaab 4 tableAB).setFreq (freqRamOf (freqOf aaab)))
    (fun t => (t.tableCount, ramGet t.freq 0x41)) = some (0, 3) := by decide +kernel

/-- T1: "ABC" with its table gives "01011", byte 58. -/
theorem test_compress_abc : after .compress
    (withTable [0x41, 0x42, 0x43] 3 [(0x41, [false]), (0x42, [true, false]), (0x43, [true, true])]) (result 1) =
    some (0x00000002, 5, [0x58]) := by decide +kernel

/-- T3: "AB" with the one-entry table {41: "0"} raises SYMBOL_ABSENT for 0x42. -/
theorem test_compress_absent : after .compress (withTable [0x41, 0x42] 2 [(0x41, [false])])
    (fun t => (t.statusWord, t.errInfo)) = some (0x00000602, 0x42) := by decide +kernel

/-- T5: {41: "0", 42: "01"} on "01" gives "A" and TAIL. -/
theorem test_decompress_greedy : after .decompress (withTable [0x40] 2 [(0x41, [false]), (0x42, [false, true])]) (result 1) =
    some (0x00020002, 1, [0x41]) := by decide +kernel

/-- T5: duplicate codes. -/
theorem test_decompress_bad_table : after .decompress (withTable [0x40] 2 [(0x41, [false]), (0x42, [false])])
    State.statusWord = some 0x00000502 := by decide +kernel

/-- T6: "1" with B = 3. -/
theorem test_pack_three : after .pack { withSource [0x80] 1 with blockBytes := 3 } (result 3) =
    some (0x00000002, 3, [0x80, 0x02, 0x02]) := by decide +kernel

/-- T6u: valid padding of three bytes. -/
theorem test_unpack_valid : after .unpack (withSource [0x41, 0x02, 0x03, 0x03, 0x03] 5) (result 2) =
    some (0x00000002, 16, [0x41, 0x02]) := by decide +kernel

/-- T6u: invalid padding. -/
theorem test_unpack_fault : after .unpack (withSource [0x41, 0x03, 0x02, 0x03] 4) (result 4) =
    some (0x00040002, 32, [0x41, 0x03, 0x02, 0x03]) := by decide +kernel

/-- T7e: N = 3, payload "101". -/
theorem test_encode_block_three : after .encodeBlock (withN 3 [0xA0] 3) (fun t => (result 1 t, t.blkIndex)) =
    some ((0x00000002, 8, [0xA5]), 5) := by decide +kernel

/-- T8.4: N = 2, "0000", a tie of three rows. -/
theorem test_decode_block_tie : after .decodeBlock (withN 2 [0x00] 4)
    (fun t => (t.blkIndex, t.blkAgree, t.errCorr, t.readBytes 0x100 1)) = some (1, 2, 2, [0x40]) := by decide +kernel

/-- T8.4d: N = 3, row 5 with bit 0 flipped. -/
theorem test_decode_block_flip : after .decodeBlock (withN 3 [0x25] 8)
    (fun t => (t.blkIndex, t.blkAgree, t.errCorr, t.readBytes 0x100 1)) = some (5, 7, 1, [0xA0]) := by decide +kernel

/-- T9: N = 3 on 41 05. -/
theorem test_fec_encode_three : after .fecEncode (withN 3 [0x41, 0x05] 16)
    (fun t => (result 6 t, t.fecOrigLen, t.fecPad)) =
    some ((0x00000002, 48, [0xCC, 0xFF, 0xCC, 0xFF, 0xCC, 0xF0]), 16, 2) := by decide +kernel

/-- T10: N = 2 on "110011" with FEC_ORIG_LEN = 3: TRUNC and SHORT. -/
theorem test_fec_decode_short : after .fecDecode { withN 2 [0xCC] 6 with fecOrigLen := 3 }
    (fun t => (result 1 t, t.errCorr)) = some ((0x00180002, 2, [0x80]), 0) := by decide +kernel

/-- T10: N = 1 on the byte-rounded "10110000" with FEC_ORIG_LEN = 2. -/
theorem test_fec_decode_rounded : after .fecDecode { withN 1 [0xB0] 8 with fecOrigLen := 2 }
    (fun t => (result 1 t, t.errCorr)) = some ((0x00000002, 2, [0x80]), 2) := by decide +kernel

/-! ### Witnesses: a state and operands that meet a statement's hypotheses -/

theorem witness_IllegalWordCompletesWithBadCmd :
    (0x105 : Word).toNat ∉ [0x00, 0x01, 0x02, 0x03, 0x04, 0x10, 0x11, 0x20, 0x21, 0x22, 0x23] ∧
    ((State.reset.issue 0x105).pend = .running 0x105 ∧ (State.reset.issue 0x105).turns = [] ∧ ([] : List Turn) = []) ∧
    ((State.reset.issue 0x105).setTurns [.engine, .host]).pend = .running 0x105 ∧
    ((State.reset.issue 0x105).setTurns [.engine, .host]).turns = .engine :: [.host] := by decide

theorem witness_StepRunsTheDecodedCommand : (State.reset.issue 3).pend = .running 3 ∧ decode 3 = .ok .compress ∧
    (State.reset.issue 3).turns = [] ∧ ((State.reset.issue 3).setTurns [.engine, .host]).turns = .engine :: [.host] := by decide

theorem witness_CmdWriteIssues : State.reset.pend = .idle ∧ (State.reset.issue 0).busy = true := by decide

theorem witness_ResetInputRestoresReset : ((State.reset.issue 0).setTurns [.reset]).turns = .reset :: [] := rfl

theorem witness_StepKeepsInvariant : Inv (State.reset.issue 0) ∧ ∃ t, step (State.reset.issue 0) = .next t :=
  ⟨{ bufCanonical := by decide
     runningIsClear := by decide
     errorHasNoFlag := by decide
     flagsExclusive := by decide
     errInfoIsAByte := by decide
     errInfoOnlyForAbsent := by decide
     dstLenBound := by decide
     errCorrBound := by decide
     fecPadBound := by decide
     blkAgreeBound := by decide
     freqBound := by
       intro sym
       have h : ramGet (State.reset.issue 0).freq sym = 0 := by simp [ramGet, State.reset]
       rw [h]
       decide }, _, rfl⟩

theorem witness_IssuedCommandCompletesAsAtIssue : ((State.reset.issue 3).setTurns [.host, .host]).pend = .running 3 ∧
    decode 3 = .ok .compress ∧ Turn.reset ∉ ((State.reset.issue 3).setTurns [.host, .host]).turns ∧
    ((State.reset.issue 0x24).setTurns [.host, .engine]).pend = .running 0x24 ∧ decode 0x24 = .error .reservedOpcode ∧
    Turn.reset ∉ ((State.reset.issue 0x24).setTurns [.host, .engine]).turns := by decide

theorem witness_AccessRulesWhileBusy : (State.reset.issue 0).busy = true ∧
    RegName.fecOrigLen ∈ [RegName.cmd, .srcAddr, .srcLen, .dstAddr, .n, .blockBytes, .fecOrigLen] ∧ 7 < 8 ∧ 65535 < 65536 ∧
    65532 < 65536 ∧ 65532 % 4 = 0 ∧ DroppedAccess 0x00048 .b4 ∧ DroppedAccess 0x0FFFC .b4 ∧ DroppedAccess 0x1FFFE .b4 ∧
    0x1000 ≤ (0x01000 : Offset).toNat ∧ (0x01000 : Offset).toNat < 0x1400 ∧
    RegName.id ∈ [RegName.id, .version, .dstLen, .fecPad, .errCorr, .tableCount, .blkIndex, .blkAgree, .errInfo] := by
  refine ⟨?_, ?_, ?_, ?_, ?_, ?_, ?_, ?_, ?_, ?_, ?_, ?_⟩ <;> decide

theorem witness_DroppedAccessesChangeNothing : DroppedAccess 0x00FFC .b4 ∧ DroppedAccess 0x01400 .b4 ∧ DroppedAccess 0x05FC4 .b4 ∧
    DroppedAccess 0x06000 .b1 ∧ DroppedAccess 0x00000 .b1 ∧ DroppedAccess 0x10000 .b2 ∧ DroppedAccess 0x10001 .b4 ∧
    0x1000 ≤ (0x013FC : Offset).toNat ∧ (0x013FC : Offset).toNat < 0x1400 ∧
    RegName.errInfo ∈ [RegName.id, .version, .dstLen, .fecPad, .errCorr, .tableCount, .blkIndex, .blkAgree, .errInfo] := by
  refine ⟨?_, ?_, ?_, ?_, ?_, ?_, ?_, ?_, ?_, ?_⟩ <;> decide

/-- A running command, the host's turn and a CMD write: HAZ is set. -/
def hazardRun : State := { State.reset.issue 0 with host := [.access (.write 0x00010 .b4 0)], turns := [.host] }

/-- HAZ set and a W1C write of it. -/
def hazardClear : State := { State.reset with haz := true, host := [.access (.write 0x0000C .b4 4)] }

theorem witness_HazardChangesOnlyByItsRule :
    (∃ t, step hazardRun = .next t ∧ hazardRun.haz = false ∧ t.haz = true) ∧
    (∃ t, step hazardClear = .next t ∧ hazardClear.haz = true ∧ t.haz = false) ∧
    ∃ t, step { hazardClear with turns := [.reset] } = .next t ∧ t.haz = false :=
  ⟨⟨_, rfl, rfl, by decide⟩, ⟨_, rfl, rfl, by decide⟩, ⟨_, rfl, by decide⟩⟩

theorem ne_of_entry {α : Type} {v w : Vector α 256} (sym : Byte) (h : ramGet v sym ≠ ramGet w sym) : v ≠ w :=
  fun hvw => h (hvw ▸ rfl)

/-- For HazardChangesOnlyByItsRule and ReadsHaveNoSideEffects: accesses at the edges of what a running command guards, and
beside them. -/
theorem witness_guarded_accesses : HiddenRead 0x013FC .b4 ∧ HiddenRead 0x05FFC .b4 ∧ HiddenRead 0x1FFFF .b1 ∧
    ¬ HiddenRead 0x05FC4 .b4 ∧ ¬ HiddenRead 0x00044 .b4 ∧ RefusedWrite 0x0002C .b4 ∧ RefusedWrite 0x02000 .b4 ∧
    RefusedWrite 0x10000 .b4 ∧ ¬ RefusedWrite 0x01000 .b4 ∧ (State.reset.issue 0).busy = true := by
  refine ⟨?_, ?_, ?_, ?_, ?_, ?_, ?_, ?_, ?_, ?_⟩ <;> decide

/-- A running command, the host's turn and a read of a TABLE word: HAZ is set. -/
theorem witness_HazardByARead :
    let s := { State.reset.issue 0 with host := [.access (.read 0x02000 .b4)], turns := [.host] }
    ∃ t, step s = .next t ∧ s.haz = false ∧ t.haz = true := ⟨_, rfl, rfl, by decide⟩

theorem witness_FreqChangesOnlyByBuildTable :
    (∃ t, step ((withSource [0x41] 1).issue 1) = .next t ∧ t.freq ≠ (withSource [0x41] 1).freq) ∧
    ∃ t, step { State.reset.setFreq (freqRamOf (freqOf aaab)) with turns := [.reset] } = .next t ∧
      t.freq ≠ freqRamOf (freqOf aaab) :=
  ⟨⟨_, rfl, ne_of_entry 0x41 (by decide +kernel)⟩, ⟨_, rfl, ne_of_entry 0x41 (by decide +kernel)⟩⟩

theorem witness_TableChangesOnlyByItsWriters :
    (∃ t, step ((withSource [0x41] 1).issue 1) = .next t ∧ t.table ≠ (withSource [0x41] 1).table) ∧
    (∃ t, step ((withTable [] 0 tableAB).issue 2) = .next t ∧ t.table ≠ (withTable [] 0 tableAB).table) ∧
    (∃ t, step { State.reset with host := [.access (.write 0x05FC0 .b4 1)] } = .next t ∧ t.table ≠ State.reset.table) ∧
    ∃ t, step { withTable [] 0 tableAB with turns := [.reset] } = .next t ∧ t.table ≠ (withTable [] 0 tableAB).table :=
  ⟨⟨_, rfl, ne_of_entry 0x41 (by decide +kernel)⟩, ⟨_, rfl, ne_of_entry 0x41 (by decide +kernel)⟩,
    ⟨_, rfl, ne_of_entry 0xFF (by decide +kernel)⟩, ⟨_, rfl, ne_of_entry 0x41 (by decide +kernel)⟩⟩

theorem witness_ResultsChangeOnlyAtCompletion :
    (∃ t, step ((withTable aaab 4 tableAB).issue 3) = .next t ∧ t.dstLen ≠ 0) ∧
    (∃ t, step ((withSource aaab 4).issue 3) = .next t ∧ t.errInfo ≠ 0) ∧
    (∃ t, step ((withN 2 [0xA0] 3).issue 0x22) = .next t ∧ t.fecOrigLen ≠ 0 ∧ t.fecPad ≠ 0) ∧
    ∃ t, step { State.reset with host := [.access (.write 0x0002C .b4 9)] } = .next t ∧ t.fecOrigLen ≠ 0 :=
  ⟨⟨_, rfl, by decide +kernel⟩, ⟨_, rfl, by decide +kernel⟩, ⟨_, rfl, by decide +kernel⟩, ⟨_, rfl, by decide +kernel⟩⟩

/-- For RegisterWritesStoreTheirField, ReadsHaveNoSideEffects, BufWindowAccesses and TableAndFreqWindows. -/
theorem witness_idle_host_port : State.reset.pend = .idle ∧ 65532 < 65536 ∧ 65532 % 4 = 0 ∧ 65535 < 65536 ∧ 7 < 8 ∧ 3 < 4 := by decide

theorem witness_IrqIsALevel : ∃ t, exec .nop { State.reset with irqEn := true } = .next t := ⟨_, rfl⟩

/-- A word with OP = 0 that is not NOP. -/
theorem witness_NopCompletes : (0x100 : Word) ≠ 0 ∧ (0x100 : Word).extractLsb' 0 8 = 0 := by decide

theorem witness_BuildTableCompletes : Fits (withSource aaab 4).srcAddr (withSource aaab 4).srcLen.toNat ∧
    Fits { State.reset with srcAddr := 0xFFFF, srcLen := 1 }.srcAddr 1 ∧ Fits { State.reset with srcAddr := 0xFFFFFFFF }.srcAddr 0 := by
  decide

theorem witness_CompressCompletes : let s := withTable aaab 4 tableAB
    Fits s.srcAddr s.srcLen.toNat ∧
    encodeBytes (tableOf s.table) (s.readBytes s.srcAddr.toNat s.srcLen.toNat) = .ok [false, false, false, true] ∧
    Fits s.dstAddr ((4 + 7) / 8) ∧ Apart s.srcAddr s.srcLen.toNat s.dstAddr ((4 + 7) / 8) := by
  refine ⟨by decide, ?_, by decide, by decide⟩
  have h : (match encodeBytes (tableOf (withTable aaab 4 tableAB).table) ((withTable aaab 4 tableAB).readBytes 0 4) with
    | .ok out => some out
    | .error _ => none) = some [false, false, false, true] := by decide +kernel
  show encodeBytes (tableOf (withTable aaab 4 tableAB).table) ((withTable aaab 4 tableAB).readBytes 0 4) = _
  revert h
  cases encodeBytes (tableOf (withTable aaab 4 tableAB).table) ((withTable aaab 4 tableAB).readBytes 0 4) with
  | ok out => intro h; simpa using h
  | error b => intro h; simp at h

theorem witness_DecompressCompletes : let s := withTable [0x10] 4 tableAB
    Fits s.srcAddr ((s.srcLen.toNat + 7) / 8) ∧
    ((tableOf s.table).length ≤ 1 ∨ ((tableOf s.table).map Prod.snd).Nodup) ∧
    Fits s.dstAddr (decodeBits (tableOf s.table) (s.readBits s.srcAddr.toNat s.srcLen.toNat)).1.length ∧
    Apart s.srcAddr ((s.srcLen.toNat + 7) / 8) s.dstAddr
      (decodeBits (tableOf s.table) (s.readBits s.srcAddr.toNat s.srcLen.toNat)).1.length := by decide +kernel

theorem witness_PackCompletes : let s := withSource [0x10] 4
    s.blockBytes ≠ 0 ∧ Fits s.srcAddr ((s.srcLen.toNat + 7) / 8) ∧
    Fits s.dstAddr (packBits (s.readBits s.srcAddr.toNat s.srcLen.toNat) s.blockBytes.toNat).length ∧
    Apart s.srcAddr ((s.srcLen.toNat + 7) / 8) s.dstAddr
      (packBits (s.readBits s.srcAddr.toNat s.srcLen.toNat) s.blockBytes.toNat).length := by decide +kernel

theorem witness_UnpackCompletes : let s := withSource [0x41, 0x01] 2
    Fits s.srcAddr s.srcLen.toNat ∧
    Fits s.dstAddr ((unpackBytes (s.readBytes s.srcAddr.toNat s.srcLen.toNat)).1.length / 8) ∧
    Apart s.srcAddr s.srcLen.toNat s.dstAddr ((unpackBytes (s.readBytes s.srcAddr.toNat s.srcLen.toNat)).1.length / 8) := by
  decide +kernel

theorem witness_EncodeBlockCompletes : let s := withN 8 [0xFF] 8
    1 ≤ s.n.toNat ∧ s.n.toNat ≤ 8 ∧ s.srcLen.toNat = s.n.toNat ∧ Fits s.srcAddr 1 ∧
    Fits s.dstAddr ((2 ^ s.n.toNat + 7) / 8) ∧ Apart s.srcAddr 1 s.dstAddr ((2 ^ s.n.toNat + 7) / 8) := by decide

theorem witness_DecodeBlockCompletes : let s := withN 1 [0x80] 2
    1 ≤ s.n.toNat ∧ s.n.toNat ≤ 8 ∧ s.srcLen.toNat = 2 ^ s.n.toNat ∧ Fits s.srcAddr ((2 ^ s.n.toNat + 7) / 8) ∧
    Fits s.dstAddr 1 ∧ Apart s.srcAddr ((2 ^ s.n.toNat + 7) / 8) s.dstAddr 1 := by decide

theorem witness_FecEncodeCompletes : let s := withN 2 [0xA0] 3
    1 ≤ s.n.toNat ∧ s.n.toNat ≤ 8 ∧ Fits s.srcAddr ((s.srcLen.toNat + 7) / 8) ∧
    Fits s.dstAddr (((fecEncodeBits s.n.toNat (s.readBits s.srcAddr.toNat s.srcLen.toNat)).length + 7) / 8) ∧
    Apart s.srcAddr ((s.srcLen.toNat + 7) / 8) s.dstAddr
      (((fecEncodeBits s.n.toNat (s.readBits s.srcAddr.toNat s.srcLen.toNat)).length + 7) / 8) := by decide +kernel

theorem witness_FecDecodeCompletes : let s := { withN 2 [0xCC] 8 with fecOrigLen := 3 }
    1 ≤ s.n.toNat ∧ s.n.toNat ≤ 8 ∧ Fits s.srcAddr ((s.srcLen.toNat + 7) / 8) ∧
    Fits s.dstAddr ((min s.fecOrigLen.toNat (s.srcLen.toNat / 2 ^ s.n.toNat * s.n.toNat) + 7) / 8) ∧
    Apart s.srcAddr ((s.srcLen.toNat + 7) / 8) s.dstAddr
      ((min s.fecOrigLen.toNat (s.srcLen.toNat / 2 ^ s.n.toNat * s.n.toNat) + 7) / 8) := by decide

theorem witness_ErrorsArePrecise : ∃ t, exec .pack { State.reset with blockBytes := 0 } = .next t ∧ t.err ≠ .none :=
  ⟨_, rfl, by decide⟩

theorem witness_ErrInfoNamesTheFirstAbsentByte :
    (∃ t, exec .compress (withSource aaab 4) = .next t ∧ t.err = .symbolAbsent) ∧
    ∃ t, exec .nop State.reset = .next t ∧ t.err ≠ .symbolAbsent :=
  ⟨⟨_, rfl, by decide +kernel⟩, ⟨_, rfl, by decide⟩⟩

/-- Each end of the entropy commands' check order is reached: RANGE by source and by destination, SYMBOL_ABSENT, BAD_TABLE,
OVERLAP and success (T3, T5). -/
theorem witness_EntropyCheckOrder :
    after .buildTable { State.reset with srcAddr := 0xFFFF, srcLen := 2 } State.err = some .range ∧
    after .buildTable (withSource [0x41] 1) State.err = some .none ∧
    after .compress { State.reset with srcAddr := 0xFFFF, srcLen := 2 } State.err = some .range ∧
    after .compress (withSource aaab 4) State.err = some .symbolAbsent ∧
    after .compress { withTable [0x41, 0x42] 2 tableAB with dstAddr := 0x10000 } State.err = some .range ∧
    after .compress { withTable [0x41, 0x42] 2 tableAB with dstAddr := 1 } State.err = some .overlap ∧
    after .compress { withTable [0x41, 0x42] 2 tableAB with dstAddr := 2 } State.err = some .none ∧
    after .decompress { State.reset with srcAddr := 0xFFFF, srcLen := 9 } State.err = some .range ∧
    after .decompress (withTable [0x40] 2 [(0x41, [false]), (0x42, [false])]) State.err = some .badTable ∧
    after .decompress { withTable [0x40] 2 tableAB with dstAddr := 0xFFFF } State.err = some .range ∧
    after .decompress { withTable [0x40] 2 tableAB with dstAddr := 0 } State.err = some .overlap ∧
    after .decompress { withTable [0x40] 2 tableAB with dstAddr := 1 } State.err = some .none := by decide +kernel

/-- Each end of the bit-packing commands' check order is reached. -/
theorem witness_BitPackCheckOrder :
    after .pack { State.reset with blockBytes := 0 } State.err = some .badParam ∧
    after .pack { State.reset with srcAddr := 0xFFFF, srcLen := 9 } State.err = some .range ∧
    after .pack { withSource [0x80] 1 with dstAddr := 0xFFF1 } State.err = some .range ∧
    after .pack { withSource [0x80] 1 with dstAddr := 0 } State.err = some .overlap ∧
    after .pack { withSource [0x80] 1 with dstAddr := 0xFFF0 } State.err = some .none ∧
    after .unpack { State.reset with srcAddr := 0xFFFF, srcLen := 2 } State.err = some .range ∧
    after .unpack { withSource [0x41, 0x05] 2 with dstAddr := 0xFFFF } State.err = some .range ∧
    after .unpack { withSource [0x41, 0x05] 2 with dstAddr := 1 } State.err = some .overlap ∧
    after .unpack { withSource [0x41, 0x05] 2 with dstAddr := 2 } State.err = some .none := by decide +kernel

/-- Each end of the FEC commands' check order is reached. -/
theorem witness_FecCheckOrder :
    after .encodeBlock (withN 9 [] 9) State.err = some .badParam ∧ after .encodeBlock (withN 3 [] 4) State.err = some .badBlockLen ∧
    after .encodeBlock { withN 3 [] 3 with srcAddr := 0x10000 } State.err = some .range ∧
    after .encodeBlock { withN 3 [0xA0] 3 with dstAddr := 0x10000 } State.err = some .range ∧
    after .encodeBlock { withN 3 [0xA0] 3 with dstAddr := 0 } State.err = some .overlap ∧
    after .encodeBlock { withN 3 [0xA0] 3 with dstAddr := 1 } State.err = some .none ∧
    after .decodeBlock (withN 0 [] 1) State.err = some .badParam ∧ after .decodeBlock (withN 3 [] 7) State.err = some .badBlockLen ∧
    after .decodeBlock { withN 3 [] 8 with srcAddr := 0x10000 } State.err = some .range ∧
    after .decodeBlock { withN 3 [0xA5] 8 with dstAddr := 0x10000 } State.err = some .range ∧
    after .decodeBlock { withN 3 [0xA5] 8 with dstAddr := 0 } State.err = some .overlap ∧
    after .decodeBlock { withN 3 [0xA5] 8 with dstAddr := 0xFFFF } State.err = some .none ∧
    after .fecEncode (withN 9 [] 0) State.err = some .badParam ∧
    after .fecEncode { withN 3 [] 9 with srcAddr := 0xFFFF } State.err = some .range ∧
    after .fecEncode { withN 3 [0xA0] 4 with dstAddr := 0xFFFF } State.err = some .range ∧
    after .fecEncode { withN 3 [0xA0] 4 with dstAddr := 0 } State.err = some .overlap ∧
    after .fecEncode { withN 3 [0xA0] 4 with dstAddr := 1 } State.err = some .none ∧
    after .fecDecode (withN 0 [] 0) State.err = some .badParam ∧
    after .fecDecode { withN 3 [] 9 with srcAddr := 0xFFFF } State.err = some .range ∧
    after .fecDecode { withN 3 [0xA5] 8 with fecOrigLen := 3, dstAddr := 0x10000 } State.err = some .range ∧
    after .fecDecode { withN 3 [0xA5] 8 with fecOrigLen := 3, dstAddr := 0 } State.err = some .overlap ∧
    after .fecDecode { withN 3 [0xA5] 8 with fecOrigLen := 3, dstAddr := 1 } State.err = some .none := by decide +kernel

theorem witness_BytesOutsideDestinationUnchanged : ∃ t, exec .pack { withSource [0x80] 1 with blockBytes := 3 } = .next t ∧
    (t.err = .none → ¬ ((0x100 : Word).toNat ≤ 0xFF ∧ 0xFF < (0x100 : Word).toNat + destinationBytes .pack t.dstLen.toNat)) ∧
    (t.err = .none → ¬ ((0x100 : Word).toNat ≤ 0x103 ∧ 0x103 < (0x100 : Word).toNat + destinationBytes .pack t.dstLen.toNat)) :=
  ⟨_, rfl, by decide +kernel⟩

theorem witness_CommandReadsOnlyItsSource :
    ∀ x, (withSource aaab 4).srcAddr.toNat ≤ x →
      x < (withSource aaab 4).srcAddr.toNat + sourceBytes .compress (withSource aaab 4).srcLen.toNat →
      { withSource aaab 4 with buf := (withSource (aaab ++ [0x55]) 4).buf, bufEpoch := 1 }.byteAt x = (withSource aaab 4).byteAt x := by
  intro x _ hx
  have hx4 : x < 4 := hx
  match x, hx4 with
  | 0, _ => rfl
  | 1, _ => rfl
  | 2, _ => rfl
  | 3, _ => rfl

/-- A list to split, and a byte string for each case of Build. -/
theorem witness_ShannonFanoIsTheBisection : 3 ≤ ([0x41, 0x42, 0x43] : List Byte).length ∧ sortSyms (freqOf []) = [] ∧
    sortSyms (freqOf [0x41, 0x41]) = [0x41] ∧ 2 ≤ (sortSyms (freqOf aaab)).length := by decide +kernel

theorem witness_BitStringsInBuf : 15 < 8 * ([0x41, 0x42] : ByteString).length ∧ 9 < 10 ∧ 7 < 2 ^ 3 ∧ 2 < 3 := by decide

/-- For BuiltTableIsPrefixFree and BuiltCodesAreComplete. -/
theorem witness_two_distinct_bytes : ∃ a ∈ aaab, ∃ b ∈ aaab, a ≠ b := by decide

theorem witness_BuiltTableIsPrefixFree : ∃ x ∈ buildCodes aaab, ∃ y ∈ buildCodes aaab, x.2 <+: y.2 := by decide +kernel

theorem witness_EntropyRoundTrip : Fits (withSource aaab 4).srcAddr (withSource aaab 4).srcLen.toNat ∧
    ∃ t, exec .buildTable (withSource aaab 4) = .next t ∧
      (t.table = t.table ∧ Fits t.srcAddr t.srcLen.toNat ∧ t.readBytes t.srcAddr.toNat t.srcLen.toNat = aaab ∧
        Fits t.dstAddr ((4 + 7) / 8) ∧ Apart t.srcAddr t.srcLen.toNat t.dstAddr ((4 + 7) / 8)) ∧
      let u := (withSource [0x10] 4).setTable t.table
      u.table = t.table ∧ u.srcLen.toNat = 4 ∧ Fits u.srcAddr ((4 + 7) / 8) ∧
        u.readBits u.srcAddr.toNat 4 = [false, false, false, true] ∧ Fits u.dstAddr 4 ∧ Apart u.srcAddr ((4 + 7) / 8) u.dstAddr 4 :=
  ⟨by decide, _, rfl, ⟨rfl, by decide, by decide +kernel, by decide, by decide⟩,
    rfl, by decide, by decide, by decide +kernel, by decide, by decide⟩

/-- "0001" is the bit string c for "AAAB". -/
theorem witness_EntropyRoundTrip_bits : buildCodes aaab = tableAB ∧
    (encodeBytes tableAB aaab).toOption = some [false, false, false, true] := by decide +kernel

theorem witness_EncoderRule : (tableAB.map Prod.fst).Nodup ∧
    ([0x41, 0x43, 0x42] : ByteString) = [0x41] ++ 0x43 :: [0x42] ∧ (∀ x ∈ ([0x41] : ByteString), x ∈ tableAB.map Prod.fst) ∧
    0x43 ∉ tableAB.map Prod.fst ∧ ∀ x ∈ aaab, x ∈ tableAB.map Prod.fst := by decide

theorem witness_DecoderIsGreedy :
    let t : CodeTable := [(0x41, [false]), (0x42, [true, false])]
    (t.map Prod.snd).Nodup ∧ (∀ e ∈ t, e.2 ≠ []) ∧ t.length ≠ 1 ∧ (0x42, [true, false]) ∈ t ∧
    (∀ e' ∈ t, e'.2 <+: [true, false] → e' = (0x42, [true, false])) ∧ (∀ e ∈ t, ¬ e.2 <+: [true, true]) ∧
    (∀ e ∈ ([(0x41, [false])] : CodeTable), e.2 ≠ []) := by decide

/-- For PackedShape and UnpackReversesPack. -/
theorem witness_block_sizes : (1 ≤ 1 ∧ 1 ≤ 255) ∧ 1 ≤ 255 ∧ 255 ≤ 255 := by decide

theorem witness_UnpackRule : 1 ≤ (1 : Byte).toNat ∧
    ∀ (pre : ByteString) (c : Byte), 1 ≤ c.toNat → ([] : ByteString) ≠ pre ++ List.replicate c.toNat c := by
  refine ⟨by decide, fun pre c hc h => ?_⟩
  have := congrArg List.length h
  rw [List.length_append, List.length_replicate, List.length_nil] at this
  omega

/-- For CodeMatrixClosedForm and RowsAreEquidistant. -/
theorem witness_row_indices : 1 ≤ 3 ∧ 0 < 2 ^ 3 ∧ 7 < 2 ^ 3 ∧ (0 : Nat) ≠ 7 := by decide

theorem witness_BlockDecisionRule : ([false, false, false, false] : BitString).length = 2 ^ 2 := by decide

theorem witness_ErrorsWithinRadiusAreCorrected : (7 < 2 ^ 3 ∧ 7 ≠ 5) ∧ 1 ≤ 3 ∧ 3 ≤ 8 ∧ 5 < 2 ^ 3 ∧
    ([false, false, true, false, false, true, false, true] : BitString).length = 2 ^ 3 ∧
    (List.zipWith (fun a b => a != b) (row 3 5) [false, false, true, false, false, true, false, true]).count true ≤
      (2 ^ (3 - 1) - 1) / 2 := by decide +kernel

theorem witness_FecRoundTrip : (1 ≤ 1 ∧ 1 ≤ 8) ∧ 1 ≤ 8 ∧ 8 ≤ 8 ∧
    let s := withN 2 [0xA0] 3
    let u := { withN 2 [0xCC] 8 with fecOrigLen := 3 }
    let c := fecEncodeBits 2 (s.readBits s.srcAddr.toNat 3)
    1 ≤ s.n.toNat ∧ s.n.toNat ≤ 8 ∧ Fits s.srcAddr ((3 + 7) / 8) ∧ Fits s.dstAddr ((c.length + 7) / 8) ∧
    Apart s.srcAddr ((3 + 7) / 8) s.dstAddr ((c.length + 7) / 8) ∧ u.n = s.n ∧ u.fecOrigLen = s.srcLen ∧
    u.srcLen.toNat = c.length ∧ Fits u.srcAddr ((c.length + 7) / 8) ∧ u.readBits u.srcAddr.toNat c.length = c ∧
    Fits u.dstAddr ((3 + 7) / 8) ∧ Apart u.srcAddr ((c.length + 7) / 8) u.dstAddr ((3 + 7) / 8) := by decide +kernel

end Sys2Proof.Tests
end

section
/-! SUPPORT. Bit strings, bytes and integers convert both ways (R10, R67, R70), and what BUF holds after a write of a bit
string (R66, R67). -/

namespace Sys2Proof.Machine

/-! ### Integers and bit strings -/

@[simp] theorem val_singleton (b : Bool) : val [b] = b.toNat := by simp [val]

/-- The binary digits of `val s`, least significant first, are the bits of `s` from its end. -/
theorem testBit_val (s : BitString) (j : Nat) : (val s).testBit j = s.reverse.getD j false := by
  induction s using List.reverseRecOn generalizing j with
  | nil => simp
  | append_singleton t b ih =>
    have hv : val (t ++ [b]) = 2 * val t + b.toNat := by
      rw [val_append, val_singleton, List.length_singleton, pow_one, Nat.mul_comm]
    rw [hv, List.reverse_append, List.reverse_singleton, List.singleton_append]
    cases j with
    | zero => cases b <;> simp
    | succ j =>
      rw [Nat.testBit_succ, List.getD_cons_succ, ← ih]
      congr 1
      have := b.toNat_le
      omega

/-- Bit k of a bit string, read from its integer. -/
theorem testBit_val_of_lt {s : BitString} {k : Nat} (h : k < s.length) :
    (val s).testBit (s.length - 1 - k) = s.getD k false := by
  have hk : s.length - 1 - (s.length - 1 - k) = k := by omega
  rw [testBit_val, List.getD, List.getElem?_reverse (by omega), hk, List.getD]

/-- `bin_n` reads back the bit string an integer came from. -/
theorem bin_val (s : BitString) : bin s.length (val s) = s := by
  refine List.ext_getElem (length_bin _ _) fun k _ hk => ?_
  have hbit : (bin s.length (val s))[k]? = some s[k] := by
    rw [getElem?_bin, if_pos hk, testBit_val_of_lt hk, List.getD_eq_getElem _ _ hk]
  exact (List.getElem?_eq_some_iff.1 hbit).2

/-- `val` reads back the low n bits of an integer. -/
theorem val_bin (n v : Nat) : val (bin n v) = v % 2 ^ n := by
  refine Nat.eq_of_testBit_eq fun j => ?_
  rw [testBit_val, Nat.testBit_mod_two_pow, List.getD]
  by_cases hj : j < n
  · have hi : n - 1 - (n - 1 - j) = j := by omega
    rw [List.getElem?_reverse (by simpa using hj), length_bin, getElem?_bin, if_pos (by omega), hi]
    simp [hj]
  · rw [List.getElem?_eq_none (by simpa using hj)]
    simp [hj]

theorem val_bin_of_lt {n v : Nat} (h : v < 2 ^ n) : val (bin n v) = v := by
  rw [val_bin, Nat.mod_eq_of_lt h]

/-! ### Bytes and bit strings -/

/-- Zeros on the right leave every bit of a bit string as it is, read with default 0. -/
@[simp] theorem getD_append_zeros (s : BitString) (k j : Nat) : (s ++ zeros k).getD j false = s.getD j false := by
  by_cases hj : j < s.length
  · rw [List.getD_append _ _ _ _ hj]
  · rw [List.getD_append_right _ _ _ _ (by omega), List.getD_eq_default s _ (by omega), zeros, List.getD,
      List.getElem?_getD_replicate_default_eq]

/-- Bit j, from the most significant, of the byte that holds a group of at most eight bits filled with 0 on the right. -/
theorem getLsbD_ofNat_val_fill {g : BitString} (hg : g.length ≤ 8) {j : Nat} (hj : j < 8) :
    (BitVec.ofNat 8 (val (g ++ zeros (8 - g.length)))).getLsbD (7 - j) = g.getD j false := by
  have hlen : (g ++ zeros (8 - g.length)).length = 8 := by
    rw [List.length_append, length_zeros]
    omega
  have hbit := testBit_val_of_lt (hlen.symm ▸ hj)
  rw [hlen, getD_append_zeros] at hbit
  rw [BitVec.getLsbD_ofNat, hbit, decide_eq_true (by omega), Bool.true_and]

/-- Bit j, from the most significant, of byte i of `bytes_of(s)` is bit 8·i + j of s, and 0 past its end (R67). -/
theorem getLsbD_packedByte (s : BitString) (i : Nat) {j : Nat} (hj : j < 8) :
    (packedByte s i).getLsbD (7 - j) = s.getD (8 * i + j) false := by
  have hg : ((s.drop (8 * i)).take 8).length ≤ 8 := List.length_take_le 8 _
  have hbit : (packedByte s i).getLsbD (7 - j) = ((s.drop (8 * i)).take 8).getD j false := getLsbD_ofNat_val_fill hg hj
  rw [hbit, List.getD, List.getElem?_take_of_lt hj, List.getElem?_drop, List.getD]

/-- `bits_of(bytes_of(s))` is s with zeros to a byte boundary (R67). -/
theorem bitsOf_bytesOf (s : BitString) : bitsOf (bytesOf s) = s ++ zeros ((8 - s.length % 8) % 8) := by
  have hlen : 8 * (bytesOf s).length = (s ++ zeros ((8 - s.length % 8) % 8)).length := by
    rw [length_bytesOf, List.length_append, length_zeros, bytesFor]
    omega
  refine List.ext_getElem ((length_bitsOf _).trans hlen) fun k hk hk' => ?_
  rw [length_bitsOf] at hk
  have hi : k / 8 < bytesFor s.length := by rw [length_bytesOf] at hk; omega
  have hbyte : (bytesOf s).getD (k / 8) 0 = packedByte s (k / 8) := by
    rw [List.getD, getElem?_bytesOf, if_pos hi, Option.getD_some]
  have hbit : (bitsOf (bytesOf s))[k]? = some ((s ++ zeros ((8 - s.length % 8) % 8)).getD k false) := by
    rw [getElem?_bitsOf _ _ hk, hbyte, getLsbD_packedByte _ _ (by omega), getD_append_zeros, Nat.div_add_mod]
  rw [List.getD_eq_getElem _ _ hk'] at hbit
  exact (List.getElem?_eq_some_iff.1 hbit).2

/-- `bytes_of` packs a whole number of bytes' bits back into those bytes (R67). -/
theorem bytesOf_bitsOf (bs : ByteString) : bytesOf (bitsOf bs) = bs := by
  have hlen : bytesFor (bitsOf bs).length = bs.length := by
    rw [length_bitsOf, bytesFor]
    omega
  refine List.ext_getElem ((length_bytesOf _).trans hlen) fun i _ hi => ?_
  have hbyte : (bytesOf (bitsOf bs))[i]? = some (packedByte (bitsOf bs) i) := by
    rw [getElem?_bytesOf, hlen, if_pos hi]
  rw [(List.getElem?_eq_some_iff.1 hbyte).2]
  refine BitVec.eq_of_getLsbD_eq fun m hm => ?_
  have hm7 : 7 - (7 - m) = m := by omega
  have hdiv : (8 * i + (7 - m)) / 8 = i := by omega
  have hmod : 7 - (8 * i + (7 - m)) % 8 = m := by omega
  have hbit := getLsbD_packedByte (bitsOf bs) i (j := 7 - m) (by omega)
  rw [hm7, List.getD, getElem?_bitsOf _ _ (by omega), hdiv, hmod, List.getD_eq_getElem _ _ hi] at hbit
  exact hbit

/-! ### Bit strings in BUF -/

/-- A bit string read from BUF is the bits of the bytes read there, cut at its length (R66, R67). -/
theorem readBits_eq_take (s : State) (a len : Nat) :
    s.readBits a len = (bitsOf (s.readBytes a (bytesFor len))).take len := by
  refine List.ext_getElem? fun k => ?_
  by_cases hk : k < len
  · have hb : k / 8 < bytesFor len := by unfold bytesFor; omega
    rw [getElem?_readBits, if_pos hk, List.getElem?_take_of_lt hk, getElem?_bitsOf _ _ (by rw [length_readBytes]; omega),
      List.getD, getElem?_readBytes, if_pos hb, Option.getD_some]
  · rw [getElem?_readBits, if_neg hk, List.getElem?_take_eq_none (by omega)]

/-- Bytes written to BUF read back (R11). -/
theorem readBytes_writeBytes (s : State) (a : Nat) (bs : ByteString) : (s.writeBytes a bs).readBytes a bs.length = bs := by
  refine List.ext_getElem? fun i => ?_
  rw [getElem?_readBytes]
  by_cases hi : i < bs.length
  · have hin : a ≤ a + i ∧ a + i < a + bs.length := by omega
    rw [if_pos hi, byteAt_writeBytes, if_pos hin, Nat.add_sub_cancel_left, List.getD_eq_getElem _ _ hi,
      List.getElem?_eq_getElem hi]
  · rw [if_neg hi, List.getElem?_eq_none (by omega)]

/-- A bit string written to BUF reads back at its length (R66, R67). -/
theorem readBits_writeBytes_bytesOf (s : State) (a : Nat) (b : BitString) :
    (s.writeBytes a (bytesOf b)).readBits a b.length = b := by
  rw [readBits_eq_take, ← length_bytesOf, readBytes_writeBytes, bitsOf_bytesOf, List.take_left]

/-- Settles O44, clause by clause from the lemmas above and the positions of bits in bytes, in BUF and in `bin`. -/
theorem bitStringsInBuf : Obligations.BitStringsInBuf := by
  unfold Obligations.BitStringsInBuf
  refine ⟨getElem?_bitsOf, fun s a len k hk => ?readBits, fun n v hv => ⟨val_bin_of_lt hv, length_bin n v, fun k hk => ?bin⟩,
    bitsOf_bytesOf, bytesOf_bitsOf, readBits_eq_take, readBits_writeBytes_bytesOf⟩
  case readBits => rw [getElem?_readBits, if_pos hk]
  case bin => rw [getElem?_bin, if_pos hk]

end Sys2Proof.Machine
end

section
/-! SUPPORT. Every way a command can answer, said once (R94, R115): an error and its ERR_INFO (R39), or the effects of each
command with the checks that it passed. -/

namespace Sys2Proof.Machine

open Sys2Proof.Safety

/-- The errors of `Exec`: a check of the check order, with ERR_INFO 0, or COMPRESS at the first absent byte (R39, R115). -/
inductive Fails (s : State) : Instr → ErrCode → Word → Prop
  | check {i : Instr} {e : ErrCode} (hnone : e ≠ .none) (habsent : e ≠ .symbolAbsent) : Fails s i e 0
  | absent {b : Byte} (henc : encodeBytes (tableOf s.table) (s.readBytes s.srcAddr.toNat s.srcLen.toNat) = .error b) :
      Fails s .compress .symbolAbsent (b.setWidth 32)

/-- The effects and flags of `Exec` without error, command by command (R94). -/
inductive Succeeds (s : State) : Instr → State → Diag → Prop
  | nop : Succeeds s .nop s {}
  | buildTable {d : ByteString} (hsrc : Fits s.srcAddr s.srcLen.toNat)
      (hd : d = s.readBytes s.srcAddr.toNat s.srcLen.toNat) :
      Succeeds s .buildTable ((s.setFreq (freqRamOf (freqOf d))).setTable (ramOf (buildCodes d)))
        { empty := decide (s.srcLen.toNat = 0) }
  | tableClear : Succeeds s .tableClear (s.setTable TableRam.zero) {}
  | compress {out : BitString} (hsrc : Fits s.srcAddr s.srcLen.toNat)
      (henc : encodeBytes (tableOf s.table) (s.readBytes s.srcAddr.toNat s.srcLen.toNat) = .ok out)
      (hdst : Fits s.dstAddr (bytesOf out).length) :
      Succeeds s .compress ((s.writeBytes s.dstAddr.toNat (bytesOf out)).setDstLen out.length) {}
  | decompress {r : ByteString × Bool} (hsrc : Fits s.srcAddr (bytesFor s.srcLen.toNat))
      (hr : r = decodeBits (tableOf s.table) (s.readBits s.srcAddr.toNat s.srcLen.toNat))
      (hdst : Fits s.dstAddr r.1.length) :
      Succeeds s .decompress ((s.writeBytes s.dstAddr.toNat r.1).setDstLen r.1.length) { tail := r.2 }
  | pack {out : ByteString} (hsrc : Fits s.srcAddr (bytesFor s.srcLen.toNat))
      (hout : out = packBits (s.readBits s.srcAddr.toNat s.srcLen.toNat) s.blockBytes.toNat)
      (hdst : Fits s.dstAddr out.length) :
      Succeeds s .pack ((s.writeBytes s.dstAddr.toNat out).setDstLen out.length) {}
  | unpack {r : BitString × Bool} (hsrc : Fits s.srcAddr s.srcLen.toNat)
      (hr : r = unpackBytes (s.readBytes s.srcAddr.toNat s.srcLen.toNat)) (hdst : Fits s.dstAddr (bytesOf r.1).length) :
      Succeeds s .unpack ((s.writeBytes s.dstAddr.toNat (bytesOf r.1)).setDstLen r.1.length) { padFault := r.2 }
  | encodeBlock {p : BitString} (hn : nLegal s.n = true) (hp : p = s.readBits s.srcAddr.toNat s.n.toNat)
      (hdst : Fits s.dstAddr (bytesOf (encBlock s.n.toNat p)).length) :
      Succeeds s .encodeBlock
        (((s.writeBytes s.dstAddr.toNat (bytesOf (encBlock s.n.toNat p))).setDstLen (2 ^ s.n.toNat)).setBlkIndex (val p)) {}
  | decodeBlock {d : BlockDecision} (hn : nLegal s.n = true)
      (hd : d = decBlock s.n.toNat (s.readBits s.srcAddr.toNat (2 ^ s.n.toNat)))
      (hdst : Fits s.dstAddr (bytesOf d.payload).length) :
      Succeeds s .decodeBlock
        (((((s.writeBytes s.dstAddr.toNat (bytesOf d.payload)).setDstLen s.n.toNat).setBlkIndex d.index).setBlkAgree
          d.agree).setErrCorr d.dist) {}
  | fecEncode {out : BitString} (hn : nLegal s.n = true) (hsrc : Fits s.srcAddr (bytesFor s.srcLen.toNat))
      (hout : out = fecEncodeBits s.n.toNat (s.readBits s.srcAddr.toNat s.srcLen.toNat))
      (hdst : Fits s.dstAddr (bytesOf out).length) :
      Succeeds s .fecEncode
        (((s.writeBytes s.dstAddr.toNat (bytesOf out)).setDstLen out.length).setEncodingParams s.srcLen.toNat
          (fecPadOf s.n.toNat s.srcLen.toNat)) {}
  | fecDecode {d : StreamDecision} (hn : nLegal s.n = true) (hsrc : Fits s.srcAddr (bytesFor s.srcLen.toNat))
      (hd : d = fecDecodeBits s.n.toNat (s.readBits s.srcAddr.toNat s.srcLen.toNat) s.fecOrigLen.toNat)
      (hdst : Fits s.dstAddr (bytesOf d.bits).length) :
      Succeeds s .fecDecode
        (((s.writeBytes s.dstAddr.toNat (bytesOf d.bits)).setDstLen d.bits.length).setErrCorr d.errors)
        { trunc := d.trunc, short := d.short }

/-- An outcome is one of the command's errors or its success. -/
def Answers (s : State) (i : Instr) : CmdOutcome → Prop
  | .err e info => Fails s i e info
  | .ok t fl => Succeeds s i t fl

/-- A check of the check order that answers an error without ERR_INFO. -/
theorem answers_check {s : State} {i : Instr} {c : Prop} [Decidable c] {e : ErrCode} {o : CmdOutcome}
    (hnone : e ≠ .none) (habsent : e ≠ .symbolAbsent) (h : ¬ c → Answers s i o) :
    Answers s i (if c then .err e 0 else o) := by
  split
  · exact .check hnone habsent
  · exact h ‹_›

/-- The check of an extent. -/
theorem answers_range {s : State} {i : Instr} {a : Word} {m : Nat} {o : CmdOutcome} (h : Fits a m → Answers s i o) :
    Answers s i (if ¬ inRange a m then .err .range 0 else o) :=
  answers_check nofun nofun fun hin => h ((inRange_iff a m).1 (not_not.1 hin))

/-- The check of N. -/
theorem answers_nLegal {s : State} {i : Instr} {o : CmdOutcome} (h : nLegal s.n = true → Answers s i o) :
    Answers s i (if ¬ nLegal s.n then .err .badParam 0 else o) :=
  answers_check nofun nofun fun hn => h (not_not.1 hn)

/-- The last steps of a command. -/
theorem answers_deliver {s : State} {i : Instr} {m : Nat} {dst : ByteString} {results : State → State} {fl : Diag}
    (h : Fits s.dstAddr dst.length → Succeeds s i (results (s.writeBytes s.dstAddr.toNat dst)) fl) :
    Answers s i (deliver s m dst results fl) := by
  rcases deliver_cases s m dst results fl with ⟨-, he⟩ | ⟨-, -, he⟩ | ⟨hfit, -, he⟩ <;> rw [he]
  · exact .check nofun nofun
  · exact .check nofun nofun
  · exact h hfit

/-- Every outcome of every command, by its own check order. -/
theorem answers_outcomeOf (s : State) (i : Instr) : Answers s i (outcomeOf i s) := by
  cases i
  case nop => exact .nop
  case buildTable => exact answers_range fun hsrc => .buildTable hsrc rfl
  case tableClear => exact .tableClear
  case compress =>
    refine answers_range fun hsrc => ?_
    split
    · exact .absent ‹_›
    · exact answers_deliver (.compress hsrc ‹_›)
  case decompress =>
    exact answers_range fun hsrc => answers_check nofun nofun fun _ => answers_deliver (.decompress hsrc rfl)
  case pack => exact answers_check nofun nofun fun _ => answers_range fun hsrc => answers_deliver (.pack hsrc rfl)
  case unpack => exact answers_range fun hsrc => answers_deliver (.unpack hsrc rfl)
  case encodeBlock =>
    exact answers_nLegal fun hn => answers_check nofun nofun fun _ => answers_range fun _ =>
      answers_deliver (.encodeBlock hn rfl)
  case decodeBlock =>
    exact answers_nLegal fun hn => answers_check nofun nofun fun _ => answers_range fun _ =>
      answers_deliver (.decodeBlock hn rfl)
  case fecEncode =>
    exact answers_nLegal fun hn => answers_range fun hsrc => answers_deliver (.fecEncode hn hsrc rfl)
  case fecDecode =>
    exact answers_nLegal fun hn => answers_range fun hsrc => answers_deliver (.fecDecode hn hsrc rfl)

/-- What the completion of a command leaves (R111): an error marked on the state as it was, or effects with their flags. -/
theorem complete_outcomeOf_cases (i : Instr) (s : State) :
    (∃ e info, Fails s i e info ∧ s.complete (outcomeOf i s) = s.finish e info {}) ∨
    ∃ t fl, Succeeds s i t fl ∧ OnlyResults s t ∧ s.complete (outcomeOf i s) = t.finish .none 0 fl := by
  have ha := answers_outcomeOf s i
  rcases complete_cases i s with ⟨e, info, ho, hc⟩ | ⟨t, fl, ho, hr, hc⟩ <;> rw [ho] at ha
  · exact .inl ⟨e, info, ha, hc⟩
  · exact .inr ⟨t, fl, ha, hr, hc⟩

/-- FREQ is a result of BUILD_TABLE alone (R43). -/
theorem Succeeds.freq_eq {s t : State} {i : Instr} {fl : Diag} (h : Succeeds s i t fl) (hi : i ≠ .buildTable) :
    t.freq = s.freq := by
  cases h with
  | buildTable => exact absurd rfl hi
  | _ => rfl

/-- The code table is a result of BUILD_TABLE and TABLE_CLEAR alone (R41). -/
theorem Succeeds.table_eq {s t : State} {i : Instr} {fl : Diag} (h : Succeeds s i t fl) (hb : i ≠ .buildTable)
    (hc : i ≠ .tableClear) : t.table = s.table := by
  cases h with
  | buildTable => exact absurd rfl hb
  | tableClear => exact absurd rfl hc
  | _ => rfl

end Sys2Proof.Machine
end

section
/-! SUPPORT. The address map read backwards (R22, R61), and every effect a host move can have, said once (R62, R63, R71, R75,
R97). -/

namespace Sys2Proof.Machine

open Sys2Proof.Safety

/-! ### The address map read backwards -/

/-- What an access that reaches a target is: the register's own word, or an access of the target's window (R22, R61). -/
inductive Reaches (off : Offset) (size : Size) : Target → Prop
  | dropped : Reaches off size .dropped
  | reg {r : RegName} (hsize : size = .b4) (hoff : off = r.offset) : Reaches off size (.reg r)
  | freq {sym : Byte} (h : FreqAccess off size) : Reaches off size (.freq sym)
  | elen {sym : Byte} (h : TableAccess off size) : Reaches off size (.elen sym)
  | code {sym : Byte} {w : BitVec 3} (h : TableAccess off size) : Reaches off size (.code sym w)
  | bufByte {a : Nat} (h : BufAccess off size) (ha : a + 1 ≤ 65536) : Reaches off size (.bufByte a)
  | bufWord {a : Nat} (h : BufAccess off size) (ha : a + 4 ≤ 65536) : Reaches off size (.bufWord a)

theorem toNat_offset_of_regAt {k : Nat} {r : RegName} (h : regAt k = some r) : r.offset.toNat = 4 * k := by
  unfold regAt at h
  split at h <;> cases h <;> rfl

theorem reaches_bufTarget {off : Offset} (size : Size) (h : 0x10000 ≤ off.toNat) :
    Reaches off size (bufTarget (off.toNat - 0x10000) size) := by
  have hlt := off.isLt
  cases size with
  | b1 => exact .bufByte ⟨h, .inl rfl⟩ (by omega)
  | b2 => exact .dropped
  | b4 =>
    rw [bufTarget]
    split
    · exact .bufWord ⟨h, .inr ⟨rfl, by omega⟩⟩ (by omega)
    · exact .dropped

theorem reaches_tableTarget {off : Offset} (sym : Byte) (halign : off.toNat % 4 = 0) (hlo : 0x2000 ≤ off.toNat)
    (hhi : off.toNat < 0x6000) : Reaches off .b4 (tableTarget sym ((off.toNat - 0x2000) % 64)) := by
  unfold tableTarget
  split
  · exact .elen ⟨rfl, hlo, hhi, halign, .inl (by omega)⟩
  · split
    · exact .code ⟨rfl, hlo, hhi, halign, .inr (by omega)⟩
    · exact .dropped

theorem reaches_wordTarget {off : Offset} (halign : off.toNat % 4 = 0) : Reaches off .b4 (wordTarget off.toNat) := by
  unfold wordTarget
  split
  · split
    · rename_i r hr
      have hoff := toNat_offset_of_regAt hr
      exact .reg rfl (BitVec.eq_of_toNat_eq (by omega))
    · exact .dropped
  · split
    · exact .freq ⟨rfl, by omega, ‹_›, halign⟩
    · split
      · exact .dropped
      · split
        · exact reaches_tableTarget _ halign (by omega) ‹_›
        · exact .dropped

theorem reaches_target (off : Offset) (size : Size) : Reaches off size (target off size) := by
  unfold target
  split
  · exact reaches_bufTarget size ‹_›
  · split
    · rename_i h
      obtain ⟨rfl, halign⟩ := h
      exact reaches_wordTarget halign
    · exact .dropped

/-! ### Transactions -/

/-- Only the operand registers that a host writes while no command runs have changed (R27 to R33). -/
def OnlyOperands (s t : State) : Prop :=
  t = { s with srcAddr := t.srcAddr, srcLen := t.srcLen, dstAddr := t.dstAddr, n := t.n, blockBytes := t.blockBytes,
               fecOrigLen := t.fecOrigLen }

/-- The next state of a host write, by its effect (R63, R64, R68, R75). -/
inductive Writes (s : State) (off : Offset) (size : Size) (v : Word) : State → Prop
  | dropped : Writes s off size v s
  | refused (hbusy : s.busy = true) (h : RefusedWrite off size) : Writes s off size v s.markHazard
  | ctrl : Writes s off size v { s with irqEn := v.getLsbD 0 }
  | status (hsize : size = .b4) (hoff : off = RegName.status.offset) :
      Writes s off size v { s with done := s.done && !v.getLsbD 1, haz := s.haz && !v.getLsbD 2 }
  | issue (hidle : s.busy = false) : Writes s off size v (s.issue v)
  | operand {t : State} (ht : OnlyOperands s t) : Writes s off size v t
  | table {ram : TableRam} (hidle : s.busy = false) (h : TableAccess off size) : Writes s off size v (s.setTable ram)
  | buf {a : Nat} {bs : ByteString} (hfit : a + bs.length ≤ 65536) : Writes s off size v (s.writeBytes a bs)

theorem writes_whileIdle {s : State} {off : Offset} {size : Size} {v : Word} {act : State → State}
    (hrefused : RefusedWrite off size) (hidle : s.busy = false → Writes s off size v (act s)) :
    Writes s off size v (s.whileIdle act) := by
  cases hb : s.busy with
  | true => rw [whileIdle_busy act hb]; exact .refused hb hrefused
  | false => rw [whileIdle_idle act hb]; exact hidle hb

theorem writes_regWrite (s : State) (r : RegName) (v : Word) : Writes s r.offset .b4 v (s.regWrite r v) := by
  cases r <;> rw [State.regWrite]
  case ctrl => exact .ctrl
  case status => exact .status rfl rfl
  case cmd => exact writes_whileIdle (.inl (by decide)) .issue
  case srcAddr | srcLen | dstAddr | n | blockBytes | fecOrigLen =>
    exact writes_whileIdle (.inl (by decide)) fun _ => .operand rfl
  all_goals exact .dropped

theorem writes_writeTarget (s : State) {off : Offset} {size : Size} {t : Target} (v : Word) (h : Reaches off size t) :
    Writes s off size v (s.writeTarget t v) := by
  cases h <;> rw [State.writeTarget]
  case dropped | freq => exact .dropped
  case reg hsize hoff => subst hsize hoff; exact writes_regWrite s _ v
  case elen h | code h => exact writes_whileIdle (.inr (.inl h)) fun hidle => .table hidle h
  case bufByte h ha | bufWord h ha => exact writes_whileIdle (.inr (.inr h)) fun _ => .buf ha

/-- The next state of a host read, by its effect (R71, R75). -/
inductive Reads (s : State) (off : Offset) (size : Size) : State → Prop
  | shown {v : Word} : Reads s off size (s.setRdata v)
  | hidden (hbusy : s.busy = true) (h : HiddenRead off size) : Reads s off size (s.markHazard.setRdata 0)

theorem reads_access (s : State) (off : Offset) (size : Size) : Reads s off size (s.access (.read off size)) := by
  rw [State.access, State.readTarget]
  split
  · rename_i h
    obtain ⟨hbusy, hguarded⟩ := Bool.and_eq_true_iff.1 h
    exact .hidden hbusy ((guarded_target_iff off size).1 hguarded)
  · exact .shown

/-- The next state of the host's move, by what it does (R73, R97): nothing but the port's value and the host's own list, a
write, or a read. -/
inductive HostMoves (s : State) : State → Prop
  | idle {t : State} (ht : t = { s with rdata := t.rdata, host := t.host }) : HostMoves s t
  | write {off : Offset} {size : Size} {v : Word} {ops : List HostOp} {t : State}
      (hop : s.host = .access (.write off size v) :: ops) (h : Writes (s.setHost ops) off size v t) : HostMoves s t
  | read {off : Offset} {size : Size} {ops : List HostOp} {t : State}
      (hop : s.host = .access (.read off size) :: ops) (h : Reads (s.setHost ops) off size t) : HostMoves s t

theorem hostMoves_hostTurn (s : State) : HostMoves s s.hostTurn := by
  match hop : s.host with
  | [] =>
    have ht : s.hostTurn = s := by rw [State.hostTurn, hop]
    rw [ht]
    exact .idle rfl
  | .wait :: ops => rw [hostTurn_wait hop]; exact .idle rfl
  | .access a :: ops =>
    have ht : s.hostTurn = (s.setHost ops).access a := by rw [State.hostTurn, hop]
    rw [ht]
    cases a with
    | write off size v => exact .write hop (writes_writeTarget _ v (reaches_target off size))
    | read off size => exact .read hop (reads_access _ off size)

end Sys2Proof.Machine
end

section
/-! SUPPORT. Every move a step can be, said once (R15, R111, R119, R270), and the word behind a decoded command (R92). -/

namespace Sys2Proof.Machine

/-! ### The word of a command -/

theorem eq_opcode_of_commandOf {op : Byte} {i : Instr} (h : commandOf op = some i) : op = opcode i := by
  unfold commandOf at h
  split at h <;> cases h <;> exact BitVec.eq_of_toNat_eq ‹_›

/-- A word is its RSV above its OP (R90). -/
theorem rsvField_append_opField (w : Word) : rsvField w ++ opField w = w :=
  BitVec.extractLsb'_append_extractLsb'_eq_extractLsb' (by decide) |>.trans (by simp)

/-- A word that decodes to a command is that command's encoding (R92). -/
theorem eq_encode_of_decode {w : Word} {i : Instr} (h : decode w = .ok i) : w = encode i := by
  unfold decode at h
  split at h
  · cases h
  · rename_i hrsv
    split at h <;> cases h
    rename_i hop
    rw [encode, ← eq_opcode_of_commandOf hop, ← not_not.1 hrsv, rsvField_append_opField]

/-! ### The moves -/

/-- What the engine's completion of a command word leaves (R91, R111). -/
def State.completeWord (s : State) (w : Word) : State :=
  match decode w with
  | .ok i => s.complete (outcomeOf i s)
  | .error _ => s.finish .badCmd 0 {}

theorem completeWord_ok {w : Word} {i : Instr} (s : State) (h : decode w = .ok i) :
    s.completeWord w = s.complete (outcomeOf i s) := by
  rw [State.completeWord, h]

theorem completeWord_error {w : Word} {e : DecodeError} (s : State) (h : decode w = .error e) :
    s.completeWord w = s.finish .badCmd 0 {} := by
  rw [State.completeWord, h]

theorem engineTurn_idle {s : State} (h : s.pend = .idle) : engineTurn s = .next s := by
  rw [engineTurn, h]

theorem engineTurn_running {s : State} {w : Word} (h : s.pend = .running w) : engineTurn s = .next (s.completeWord w) := by
  unfold engineTurn State.completeWord
  simp only [h]
  cases decode w with
  | ok i => exact exec_eq_complete i s
  | error e => rfl

/-- The completion of a word is an error, BAD_CMD for an illegal word (R241), or the success of the command it encodes. An
illegal word is no command, and its error has the form every command's checks have: any command may stand for it. -/
theorem completeWord_cases (s : State) (w : Word) :
    (∃ i e info, Fails s i e info ∧ s.completeWord w = s.finish e info {}) ∨
    ∃ i t fl, w = encode i ∧ Succeeds s i t fl ∧ OnlyResults s t ∧ s.completeWord w = t.finish .none 0 fl := by
  cases hd : decode w with
  | error e => exact .inl ⟨.nop, .badCmd, 0, .check nofun nofun, completeWord_error s hd⟩
  | ok i =>
    rw [completeWord_ok s hd]
    rcases complete_outcomeOf_cases i s with ⟨e, info, hf, hc⟩ | ⟨t, fl, hs, hr, hc⟩
    · exact .inl ⟨i, e, info, hf, hc⟩
    · exact .inr ⟨i, t, fl, eq_encode_of_decode hd, hs, hr, hc⟩

/-- The next state of a step, by the agent that moved; `ts` is the schedule that is left (log entry 3). -/
inductive Moves (s : State) : State → Prop
  | host {ts : List Turn} {t : State} (hturn : s.turns = .host :: ts ∨ s.turns = [] ∧ s.busy = false)
      (h : HostMoves (s.setTurns ts) t) : Moves s t
  | rest {ts : List Turn} : Moves s (s.setTurns ts)
  | fails {ts : List Turn} {i : Instr} {e : ErrCode} {info : Word} (h : Fails (s.setTurns ts) i e info) :
      Moves s ((s.setTurns ts).finish e info {})
  | succeeds {ts : List Turn} {i : Instr} {t : State} {fl : Diag} (hpend : s.pend = .running (encode i))
      (h : Succeeds (s.setTurns ts) i t fl) (hr : OnlyResults (s.setTurns ts) t) : Moves s (t.finish .none 0 fl)
  | reset {ts : List Turn} (hturn : s.turns = .reset :: ts) : Moves s (s.setTurns ts).resetInput

/-- The engine's move completes the pending command, or rests. -/
theorem moves_of_engineTurn {s t : State} {ts : List Turn} (h : engineTurn (s.setTurns ts) = .next t) : Moves s t := by
  cases hp : s.pend with
  | idle =>
    rw [engineTurn_idle (s := s.setTurns ts) hp] at h
    cases h
    exact .rest
  | running w =>
    rw [engineTurn_running (s := s.setTurns ts) hp] at h
    cases h
    rcases completeWord_cases (s.setTurns ts) w with ⟨i, e, info, hf, hc⟩ | ⟨i, t, fl, rfl, hs, hr, hc⟩ <;> rw [hc]
    · exact .fails hf
    · exact .succeeds hp hs hr

/-- An empty schedule set again is the same state. -/
theorem setTurns_nil {s : State} (h : s.turns = []) : s.setTurns [] = s := by rw [State.setTurns, ← h]

/-- Every step is one of these moves. -/
theorem moves_of_step {s t : State} (h : step s = .next t) : Moves s t := by
  unfold step nextMove at h
  split at h
  case h_1 ts hturn => cases h; exact .host (.inl hturn) (hostMoves_hostTurn _)
  case h_2 ts hturn => exact moves_of_engineTurn h
  case h_3 ts hturn => cases h; exact .reset hturn
  case h_4 hturn =>
    rw [← setTurns_nil hturn] at h
    split at h
    case isTrue hbusy => exact moves_of_engineTurn h
    case isFalse hbusy =>
      cases h
      exact .host (.inr ⟨hturn, eq_false_of_ne_true hbusy⟩) (hostMoves_hostTurn _)

end Sys2Proof.Machine
end

section
/-! SUPPORT. The invariant: one rule per operation that keeps it (R25, R30, R34, R35, R38, R39, R43), and every step as one
of those operations. -/

namespace Sys2Proof.Machine

open Sys2Proof.Safety

/-! ### What the results and the marks of a completion may hold -/

/-- The part of the invariant that the effects of a command keep before the completion is marked. -/
structure ResultsInRange (s : State) : Prop where
  bufCanonical : s.buf.wf
  dstLenBound : s.dstLen.toNat ≤ 524288
  errCorrBound : s.errCorr.toNat ≤ 524288
  fecPadBound : s.fecPad.toNat < 8
  blkAgreeBound : s.blkAgree.toNat ≤ 256
  freqBound : ∀ sym : Byte, (ramGet s.freq sym).toNat ≤ 65536

/-- Two flags are set together only if they are TRUNC and SHORT (R247). -/
def Diag.Exclusive (fl : Diag) : Prop :=
  (fl.trunc = true ∨ fl.short = true → fl.empty = false ∧ fl.tail = false ∧ fl.padFault = false) ∧
  (fl.empty = true → fl.tail = false ∧ fl.padFault = false) ∧ (fl.tail = true → fl.padFault = false)

theorem Diag.exclusive_none : Diag.Exclusive {} := by simp [Diag.Exclusive]

theorem resultsInRange_of_inv {s : State} (h : Inv s) : ResultsInRange s where
  bufCanonical := h.bufCanonical
  dstLenBound := h.dstLenBound
  errCorrBound := h.errCorrBound
  fecPadBound := h.fecPadBound
  blkAgreeBound := h.blkAgreeBound
  freqBound := h.freqBound

/-- A completion makes the invariant of results in range, when its marks fit its error (R39, R249). -/
theorem inv_finish {s : State} {e : ErrCode} {info : Word} {fl : Diag} (h : ResultsInRange s) (hfl : fl.Exclusive)
    (herr : e ≠ .none → fl = {}) (hbyte : info.toNat < 256) (hinfo : e ≠ .symbolAbsent → info = 0) :
    Inv (s.finish e info fl) where
  bufCanonical := h.bufCanonical
  runningIsClear := nofun
  errorHasNoFlag := herr
  flagsExclusive := hfl
  errInfoIsAByte := hbyte
  errInfoOnlyForAbsent := fun _ => hinfo
  dstLenBound := h.dstLenBound
  errCorrBound := h.errCorrBound
  fecPadBound := h.fecPadBound
  blkAgreeBound := h.blkAgreeBound
  freqBound := h.freqBound

/-! ### The operations of a command -/

namespace ResultsInRange

variable {s : State}

theorem writeBytes (h : ResultsInRange s) {a : Nat} {bs : ByteString} (hfit : bs.length = 0 ∨ a + bs.length ≤ 65536) :
    ResultsInRange (s.writeBytes a bs) :=
  { h with bufCanonical := writeBytes_wf h.bufCanonical (hfit.imp_left List.length_eq_zero_iff.1) }

theorem setDstLen (h : ResultsInRange s) {k : Nat} (hk : k ≤ 524288) : ResultsInRange (s.setDstLen k) :=
  { h with dstLenBound := (Nat.mod_le _ _).trans hk }

theorem setErrCorr (h : ResultsInRange s) {k : Nat} (hk : k ≤ 524288) : ResultsInRange (s.setErrCorr k) :=
  { h with errCorrBound := (Nat.mod_le _ _).trans hk }

theorem setEncodingParams (h : ResultsInRange s) {k p : Nat} (hp : p < 8) : ResultsInRange (s.setEncodingParams k p) :=
  { h with fecPadBound := (Nat.mod_le _ _).trans_lt hp }

theorem setBlkIndex (h : ResultsInRange s) (k : Nat) : ResultsInRange (s.setBlkIndex k) := { h with }

theorem setBlkAgree (h : ResultsInRange s) {k : Nat} (hk : k ≤ 256) : ResultsInRange (s.setBlkAgree k) :=
  { h with blkAgreeBound := (Nat.mod_le _ _).trans hk }

theorem setTable (h : ResultsInRange s) (ram : TableRam) : ResultsInRange (s.setTable ram) := { h with }

/-- The counts of at most 65536 bytes (R43, R130). -/
theorem setFreq (h : ResultsInRange s) {d : ByteString} (hd : d.length ≤ 65536) :
    ResultsInRange (s.setFreq (freqRamOf (freqOf d))) :=
  { h with
    freqBound := fun sym => by
      rw [setFreq_freq, ramGet_freqRamOf, ramGet_freqOf, BitVec.toNat_ofNat]
      exact (Nat.mod_le _ _).trans (List.count_le_length.trans hd) }

end ResultsInRange

/-! ### Bounds of extents and of FEC results -/

theorem le_of_fits {a : Word} {m : Nat} (h : Fits a m) : m ≤ 65536 := by
  rcases h with h | h <;> omega

/-- A bit string whose bytes fit in BUF has at most 524288 bits (R113). -/
theorem le_bits_of_fits {a : Word} {k : Nat} (h : Fits a (bytesFor k)) : k ≤ 524288 := le_of_bytesFor_le (le_of_fits h)

theorem length_le_of_fits_bytesOf {a : Word} {b : BitString} (h : Fits a (bytesOf b).length) : b.length ≤ 524288 :=
  le_bits_of_fits (length_bytesOf b ▸ h)

theorem two_pow_le_of_nLegal {n : BitVec 4} (h : nLegal n = true) : 2 ^ n.toNat ≤ 256 :=
  Nat.pow_le_pow_right (by decide) ((nLegal_iff n).1 h).2

theorem fecPadOf_lt_of_nLegal {n : BitVec 4} (h : nLegal n = true) (len : Nat) : fecPadOf n.toNat len < 8 := by
  obtain ⟨hpos, hmax⟩ := (nLegal_iff n).1 h
  have hpad := (fecPadOf_spec hpos len).1
  omega

theorem decBlock_agree_le (n : Nat) (r : BitString) : (decBlock n r).agree ≤ 2 ^ n := by
  have hrow := (bestRow_spec n r).1
  exact (agreement_le_left _ r).trans_eq (length_row hrow)

/-- The distances of whole blocks sum to at most the bits received (R216). -/
theorem fecDecodeBits_errors_le (n : Nat) (r : BitString) (origLen : Nat) : (fecDecodeBits n r origLen).errors ≤ r.length := by
  have hsum : (fecDecodeBits n r origLen).errors ≤ (r.length / 2 ^ n) • 2 ^ n := by
    refine (List.sum_le_card_nsmul _ (2 ^ n) fun x hx => ?_).trans_eq (by simp)
    obtain ⟨d, hd, rfl⟩ := List.mem_map.1 hx
    obtain ⟨j, -, rfl⟩ := List.mem_map.1 hd
    exact decBlock_dist_le n _
  exact hsum.trans (Nat.div_mul_le_self _ _)

/-- Every successful command leaves results in range, and flags that exclude each other as R247 says. -/
theorem Succeeds.inRange {s t : State} {i : Instr} {fl : Diag} (h : Succeeds s i t fl) (hs : ResultsInRange s) :
    ResultsInRange t ∧ fl.Exclusive := by
  cases h with
  | nop => exact ⟨hs, Diag.exclusive_none⟩
  | buildTable hsrc hd =>
    subst hd
    exact ⟨(hs.setFreq (by rw [length_readBytes]; exact le_of_fits hsrc)).setTable _, by simp [Diag.Exclusive]⟩
  | tableClear => exact ⟨hs.setTable _, Diag.exclusive_none⟩
  | compress hsrc henc hdst => exact ⟨(hs.writeBytes hdst).setDstLen (length_le_of_fits_bytesOf hdst), Diag.exclusive_none⟩
  | decompress hsrc hr hdst =>
    exact ⟨(hs.writeBytes hdst).setDstLen ((le_of_fits hdst).trans (by decide)), by simp [Diag.Exclusive]⟩
  | pack hsrc hout hdst => exact ⟨(hs.writeBytes hdst).setDstLen ((le_of_fits hdst).trans (by decide)), Diag.exclusive_none⟩
  | unpack hsrc hr hdst =>
    exact ⟨(hs.writeBytes hdst).setDstLen (length_le_of_fits_bytesOf hdst), by simp [Diag.Exclusive]⟩
  | encodeBlock hn hp hdst =>
    exact ⟨((hs.writeBytes hdst).setDstLen ((two_pow_le_of_nLegal hn).trans (by decide))).setBlkIndex _, Diag.exclusive_none⟩
  | decodeBlock hn hd hdst =>
    subst hd
    have hw := two_pow_le_of_nLegal hn
    have hlen : s.n.toNat ≤ 524288 := ((nLegal_iff _).1 hn).2.trans (by decide)
    exact ⟨((((hs.writeBytes hdst).setDstLen hlen).setBlkIndex _).setBlkAgree ((decBlock_agree_le _ _).trans hw)).setErrCorr
      ((decBlock_dist_le _ _).trans (hw.trans (by decide))), Diag.exclusive_none⟩
  | fecEncode hn hsrc hout hdst =>
    exact ⟨((hs.writeBytes hdst).setDstLen (length_le_of_fits_bytesOf hdst)).setEncodingParams
      (fecPadOf_lt_of_nLegal hn _), Diag.exclusive_none⟩
  | fecDecode hn hsrc hd hdst =>
    subst hd
    have herr := fecDecodeBits_errors_le s.n.toNat (s.readBits s.srcAddr.toNat s.srcLen.toNat) s.fecOrigLen.toNat
    rw [length_readBits] at herr
    exact ⟨((hs.writeBytes hdst).setDstLen (length_le_of_fits_bytesOf hdst)).setErrCorr (herr.trans (le_bits_of_fits hsrc)),
      by simp [Diag.Exclusive]⟩

/-- ERR_INFO of an error (R39). -/
theorem Fails.errInfo_marks {s : State} {i : Instr} {e : ErrCode} {info : Word} (h : Fails s i e info) :
    info.toNat < 256 ∧ (e ≠ .symbolAbsent → info = 0) := by
  cases h with
  | check => exact ⟨by decide, fun _ => rfl⟩
  | @absent b =>
    rw [BitVec.toNat_setWidth_of_le (by decide)]
    exact ⟨b.isLt, (absurd rfl ·)⟩

/-! ### The moves -/

/-- Only fields of which the invariant says nothing have changed. -/
def OnlyUnconstrained (s t : State) : Prop :=
  t = { s with irqEn := t.irqEn, haz := t.haz, srcAddr := t.srcAddr, srcLen := t.srcLen, dstAddr := t.dstAddr, n := t.n,
               blockBytes := t.blockBytes, fecOrigLen := t.fecOrigLen, table := t.table, bufEpoch := t.bufEpoch,
               rdata := t.rdata, host := t.host, turns := t.turns }

theorem inv_of_onlyUnconstrained {s t : State} (ht : OnlyUnconstrained s t) (h : Inv s) : Inv t := by
  rw [ht]
  exact { h with }

theorem inv_issue {s : State} (h : Inv s) (w : Word) : Inv (s.issue w) :=
  { h with
    runningIsClear := fun _ => ⟨rfl, rfl, rfl⟩
    errorHasNoFlag := fun _ => rfl
    flagsExclusive := Diag.exclusive_none
    errInfoOnlyForAbsent := nofun }

theorem inv_writeBytes {s : State} (h : Inv s) {a : Nat} {bs : ByteString} (hfit : a + bs.length ≤ 65536) :
    Inv (s.writeBytes a bs) :=
  { h with bufCanonical := writeBytes_wf h.bufCanonical (.inr hfit) }

/-- W1C to STATUS can only clear DONE (R25). -/
theorem inv_clear {s : State} (h : Inv s) (b c : Bool) : Inv { s with done := s.done && b, haz := c } :=
  { h with
    runningIsClear := fun hb => by
      obtain ⟨hdone, hmarks⟩ := h.runningIsClear hb
      exact ⟨by simp [hdone], hmarks⟩ }

theorem inv_reset : Inv State.reset where
  bufCanonical := reset_buf_wf
  runningIsClear := nofun
  errorHasNoFlag := fun _ => rfl
  flagsExclusive := Diag.exclusive_none
  errInfoIsAByte := by decide
  errInfoOnlyForAbsent := fun _ _ => rfl
  dstLenBound := by decide
  errCorrBound := by decide
  fecPadBound := by decide
  blkAgreeBound := by decide
  freqBound := fun sym => by simp [ramGet, State.reset]

theorem inv_resetInput (s : State) : Inv s.resetInput := inv_of_onlyUnconstrained rfl inv_reset

theorem inv_of_writes {s t : State} {off : Offset} {size : Size} {v : Word} (h : Inv s) (ht : Writes s off size v t) :
    Inv t := by
  cases ht with
  | dropped => exact h
  | refused | ctrl | table => exact inv_of_onlyUnconstrained rfl h
  | status => exact inv_clear h _ _
  | issue => exact inv_issue h v
  | operand ht => rw [ht]; exact inv_of_onlyUnconstrained rfl h
  | buf hfit => exact inv_writeBytes h hfit

theorem inv_of_hostMoves {s t : State} (h : Inv s) (ht : HostMoves s t) : Inv t := by
  have hops (ops : List HostOp) : Inv (s.setHost ops) := inv_of_onlyUnconstrained rfl h
  cases ht with
  | idle ht => rw [ht]; exact inv_of_onlyUnconstrained rfl h
  | write hop ht => exact inv_of_writes (hops _) ht
  | read hop ht => cases ht <;> exact inv_of_onlyUnconstrained (s := s) rfl h

/-- Settles O9: each move is one of the operations above. -/
theorem stepKeepsInvariant : Obligations.StepKeepsInvariant := by
  unfold Obligations.StepKeepsInvariant
  intro s t h hstep
  have hturns (ts : List Turn) : Inv (s.setTurns ts) := inv_of_onlyUnconstrained rfl h
  have hresults (ts : List Turn) : ResultsInRange (s.setTurns ts) := resultsInRange_of_inv (hturns ts)
  cases moves_of_step hstep with
  | host hturn hm => exact inv_of_hostMoves (hturns _) hm
  | rest => exact hturns _
  | fails hf =>
    obtain ⟨hbyte, hinfo⟩ := hf.errInfo_marks
    exact inv_finish (hresults _) Diag.exclusive_none (fun _ => rfl) hbyte hinfo
  | succeeds hpend ht =>
    obtain ⟨hrange, hfl⟩ := ht.inRange (hresults _)
    exact inv_finish hrange hfl (absurd rfl) (by decide) fun _ => rfl
  | reset hturn => exact inv_resetInput _

end Sys2Proof.Machine
end

section
/-! SUPPORT. What can change HAZ (R25, R75), FREQ (R43) and the code-table RAM (R41), move by move. -/

namespace Sys2Proof.Machine

open Sys2Proof.Safety

/-! ### What the frames keep -/

theorem OnlyOperands.haz_eq {s t : State} (h : OnlyOperands s t) : t.haz = s.haz := by rw [h]
theorem OnlyOperands.freq_eq {s t : State} (h : OnlyOperands s t) : t.freq = s.freq := by rw [h]
theorem OnlyOperands.table_eq {s t : State} (h : OnlyOperands s t) : t.table = s.table := by rw [h]
theorem OnlyResults.haz_eq {s t : State} (h : OnlyResults s t) : t.haz = s.haz := by rw [h]

/-! ### HAZ -/

/-- HAZ after a host write: set where R75 refuses the write, cleared by W1C to STATUS, and else as it was. -/
theorem haz_cases_of_writes {s t : State} {off : Offset} {size : Size} {v : Word} (h : Writes s off size v t) :
    (s.busy = true ∧ RefusedWrite off size ∧ t = s.markHazard) ∨
    (size = .b4 ∧ off = RegName.status.offset ∧ t.haz = (s.haz && !v.getLsbD 2)) ∨ t.haz = s.haz := by
  cases h with
  | refused hbusy h => exact .inl ⟨hbusy, h, rfl⟩
  | status hsize hoff => exact .inr (.inl ⟨hsize, hoff, rfl⟩)
  | operand ht => exact .inr (.inr ht.haz_eq)
  | _ => exact .inr (.inr rfl)

/-- HAZ is set by a host's move only where R75 drops its access (R75.1 to R75.3). -/
theorem haz_set_of_hostMoves {s t : State} (h : HostMoves s t) (hs : s.haz = false) (ht : t.haz = true) :
    s.busy = true ∧ ∃ ops,
      ((∃ off size v, s.host = .access (.write off size v) :: ops ∧ RefusedWrite off size ∧
        t = { s with haz := true, host := ops }) ∨
      ∃ off size, s.host = .access (.read off size) :: ops ∧ HiddenRead off size ∧
        t = { s with haz := true, rdata := 0, host := ops }) := by
  cases h with
  | idle hframe =>
    have hkeep : t.haz = s.haz := by rw [hframe]
    simp [hkeep, hs] at ht
  | write hop hw =>
    rcases haz_cases_of_writes hw with ⟨hbusy, hrefused, rfl⟩ | ⟨-, -, hclear⟩ | hkeep
    · exact ⟨hbusy, _, .inl ⟨_, _, _, hop, hrefused, rfl⟩⟩
    · simp [hclear, hs] at ht
    · simp [hkeep, hs] at ht
  | read hop hr =>
    cases hr with
    | shown => simp [hs] at ht
    | hidden hbusy hhidden => exact ⟨hbusy, _, .inr ⟨_, _, hop, hhidden, rfl⟩⟩

/-- HAZ is cleared by a host's move only by W1C to STATUS (R25). -/
theorem haz_cleared_of_hostMoves {s t : State} (h : HostMoves s t) (hs : s.haz = true) (ht : t.haz = false) :
    ∃ v ops, s.host = .access (.write 0x0000C .b4 v) :: ops ∧ v.getLsbD 2 = true := by
  cases h with
  | idle hframe =>
    have hkeep : t.haz = s.haz := by rw [hframe]
    simp [hkeep, hs] at ht
  | write hop hw =>
    rcases haz_cases_of_writes hw with ⟨-, -, rfl⟩ | ⟨rfl, rfl, hclear⟩ | hkeep
    · cases ht
    · exact ⟨_, _, hop, by simpa [hclear, hs] using ht⟩
    · simp [hkeep, hs] at ht
  | read hop hr => cases hr <;> simp [hs] at ht

/-- Settles O14: only the host's moves and reset change HAZ, and a command that runs leaves the host only its own turns. -/
theorem hazardChangesOnlyByItsRule : Obligations.HazardChangesOnlyByItsRule := by
  unfold Obligations.HazardChangesOnlyByItsRule
  intro s t hstep
  refine ⟨fun hs ht => ?set, fun hs ht => ?cleared⟩
  case set =>
    cases moves_of_step hstep with
    | @host ts _ hturn hm =>
      obtain ⟨hbusy, ops, h⟩ := haz_set_of_hostMoves hm hs ht
      have hts : s.turns = .host :: ts := hturn.resolve_right fun ⟨_, hidle⟩ => by simp [hidle] at hbusy
      exact ⟨hbusy, ops, ts, hts, h⟩
    | succeeds hpend h hr =>
      simp [hr.haz_eq, hs] at ht
    | reset => cases ht
    | _ => simp [hs] at ht
  case cleared =>
    cases moves_of_step hstep with
    | host hturn hm =>
      obtain ⟨v, ops, hop, hv⟩ := haz_cleared_of_hostMoves hm hs ht
      exact .inr ⟨v, ops, hop, hv⟩
    | succeeds hpend h hr =>
      simp [hr.haz_eq, hs] at ht
    | reset hturn => exact .inl ⟨_, hturn⟩
    | _ => simp [hs] at ht

/-! ### FREQ and the code table -/

theorem freq_of_hostMoves {s t : State} (h : HostMoves s t) : t.freq = s.freq := by
  cases h with
  | idle ht => rw [ht]
  | write hop hw =>
    cases hw with
    | operand ht => exact ht.freq_eq
    | _ => rfl
  | read hop hr => cases hr <;> rfl

/-- A host's move changes the table only by a write to its window while no command runs (R64, R75.2). -/
theorem table_of_hostMoves {s t : State} (h : HostMoves s t) (hne : t.table ≠ s.table) :
    s.busy = false ∧ ∃ off size v ops, s.host = .access (.write off size v) :: ops ∧ TableAccess off size := by
  cases h with
  | idle ht => exact absurd (by rw [ht]) hne
  | write hop hw =>
    cases hw with
    | table hidle h => exact ⟨hidle, _, _, _, _, hop, h⟩
    | operand ht => exact absurd ht.table_eq hne
    | _ => exact absurd rfl hne
  | read hop hr => cases hr <;> exact absurd rfl hne

/-- Settles O15: no move but a successful BUILD_TABLE and reset writes FREQ. -/
theorem freqChangesOnlyByBuildTable : Obligations.FreqChangesOnlyByBuildTable := by
  unfold Obligations.FreqChangesOnlyByBuildTable
  intro s t hstep hne
  cases moves_of_step hstep with
  | host hturn hm => exact absurd (freq_of_hostMoves hm) hne
  | rest => exact absurd rfl hne
  | fails => exact absurd rfl hne
  | @succeeds _ i _ _ hpend h hr =>
    have hi : i = .buildTable := by
      by_contra hi
      exact hne (h.freq_eq hi)
    subst hi
    exact .inl ⟨hpend, rfl, rfl⟩
  | reset hturn => exact .inr ⟨_, hturn⟩

/-- Settles O16: the four writers are BUILD_TABLE, TABLE_CLEAR, the host's writes to the window and reset. -/
theorem tableChangesOnlyByItsWriters : Obligations.TableChangesOnlyByItsWriters := by
  unfold Obligations.TableChangesOnlyByItsWriters
  intro s t hstep hne
  cases moves_of_step hstep with
  | host hturn hm =>
    obtain ⟨hidle, off, size, v, ops, hop, rfl, hlo, hhi, -⟩ := table_of_hostMoves hm hne
    exact .inr (.inl ⟨(busy_eq_false_iff s).1 hidle, off, v, ops, hop, hlo, hhi⟩)
  | rest => exact absurd rfl hne
  | fails => exact absurd rfl hne
  | @succeeds _ i _ _ hpend h hr =>
    have hi : i = .buildTable ∨ i = .tableClear := by
      by_contra hi
      obtain ⟨hb, hc⟩ := not_or.1 hi
      exact hne (h.table_eq hb hc)
    rcases hi with rfl | rfl
    · exact .inl ⟨.inl hpend, rfl, rfl⟩
    · exact .inl ⟨.inr hpend, rfl, rfl⟩
  | reset hturn => exact .inr (.inr ⟨_, hturn⟩)

end Sys2Proof.Machine
end

section
/-! SUPPORT. The registers as the host reads and writes them (R22 to R36), their values after reset (R49, R270), and ERR_INFO
(R39). -/

namespace Sys2Proof.Machine

open Sys2Proof.Safety

/-! ### STATUS -/

theorem getLsbD_append_ofBool {w : Nat} (x : BitVec w) (b : Bool) (k : Nat) :
    (x ++ BitVec.ofBool b).getLsbD k = if k = 0 then b else x.getLsbD (k - 1) := by
  rw [BitVec.getLsbD_append]
  cases k <;> simp

/-- STATUS bit by bit (R25). -/
theorem getLsbD_statusWord (s : State) (k : Nat) : s.statusWord.getLsbD k =
    if k = 0 then s.busy
    else if k = 1 then s.done
    else if k = 2 then s.haz
    else if k < 8 then false
    else if k < 16 then s.err.code.getLsbD (k - 8)
    else if k = 16 then s.diag.empty
    else if k = 17 then s.diag.tail
    else if k = 18 then s.diag.padFault
    else if k = 19 then s.diag.trunc
    else if k = 20 then s.diag.short
    else false := by
  unfold State.statusWord
  change BitVec.getLsbD (w := 11 + 1 + 1 + 1 + 1 + 1 + 8 + 5 + 1 + 1 + 1) _ k = _
  rw [getLsbD_append_ofBool, getLsbD_append_ofBool, getLsbD_append_ofBool, BitVec.getLsbD_append, BitVec.getLsbD_append,
    getLsbD_append_ofBool, getLsbD_append_ofBool, getLsbD_append_ofBool, getLsbD_append_ofBool, getLsbD_append_ofBool]
  have hrsv {w : Nat} (j : Nat) : (0 : BitVec w).getLsbD j = false := BitVec.getLsbD_zero
  simp only [Nat.sub_sub, Nat.reduceAdd, hrsv]
  -- field by field: past the fields below it, both sides test for the same field and answer the same bit
  iterate 10 refine ite_congr (propext ⟨fun _ => by omega, fun _ => by omega⟩) (fun _ => rfl) fun _ => ?_
  rfl

/-- Settles O20: ERR lies in bits 15:8 of the layout. -/
theorem statusWordLayout : Obligations.StatusWordLayout := by
  unfold Obligations.StatusWordLayout
  refine ⟨fun s => ?_, getLsbD_statusWord⟩
  have herr : s.statusWord.extractLsb' 8 8 = s.err.code := by
    refine BitVec.eq_of_getLsbD_eq fun j hj => ?_
    rw [BitVec.getLsbD_extractLsb', getLsbD_statusWord, if_neg (by omega), if_neg (by omega), if_neg (by omega),
      if_neg (by omega), if_pos (by omega), Nat.add_sub_cancel_left, decide_eq_true hj, Bool.true_and]
  rw [State.regRead, herr]
  cases s.err <;> rfl

/-! ### Register accesses -/

theorem access_write_reg (s : State) (r : RegName) (v : Word) : s.access (.write r.offset .b4 v) = s.regWrite r v := by
  rw [State.access, target_reg, State.writeTarget]

/-- Settles O18: every offset written out is its register's own. -/
theorem registerMapOffsets : Obligations.RegisterMapOffsets :=
  ⟨target_reg .id, target_reg .version, target_reg .ctrl, target_reg .status, target_reg .cmd, target_reg .srcAddr,
    target_reg .srcLen, target_reg .dstAddr, target_reg .dstLen, target_reg .n, target_reg .blockBytes,
    target_reg .fecOrigLen, target_reg .fecPad, target_reg .errCorr, target_reg .tableCount, target_reg .blkIndex,
    target_reg .blkAgree, target_reg .errInfo, target_reg⟩

/-- A stored field of k bits reads back as the word written with its reserved bits masked off (R22). -/
theorem setWidth_setWidth_eq_and (v : Word) {k : Nat} (hk : k ≤ 32) :
    (v.setWidth k).setWidth 32 = v &&& BitVec.ofNat 32 (2 ^ k - 1) := by
  have hpow : 2 ^ k ≤ 2 ^ 32 := Nat.pow_le_pow_right (by decide) hk
  have hmask : (BitVec.ofNat 32 (2 ^ k - 1)).toNat = 2 ^ k - 1 := Nat.mod_eq_of_lt (by have := Nat.two_pow_pos k; omega)
  refine BitVec.eq_of_toNat_eq ?_
  rw [BitVec.toNat_and, hmask, Nat.and_two_pow_sub_one_eq_mod, BitVec.toNat_setWidth_of_le hk, BitVec.toNat_setWidth]

/-- CTRL as the host reads it is IRQ_EN (R24). -/
theorem ctrlWord_eq (s : State) : s.ctrlWord = (BitVec.ofBool s.irqEn).setWidth 32 := by
  unfold State.ctrlWord
  cases s.irqEn <;> rfl

/-- The operand registers store their field while no command runs (R27 to R33). -/
theorem regWrite_operands_idle {s : State} (v : Word) (h : s.busy = false) :
    s.regWrite .srcAddr v = { s with srcAddr := v } ∧ s.regWrite .srcLen v = { s with srcLen := v } ∧
    s.regWrite .dstAddr v = { s with dstAddr := v } ∧ s.regWrite .n v = { s with n := v.setWidth 4 } ∧
    s.regWrite .blockBytes v = { s with blockBytes := v.setWidth 8 } ∧
    s.regWrite .fecOrigLen v = { s with fecOrigLen := v } := by
  simp only [State.regWrite, whileIdle_idle _ h, and_self]

/-- Settles O19: the writes as `regWrite` defines them, and the fields N, BLOCK_BYTES and IRQ_EN read back. -/
theorem registerWritesStoreTheirField : Obligations.RegisterWritesStoreTheirField := by
  unfold Obligations.RegisterWritesStoreTheirField
  intro s v
  have hctrl : s.access (.write 0x00008 .b4 v) = { s with irqEn := v.getLsbD 0 } := access_write_reg s .ctrl v
  refine ⟨fun hpend => ?idle, ⟨?ctrl, ?ctrlRead⟩, access_write_reg s .status v⟩
  case ctrl => rw [hctrl]
  case ctrlRead => rw [hctrl, State.regRead, ctrlWord_eq]; exact BitVec.and_one_eq_setWidth_ofBool_getLsbD.symm
  case idle =>
    obtain ⟨hsrcAddr, hsrcLen, hdstAddr, hn, hb, hfec⟩ := regWrite_operands_idle v ((busy_eq_false_iff s).2 hpend)
    refine ⟨(access_write_reg s .srcAddr v).trans hsrcAddr, (access_write_reg s .srcLen v).trans hsrcLen,
      (access_write_reg s .dstAddr v).trans hdstAddr, ?n, ?blockBytes, (access_write_reg s .fecOrigLen v).trans hfec⟩
    case n =>
      have hwrite : s.access (.write 0x00024 .b4 v) = { s with n := v.setWidth 4 } := (access_write_reg s .n v).trans hn
      rw [hwrite]
      exact ⟨rfl, setWidth_setWidth_eq_and v (by decide)⟩
    case blockBytes =>
      have hwrite : s.access (.write 0x00028 .b4 v) = { s with blockBytes := v.setWidth 8 } :=
        (access_write_reg s .blockBytes v).trans hb
      rw [hwrite]
      exact ⟨rfl, setWidth_setWidth_eq_and v (by decide)⟩

/-! ### TABLE_COUNT -/

/-- TABLE_COUNT counts the present entries (R36). -/
theorem tableCount_eq (s : State) : s.tableCount = (List.finRange 256).countP fun k => s.table[k].len ≠ 0 := by
  have hsymbols : symbols = (List.finRange 256).map fun k => BitVec.ofNat 8 k.val := by
    rw [symbols, ← List.map_coe_finRange_eq_range, List.map_map]
    rfl
  rw [State.tableCount, tableOf_eq, List.length_filterMap_eq_countP, hsymbols, List.countP_map]
  refine List.countP_congr fun k _ => ?_
  have hk : ramGet s.table (BitVec.ofNat 8 k.val) = s.table[k] := by simp [ramGet]
  rw [Function.comp_apply, hk]
  generalize s.table[k] = entry
  by_cases h : entry.len = 0 <;> simp [h]

theorem tableCount_le (s : State) : s.tableCount ≤ 256 := by
  rw [tableCount_eq]
  exact List.countP_le_length.trans_eq List.length_finRange

theorem tableCount_reset : State.reset.tableCount = 0 := by
  rw [tableCount_eq, List.countP_eq_zero]
  intro k _
  simp [State.reset, TableRam.zero, TableEntry.zero]

theorem toNat_regRead_tableCount (s : State) : (s.regRead .tableCount).toNat = s.tableCount := by
  have hle := tableCount_le s
  exact Nat.mod_eq_of_lt (by omega)

/-- Settles O25: the register is wide enough for the count of 256 entries, and is read-only. -/
theorem tableCountIsLive : Obligations.TableCountIsLive := by
  unfold Obligations.TableCountIsLive
  refine ⟨BitVec.eq_of_toNat_eq ((toNat_regRead_tableCount _).trans tableCount_reset), fun s => ?_⟩
  rw [toNat_regRead_tableCount]
  exact ⟨tableCount_eq s, tableCount_le s, access_write_reg s .tableCount⟩

/-! ### Reset -/

/-- Settles O6: the registers by evaluation, TABLE_COUNT and the RAMs by the lemmas about them. -/
theorem resetRegisterValues : Obligations.ResetRegisterValues := by
  unfold Obligations.ResetRegisterValues
  have hcount : State.reset.regRead .tableCount = 0 := tableCountIsLive.1
  refine ⟨rfl, rfl, rfl, rfl, rfl, rfl, rfl, rfl, rfl, rfl, rfl, rfl, rfl, rfl, hcount, rfl, rfl, rfl, rfl, rfl, fun sym => ?_⟩
  have htable : ramGet State.reset.table sym = TableEntry.zero := ramGet_zero sym
  rw [htable]
  exact ⟨rfl, fun j => by simp [TableEntry.zero], by simp [ramGet, State.reset]⟩

/-! ### ERR_INFO -/

/-- The byte b is the first of d that the table t lacks (R39, R156). -/
def FirstAbsent (t : CodeTable) (d : ByteString) (b : Byte) : Prop :=
  ∃ pre post, d = pre ++ b :: post ∧ b ∉ t.map Prod.fst ∧ ∀ x ∈ pre, x ∈ t.map Prod.fst

theorem notMem_of_lookup_eq_none {t : CodeTable} {b : Byte} (h : t.lookup b = none) : b ∉ t.map Prod.fst := by
  rw [List.lookup_eq_none_iff] at h
  rw [List.mem_map]
  rintro ⟨e, he, rfl⟩
  simpa using h e he

theorem mem_of_lookup_eq_some {t : CodeTable} {b : Byte} {c : BitString} (h : t.lookup b = some c) : b ∈ t.map Prod.fst := by
  by_contra hb
  have hnone : t.lookup b = none := by
    refine List.lookup_eq_none_iff.2 fun e he => bne_iff_ne.2 ?_
    rintro rfl
    exact hb (List.mem_map_of_mem he)
  rw [hnone] at h
  cases h

theorem firstAbsent_of_encodeSymbols {t : CodeTable} {d : ByteString} {b : Byte} (h : encodeSymbols t d = .error b) :
    FirstAbsent t d b := by
  induction d with
  | nil => cases h
  | cons x rest ih =>
    rw [encodeSymbols] at h
    split at h
    case h_1 hx =>
      cases h
      exact ⟨[], rest, rfl, notMem_of_lookup_eq_none hx, nofun⟩
    case h_2 c hx =>
      split at h <;> cases h
      rename_i hrest
      obtain ⟨pre, post, rfl, hb, hpre⟩ := ih hrest
      exact ⟨x :: pre, post, rfl, hb, List.forall_mem_cons.2 ⟨mem_of_lookup_eq_some hx, hpre⟩⟩

/-- The error of `Enc` is the first absent byte, for a table of one entry too (R156). -/
theorem firstAbsent_of_encodeBytes {t : CodeTable} {d : ByteString} {b : Byte} (h : encodeBytes t d = .error b) :
    FirstAbsent t d b := by
  by_cases hlen : t.length = 1
  · obtain ⟨⟨sym, c⟩, rfl⟩ := List.length_eq_one_iff.1 hlen
    rw [encodeBytes_one] at h
    split at h <;> cases h
    rename_i hfind
    obtain ⟨hb, pre, post, rfl, hpre⟩ := List.find?_eq_some_iff_append.1 hfind
    exact ⟨pre, post, rfl, by simpa using hb, by simpa using hpre⟩
  · rw [encodeBytes_of_length_ne_one d hlen] at h
    exact firstAbsent_of_encodeSymbols h

theorem mem_tableOf_symbols {ram : TableRam} {sym : Byte} : sym ∈ (tableOf ram).map Prod.fst ↔ (ramGet ram sym).len ≠ 0 := by
  rw [List.mem_map]
  constructor
  · rintro ⟨⟨_, c⟩, he, rfl⟩
    exact (mem_tableOf.1 he).1
  · exact fun h => ⟨(sym, (ramGet ram sym).codeOf), mem_tableOf.2 ⟨h, rfl⟩, rfl⟩

/-- Settles O38: of all outcomes only COMPRESS's SYMBOL_ABSENT has an ERR_INFO, the byte at which `Enc` failed. -/
theorem errInfoNamesTheFirstAbsentByte : Obligations.ErrInfoNamesTheFirstAbsentByte := by
  unfold Obligations.ErrInfoNamesTheFirstAbsentByte
  intro i s t h
  rw [exec_next_iff] at h
  rcases complete_outcomeOf_cases i s with ⟨e, info, hf, hc⟩ | ⟨u, fl, -, -, hc⟩ <;> rw [h, hc]
  · cases hf with
    | check hnone habsent => exact ⟨fun _ => rfl, fun he => absurd he habsent⟩
    | @absent b henc =>
      obtain ⟨pre, post, hd, hb, hpre⟩ := firstAbsent_of_encodeBytes henc
      refine ⟨(absurd rfl ·), fun _ => ⟨pre, b, post, hd, rfl, ?_, fun x hx => mem_tableOf_symbols.1 (hpre x hx)⟩⟩
      exact not_not.1 fun hlen => hb (mem_tableOf_symbols.2 hlen)
  · exact ⟨fun _ => rfl, nofun⟩

end Sys2Proof.Machine
end

section
/-! SUPPORT. The host's transactions by the target they reach (R61 to R65, R75): the dropped ones, the hidden and refused ones
while a command runs, and the register reads. -/

namespace Sys2Proof.Machine

open Sys2Proof.Safety

/-! ### Dropped accesses -/

theorem not_droppedAccess_offset (r : RegName) : ¬ DroppedAccess r.offset .b4 := by cases r <;> decide

theorem not_droppedAccess_of_hiddenRead {off : Offset} {size : Size} (h : HiddenRead off size) : ¬ DroppedAccess off size := by
  rcases h with ⟨rfl, h⟩ | ⟨rfl, h⟩ | ⟨hlo, rfl | ⟨rfl, h⟩⟩
  all_goals
    simp only [DroppedAccess, ne_eq, eq_self, reduceCtorEq, not_true_eq_false, not_false_eq_true, true_and, and_true, false_and,
      and_false, false_or, or_false]
    omega

/-- A dropped access reaches nothing: whatever else a target is, its accesses are not dropped ones (R62). -/
theorem target_droppedAccess {off : Offset} {size : Size} (h : DroppedAccess off size) : target off size = .dropped := by
  have hreach := reaches_target off size
  generalize target off size = t at hreach ⊢
  cases hreach with
  | dropped => rfl
  | reg hsize hoff => subst hsize hoff; exact absurd h (not_droppedAccess_offset _)
  | elen ht | code ht => exact absurd h (not_droppedAccess_of_hiddenRead (.inl ht))
  | freq hf => exact absurd h (not_droppedAccess_of_hiddenRead (.inr (.inl hf)))
  | bufByte hb | bufWord hb => exact absurd h (not_droppedAccess_of_hiddenRead (.inr (.inr hb)))

theorem access_write_dropped (s : State) {off : Offset} {size : Size} (v : Word) (h : DroppedAccess off size) :
    s.access (.write off size v) = s := by
  rw [State.access, target_droppedAccess h, State.writeTarget]

theorem access_read_dropped (s : State) {off : Offset} {size : Size} (h : DroppedAccess off size) :
    s.access (.read off size) = s.setRdata 0 := by
  rw [State.access, target_droppedAccess h, State.readTarget, Target.guarded, Bool.and_false, if_neg Bool.false_ne_true]
  rfl

/-- An access at an offset of the FREQ window reaches a counter or nothing (R65). -/
theorem target_freqWindow {off : Offset} (size : Size) (hlo : 0x1000 ≤ off.toNat) (hhi : off.toNat < 0x1400) :
    target off size = .dropped ∨ ∃ sym, target off size = .freq sym := by
  have hreach := reaches_target off size
  generalize target off size = t at hreach ⊢
  cases hreach with
  | dropped => exact .inl rfl
  | freq => exact .inr ⟨_, rfl⟩
  | @reg r _ hoff =>
    have hreg : r.offset.toNat < 0x1000 := by cases r <;> decide
    subst hoff
    omega
  | elen ht | code ht =>
    obtain ⟨-, htable, -⟩ := ht
    omega
  | bufByte hb | bufWord hb =>
    obtain ⟨hbuf, -⟩ := hb
    omega

/-- FREQ is read-only (R65). -/
theorem access_write_freqWindow (s : State) {off : Offset} (size : Size) (v : Word) (hlo : 0x1000 ≤ off.toNat)
    (hhi : off.toNat < 0x1400) : s.access (.write off size v) = s := by
  rw [State.access]
  rcases target_freqWindow size hlo hhi with ht | ⟨sym, ht⟩ <;> rw [ht, State.writeTarget]

/-! ### Registers -/

/-- The RO registers ignore writes (R62). -/
theorem access_write_readOnly (s : State) {r : RegName} (v : Word)
    (hr : r ∈ [RegName.id, .version, .dstLen, .fecPad, .errCorr, .tableCount, .blkIndex, .blkAgree, .errInfo]) :
    s.access (.write r.offset .b4 v) = s := by
  rw [access_write_reg]
  cases r
  case ctrl | status | cmd | srcAddr | srcLen | dstAddr | n | blockBytes | fecOrigLen => exact absurd hr (by decide)
  all_goals rfl

/-- The registers that a running command protects (R75.1). -/
theorem access_write_protected_busy {s : State} (hbusy : s.busy = true) {r : RegName} (v : Word)
    (hr : r ∈ [RegName.cmd, .srcAddr, .srcLen, .dstAddr, .n, .blockBytes, .fecOrigLen]) :
    s.access (.write r.offset .b4 v) = s.markHazard := by
  rw [access_write_reg]
  cases r
  case cmd | srcAddr | srcLen | dstAddr | n | blockBytes | fecOrigLen =>
    rw [State.regWrite]
    exact whileIdle_busy _ hbusy
  all_goals exact absurd hr (by decide)

/-- STATUS takes W1C at any time (R25, R75.4). -/
theorem access_write_status (s : State) (v : Word) : s.access (.write 0x0000C .b4 v) =
    { s with done := s.done && !v.getLsbD 1, haz := s.haz && !v.getLsbD 2 } :=
  access_write_reg s .status v

theorem regRead_eq_registerValue (s : State) (r : RegName) : s.regRead r = registerValue s r := by
  cases r
  case ctrl =>
    rw [State.regRead, ctrlWord_eq, registerValue]
    cases s.irqEn <;> rfl
  case n | blockBytes | blkIndex | blkAgree => exact (BitVec.ofNat_toNat _ _).symm
  all_goals rfl

/-- No running command hides a register (R75.5). -/
theorem access_read_reg (s : State) (r : RegName) : s.access (.read r.offset .b4) = s.setRdata (registerValue s r) := by
  rw [State.access, target_reg, State.readTarget, Target.guarded, Bool.and_false, if_neg Bool.false_ne_true,
    State.windowRead, regRead_eq_registerValue]

/-- Settles O60: the read as the port answers it. -/
theorem registerReadsReturnTheirValue : Obligations.RegisterReadsReturnTheirValue := access_read_reg

/-- Settles O13: a dropped access reaches no target, FREQ and the RO registers take no write, and STATUS takes only W1C. -/
theorem droppedAccessesChangeNothing : Obligations.DroppedAccessesChangeNothing := by
  unfold Obligations.DroppedAccessesChangeNothing
  refine fun s => ⟨fun off size h => ⟨(access_write_dropped s · h), access_read_dropped s h⟩,
    fun off size => access_write_freqWindow s size, fun r => access_write_readOnly s, fun v => ?status⟩
  rw [access_write_status]
  exact ⟨rfl, rfl, rfl⟩

/-! ### The guarded windows -/

/-- A running command hides the reads of the guarded windows (R75.3). -/
theorem access_read_hidden {s : State} {off : Offset} {size : Size} (hbusy : s.busy = true) (h : HiddenRead off size) :
    s.access (.read off size) = s.markHazard.setRdata 0 := by
  rw [State.access, State.readTarget, hbusy, (guarded_target_iff off size).2 h, Bool.true_and, if_pos rfl]

/-- Every other read shows what its target holds (R71). -/
theorem access_read_shown {s : State} {off : Offset} {size : Size} (h : ¬ (s.busy = true ∧ HiddenRead off size)) :
    s.access (.read off size) = s.setRdata (s.windowRead (target off size)) := by
  rw [← guarded_target_iff, ← Bool.and_eq_true_iff] at h
  rw [State.access, State.readTarget, if_neg h]

/-- Settles O21: each read is one or the other. -/
theorem readsHaveNoSideEffects : Obligations.ReadsHaveNoSideEffects := by
  unfold Obligations.ReadsHaveNoSideEffects
  refine fun s off size => ⟨fun h => ?shown, access_read_hidden⟩
  rw [access_read_shown h]
  rfl

theorem access_read_guarded_busy {s : State} {off : Offset} {size : Size} {t : Target} (hbusy : s.busy = true)
    (ht : target off size = t) (hguarded : t.guarded = true) : s.access (.read off size) = s.markHazard.setRdata 0 :=
  access_read_hidden hbusy ((guarded_target_iff off size).1 (ht ▸ hguarded))

/-- A running command refuses the writes of the guarded windows with HAZ (R75.2). FREQ is no such window: it drops writes
without HAZ (R65, R75.6). -/
theorem access_write_guarded_busy {s : State} {off : Offset} {size : Size} {t : Target} (v : Word) (hbusy : s.busy = true)
    (ht : target off size = t) (hguarded : t.guarded = true) (hfreq : ∀ sym, t ≠ .freq sym) :
    s.access (.write off size v) = s.markHazard := by
  rw [State.access, ht]
  cases t with
  | dropped | reg => cases hguarded
  | freq sym => exact absurd rfl (hfreq sym)
  | elen | code | bufByte | bufWord =>
    rw [State.writeTarget]
    exact whileIdle_busy _ hbusy

/-- Settles O12, clause by clause: the refused writes, the hidden reads, what stays open to the host, and the dropped
accesses. -/
theorem accessRulesWhileBusy : Obligations.AccessRulesWhileBusy := by
  unfold Obligations.AccessRulesWhileBusy
  intro s hbusy
  obtain ⟨hdropped, hfreq, hreadOnly, -⟩ := droppedAccessesChangeNothing s
  exact ⟨fun r => access_write_protected_busy hbusy,
    fun sym v => access_write_guarded_busy v hbusy (target_elen sym) rfl nofun,
    fun sym k v hk => access_write_guarded_busy v hbusy (target_code sym hk) rfl nofun,
    fun a v ha => access_write_guarded_busy v hbusy (target_bufByte ha) rfl nofun,
    fun a v ha h4 => access_write_guarded_busy v hbusy (target_bufWord ha h4) rfl nofun,
    fun sym => access_read_guarded_busy hbusy (target_elen sym) rfl,
    fun sym k hk => access_read_guarded_busy hbusy (target_code sym hk) rfl,
    fun sym => access_read_guarded_busy hbusy (target_freq sym) rfl,
    fun a ha => access_read_guarded_busy hbusy (target_bufByte ha) rfl,
    fun a ha h4 => access_read_guarded_busy hbusy (target_bufWord ha h4) rfl,
    access_write_reg s .ctrl, access_write_status s, access_read_reg s, hdropped, hfreq, hreadOnly⟩

end Sys2Proof.Machine
end

section
/-! SUPPORT. The BUF, TABLE and FREQ windows while no command runs: bytes and byte lanes of words (R69), what each window's
accesses read and store (R64, R65, R68). -/

namespace Sys2Proof.Machine

/-! ### Byte lanes -/

/-- A word is its four byte lanes (R69). -/
theorem word_ext_of_lanes {v w : Word} (h : ∀ q, q < 4 → v.extractLsb' (8 * q) 8 = w.extractLsb' (8 * q) 8) : v = w := by
  refine BitVec.eq_of_getLsbD_eq fun i hi => ?_
  have hbit := congrArg (BitVec.getLsbD · (i % 8)) (h (i / 8) (by omega))
  have hmod : i % 8 < 8 := by omega
  simpa only [BitVec.getLsbD_extractLsb', hmod, decide_true, Bool.true_and, Nat.div_add_mod] using hbit

theorem lane_zero (v : Word) : lane v 0 = v.setWidth 8 := rfl

theorem getD_lanes (v : Word) {q : Nat} (h : q < 4) : (lanes v).getD q 0 = v.extractLsb' (8 * q) 8 := by
  match q, h with
  | 0, _ | 1, _ | 2, _ | 3, _ => rfl

/-- A byte lane on the low lane of the port (R69). -/
theorem setWidth_extractLsb' (v : Word) (q : Nat) : (v.extractLsb' (8 * q) 8).setWidth 32 = (v >>> (8 * q)) &&& 0xFF := by
  have hlane : v.extractLsb' (8 * q) 8 = (v >>> (8 * q)).setWidth 8 := rfl
  rw [hlane, setWidth_setWidth_eq_and _ (by decide)]
  rfl

/-! ### Transactions while no command runs -/

theorem access_read_idle {s : State} {off : Offset} {size : Size} {t : Target} (hidle : s.busy = false)
    (ht : target off size = t) : s.access (.read off size) = s.setRdata (s.windowRead t) := by
  rw [State.access, ht, readTarget_idle t hidle]

theorem access_write_bufByte {s : State} {a : Nat} (v : Word) (hidle : s.busy = false) (ha : a < 65536) :
    s.access (.write (bufOffset a) .b1 v) = s.writeBytes a [lane v 0] := by
  rw [State.access, target_bufByte ha, State.writeTarget, whileIdle_idle _ hidle]

theorem access_write_bufWord {s : State} {a : Nat} (v : Word) (hidle : s.busy = false) (ha : a < 65536) (h4 : a % 4 = 0) :
    s.access (.write (bufOffset a) .b4 v) = s.writeBytes a (lanes v) := by
  rw [State.access, target_bufWord ha h4, State.writeTarget, whileIdle_idle _ hidle]

theorem access_write_elen {s : State} (sym : Byte) (v : Word) (hidle : s.busy = false) :
    s.access (.write (tableOffset sym 0) .b4 v) =
      s.setTable (ramSet s.table sym { len := lane v 0, code := (ramGet s.table sym).code }) := by
  rw [State.access, target_elen, State.writeTarget, whileIdle_idle _ hidle]

theorem access_write_code {s : State} (sym : Byte) {k : Nat} (v : Word) (hidle : s.busy = false) (hk : k < 8) :
    s.access (.write (tableOffset sym (0x20 + 4 * k)) .b4 v) =
      s.setTable (ramSet s.table sym ((ramGet s.table sym).setCodeWord (BitVec.ofNat 3 k) v)) := by
  rw [State.access, target_code sym hk, State.writeTarget, whileIdle_idle _ hidle]

/-! ### BUF -/

/-- BUF after a word write: its lanes in address order (R69). -/
theorem byteAt_writeBytes_lanes (s : State) (a : Nat) (v : Word) (x : Nat) :
    (s.writeBytes a (lanes v)).byteAt x = if a ≤ x ∧ x < a + 4 then v.extractLsb' (8 * (x - a)) 8 else s.byteAt x := by
  rw [byteAt_writeBytes, length_lanes]
  split
  · exact getD_lanes v (by omega)
  · rfl

theorem byteAt_writeBytes_singleton (s : State) (a : Nat) (b : Byte) (x : Nat) :
    (s.writeBytes a [b]).byteAt x = if x = a then b else s.byteAt x := by
  rw [byteAt_writeBytes, List.length_singleton]
  by_cases hx : x = a
  · subst hx
    rw [if_pos ⟨Nat.le_refl x, Nat.lt_succ_self x⟩, if_pos rfl, Nat.sub_self]
    rfl
  · rw [if_neg (by omega), if_neg hx]

/-- The port's value of a BUF word, lane by lane (R69). -/
theorem extractLsb'_windowRead_bufWord (s : State) (a : Nat) {q : Nat} (hq : q < 4) :
    (s.windowRead (.bufWord a)).extractLsb' (8 * q) 8 = s.byteAt (a + q) :=
  extractLsb'_leWord (fun q => s.byteAt (a + q)) hq

/-- A word written to BUF reads back (R69). -/
theorem windowRead_bufWord_writeBytes (s : State) (a : Nat) (v : Word) :
    (s.writeBytes a (lanes v)).windowRead (.bufWord a) = v := by
  refine word_ext_of_lanes fun q hq => ?_
  rw [extractLsb'_windowRead_bufWord _ _ hq, byteAt_writeBytes_lanes, if_pos (by omega), Nat.add_sub_cancel_left]

/-- Settles O22: each access by the byte or word of BUF it reaches. -/
theorem bufWindowAccesses : Obligations.BufWindowAccesses := by
  unfold Obligations.BufWindowAccesses
  intro s a v hpend ha
  have hidle : s.busy = false := (busy_eq_false_iff s).2 hpend
  refine ⟨access_read_idle hidle (target_bufByte ha), fun h4 => ⟨_, access_read_idle hidle (target_bufWord ha h4), rfl,
    fun q hq => extractLsb'_windowRead_bufWord s a hq⟩,
    fun h4 => ⟨_, access_write_bufWord v hidle ha h4, rfl, byteAt_writeBytes_lanes s a v, ?wordBack, fun q hq => ?byteOfWord⟩,
    _, access_write_bufByte v hidle ha, rfl, ?byteFrame, ?byteBack⟩
  case wordBack =>
    rw [access_read_idle ((busy_writeBytes s a _).trans hidle) (target_bufWord ha h4), setRdata_rdata,
      windowRead_bufWord_writeBytes]
  case byteOfWord =>
    rw [access_read_idle ((busy_writeBytes s a _).trans hidle) (target_bufByte (by omega)), setRdata_rdata, State.windowRead,
      byteAt_writeBytes_lanes, if_pos (by omega), Nat.add_sub_cancel_left, setWidth_extractLsb']
  case byteFrame => rw [lane_zero]; exact byteAt_writeBytes_singleton s a _
  case byteBack =>
    rw [access_read_idle ((busy_writeBytes s a _).trans hidle) (target_bufByte ha), setRdata_rdata, State.windowRead,
      byteAt_writeBytes_singleton, if_pos rfl]
    exact setWidth_extractLsb' v 0

/-! ### TABLE and FREQ -/

theorem codeByte_eq (e : TableEntry) (j : Fin 32) : e.codeByte j.val = e.code[j] := by
  simp [TableEntry.codeByte]

/-- The CODE word of an entry, lane by lane (R64). -/
theorem extractLsb'_codeWord (e : TableEntry) {k q : Nat} (hk : k < 8) (hq : q < 4) :
    (e.codeWord (BitVec.ofNat 3 k)).extractLsb' (8 * q) 8 = e.codeByte (4 * k + q) := by
  have hmod : (BitVec.ofNat 3 k).toNat = k := Nat.mod_eq_of_lt hk
  rw [TableEntry.codeWord, hmod]
  exact extractLsb'_leWord (fun q => e.codeByte (4 * k + q)) hq

theorem setCodeWord_len (e : TableEntry) (w : BitVec 3) (v : Word) : (e.setCodeWord w v).len = e.len := by
  rw [TableEntry.setCodeWord]

/-- A CODE word stored takes the place of its own four bytes alone (R64). -/
theorem code_setCodeWord (e : TableEntry) {k : Nat} (hk : k < 8) (v : Word) (j : Fin 32) :
    (e.setCodeWord (BitVec.ofNat 3 k) v).code[j] =
      if j.val / 4 = k then v.extractLsb' (8 * (j.val % 4)) 8 else e.code[j] := by
  have hmod : (BitVec.ofNat 3 k).toNat = k := Nat.mod_eq_of_lt hk
  simp [TableEntry.setCodeWord, hmod, lane]

theorem codeWord_setCodeWord (e : TableEntry) {k : Nat} (hk : k < 8) (v : Word) :
    (e.setCodeWord (BitVec.ofNat 3 k) v).codeWord (BitVec.ofNat 3 k) = v := by
  refine word_ext_of_lanes fun q hq => ?_
  have hdiv : (4 * k + q) / 4 = k := by omega
  have hmod : (4 * k + q) % 4 = q := by omega
  rw [extractLsb'_codeWord _ hk hq, codeByte_eq _ ⟨4 * k + q, by omega⟩, code_setCodeWord e hk, if_pos hdiv, hmod]

theorem ramGet_ramSet_same {α : Type} (ram : Vector α 256) (sym : Byte) (x : α) : ramGet (ramSet ram sym x) sym = x := by
  rw [ramGet_ramSet, if_pos rfl]

theorem ramGet_ramSet_of_ne {α : Type} (ram : Vector α 256) {sym other : Byte} (x : α) (h : other ≠ sym) :
    ramGet (ramSet ram sym x) other = ramGet ram other := by
  rw [ramGet_ramSet, if_neg h.symm]

/-- Settles O23: each access by the field of the entry, or the counter, that it reaches. -/
theorem tableAndFreqWindows : Obligations.TableAndFreqWindows := by
  unfold Obligations.TableAndFreqWindows
  intro s sym v hpend
  have hidle : s.busy = false := (busy_eq_false_iff s).2 hpend
  refine ⟨access_read_idle hidle (target_elen sym),
    fun j => ⟨_, access_read_idle hidle (target_code sym (by omega)), rfl, ?codeRead⟩,
    ⟨_, access_write_elen sym v hidle, rfl, ?elenBack, ?elenCode, fun other h => ramGet_ramSet_of_ne _ _ h⟩,
    fun k hk => ⟨_, access_write_code sym v hidle hk, rfl, ?codeBack, ?codeLen, fun j => ?codeBytes,
      fun other h => ramGet_ramSet_of_ne _ _ h⟩,
    access_read_idle hidle (target_freq sym)⟩
  case codeRead =>
    have hj : 4 * (j.val / 4) + j.val % 4 = j.val := Nat.div_add_mod j.val 4
    rw [setRdata_rdata, State.windowRead, extractLsb'_codeWord _ (by omega) (by omega), hj, codeByte_eq]
  case elenBack =>
    rw [access_read_idle ((busy_setTable s _).trans hidle) (target_elen sym), setRdata_rdata, State.windowRead,
      setTable_table, ramGet_ramSet_same]
    exact setWidth_extractLsb' v 0
  case elenCode => rw [setTable_table, ramGet_ramSet_same]
  case codeBack =>
    rw [access_read_idle ((busy_setTable s _).trans hidle) (target_code sym hk), setRdata_rdata, State.windowRead,
      setTable_table, ramGet_ramSet_same, codeWord_setCodeWord _ hk]
  case codeLen => rw [setTable_table, ramGet_ramSet_same, setCodeWord_len]
  case codeBytes => rw [setTable_table, ramGet_ramSet_same]; exact code_setCodeWord _ hk v j

end Sys2Proof.Machine
end

section
/-! SUPPORT. The decoder and the encoder are inverse (R92), and the two ways a word is illegal (R91, R93). -/

namespace Sys2Proof.Machine

/-! ### The decoder's three answers -/

/-- Every command's encoding fits: the law of each command, gathered over the constructors (R90, R92). -/
theorem encodingFits (i : Instr) : Laws.EncodingFits.Statement i := by
  cases i with
  | nop => exact Laws.EncodingFits.nop
  | buildTable => exact Laws.EncodingFits.buildTable
  | tableClear => exact Laws.EncodingFits.tableClear
  | compress => exact Laws.EncodingFits.compress
  | decompress => exact Laws.EncodingFits.decompress
  | pack => exact Laws.EncodingFits.pack
  | unpack => exact Laws.EncodingFits.unpack
  | encodeBlock => exact Laws.EncodingFits.encodeBlock
  | decodeBlock => exact Laws.EncodingFits.decodeBlock
  | fecEncode => exact Laws.EncodingFits.fecEncode
  | fecDecode => exact Laws.EncodingFits.fecDecode

theorem decode_encode (i : Instr) : decode (encode i) = .ok i := by
  obtain ⟨hrsv, hop, hmap, -⟩ := encodingFits i
  rw [decode, if_neg (not_not.2 hrsv), hop, hmap]

/-- A command has one word, its encoding (R92). -/
theorem decode_eq_ok_iff {w : Word} {i : Instr} : decode w = .ok i ↔ w = encode i :=
  ⟨eq_encode_of_decode, fun h => h ▸ decode_encode i⟩

/-- RSV other than 0 makes a word illegal whatever its OP is (R91). -/
theorem decode_of_rsvField_ne_zero {w : Word} (h : rsvField w ≠ 0) : decode w = .error .reservedBits := by
  rw [decode, if_pos h]

/-- With RSV = 0, an OP outside the opcode map makes a word illegal (R93). -/
theorem decode_of_commandOf_eq_none {w : Word} (hrsv : rsvField w = 0) (hop : commandOf (opField w) = none) :
    decode w = .error .reservedOpcode := by
  rw [decode, if_neg (not_not.2 hrsv), hop]

/-! ### Match values -/

/-- RSV = 0 adds nothing: the word's number is the opcode's (R92). -/
theorem toNat_encode (i : Instr) : (encode i).toNat = (opcode i).toNat := by
  rw [encode, BitVec.toNat_append]
  simp

/-- Settles O1: the decoder inverts the encoder on every word, and each match value is the command's opcode. -/
theorem decodeAndEncodeAgree : Obligations.DecodeAndEncodeAgree := by
  unfold Obligations.DecodeAndEncodeAgree
  refine fun w i => ⟨decode_eq_ok_iff, ?matchValue⟩
  case matchValue =>
    rw [toNat_encode]
    cases i <;> decide

/-- Settles O2: each legal word is an encoding, and each illegal one fails by its RSV or by its OP. -/
theorem sampleWordsDecode : Obligations.SampleWordsDecode := by
  unfold Obligations.SampleWordsDecode
  exact ⟨decode_eq_ok_iff.2 (by decide), decode_eq_ok_iff.2 (by decide), decode_eq_ok_iff.2 (by decide),
    decode_of_rsvField_ne_zero (by decide), decode_of_rsvField_ne_zero (by decide),
    decode_of_commandOf_eq_none (by decide) (by decide), decode_of_commandOf_eq_none (by decide) (by decide)⟩

end Sys2Proof.Machine
end

section
/-! SUPPORT. One step, said once as an equation for each turn of the schedule and each state of PEND (R15, R111, R119, R270; log
entry 3), runs of steps, and the commands' words at the port and the engine (R110, R120). -/

namespace Sys2Proof.Machine

/-! ### The step at each turn -/

theorem step_hostTurn {s : State} {ts : List Turn} (hturns : s.turns = .host :: ts) :
    step s = .next (s.setTurns ts).hostTurn := by
  rw [step, nextMove, hturns]

theorem step_engineTurn {s : State} {ts : List Turn} (hturns : s.turns = .engine :: ts) :
    step s = engineTurn (s.setTurns ts) := by
  rw [step, nextMove, hturns]

theorem step_resetTurn {s : State} {ts : List Turn} (hturns : s.turns = .reset :: ts) :
    step s = .next (s.setTurns ts).resetInput := by
  rw [step, nextMove, hturns]

/-- With no turn laid down a pending command completes (R119). -/
theorem step_unscheduled_busy {s : State} (hturns : s.turns = []) (hbusy : s.busy = true) : step s = engineTurn s := by
  rw [step, nextMove, hturns]
  exact if_pos hbusy

theorem step_unscheduled_idle {s : State} (hturns : s.turns = []) (hidle : s.busy = false) : step s = .next s.hostTurn := by
  rw [step, nextMove, hturns]
  exact if_neg (by simp [hidle])

/-- A host with nothing to do leaves all as it is (R256). -/
theorem hostTurn_nil {s : State} (hop : s.host = []) : s.hostTurn = s := by
  rw [State.hostTurn, hop]

/-- The host's next transaction (R73). -/
theorem hostTurn_access {s : State} {a : Access} {ops : List HostOp} (hop : s.host = .access a :: ops) :
    s.hostTurn = (s.setHost ops).access a := by
  rw [State.hostTurn, hop]

/-- The engine's completion is the meaning of the command that the pending word encodes (R111). -/
theorem engineTurn_command {s : State} {w : Word} {i : Instr} (hpend : s.pend = .running w) (hdec : decode w = .ok i) :
    engineTurn s = exec i s := by
  rw [engineTurn_running hpend, completeWord_ok s hdec, exec_eq_complete]

/-- Settles O4: the engine's turn of the schedule, and the empty schedule, are the two ways in which the engine moves. -/
theorem stepRunsTheDecodedCommand : Obligations.StepRunsTheDecodedCommand := by
  unfold Obligations.StepRunsTheDecodedCommand
  intro s w i hpend hdec
  refine ⟨fun hturns => ?unscheduled, fun ts hturns => ?scheduled⟩
  case unscheduled =>
    rw [step_unscheduled_busy hturns ((busy_eq_true_iff s).2 ⟨w, hpend⟩), engineTurn_command hpend hdec]
  case scheduled =>
    rw [step_engineTurn hturns]
    exact engineTurn_command (s := s.setTurns ts) hpend hdec

/-! ### Every step answers -/

/-- The engine, moving or resting, and the completion that it makes when it moves. -/
theorem engineTurn_cases (s : State) :
    (s.pend = .idle ∧ engineTurn s = .next s) ∨ ∃ w, s.pend = .running w ∧ engineTurn s = .next (s.completeWord w) := by
  cases hpend : s.pend with
  | idle => exact .inl ⟨rfl, engineTurn_idle hpend⟩
  | running w => exact .inr ⟨w, rfl, engineTurn_running hpend⟩

/-- The next state of every step, by the operation that made it; `ts` is the schedule that is left. -/
theorem step_cases (s : State) : ∃ ts,
    step s = .next (s.setTurns ts).hostTurn ∨
    (s.pend = .idle ∧ step s = .next (s.setTurns ts)) ∨
    (∃ w, s.pend = .running w ∧ step s = .next ((s.setTurns ts).completeWord w)) ∨
    (s.turns = .reset :: ts ∧ step s = .next (s.setTurns ts).resetInput) := by
  match hturns : s.turns with
  | .host :: ts => exact ⟨ts, .inl (step_hostTurn hturns)⟩
  | .engine :: ts =>
    rw [step_engineTurn hturns]
    exact ⟨ts, .inr ((engineTurn_cases (s.setTurns ts)).imp_right .inl)⟩
  | .reset :: ts => exact ⟨ts, .inr (.inr (.inr ⟨rfl, step_resetTurn hturns⟩))⟩
  | [] =>
    refine ⟨[], ?_⟩
    rw [setTurns_nil hturns]
    cases hbusy : s.busy with
    | false => exact .inl (step_unscheduled_idle hturns hbusy)
    | true =>
      rw [step_unscheduled_busy hturns hbusy]
      exact .inr ((engineTurn_cases s).imp_right .inl)

theorem exists_step (s : State) : ∃ t, step s = .next t := by
  obtain ⟨ts, h | ⟨-, h⟩ | ⟨w, -, h⟩ | ⟨-, h⟩⟩ := step_cases s <;> exact ⟨_, h⟩

/-! ### Runs -/

theorem run_zero (s : State) : Host.Core.run core 0 s = .next s := rfl

theorem run_succ {s t : State} (k : Nat) (h : step s = .next t) : Host.Core.run core (k + 1) s = Host.Core.run core k t := by
  have hstep : core.step s = .next t := h
  simp only [Host.Core.run, hstep]

theorem run_one {s t : State} (h : step s = .next t) : Host.Core.run core 1 s = .next t := run_succ 0 h

/-- Settles O10, by induction on the number of steps: each answers a next state. -/
theorem noRunEverStops : Obligations.NoRunEverStops := by
  unfold Obligations.NoRunEverStops
  intro s k
  induction k generalizing s with
  | zero => exact ⟨s, run_zero s⟩
  | succ k ih =>
    obtain ⟨t, hstep⟩ := exists_step s
    rw [run_succ k hstep]
    exact ih t

/-! ### CMD and NOP -/

/-- Settles O5: CMD is one of the registers that a running command protects. -/
theorem cmdWriteIssues : Obligations.CmdWriteIssues := by
  unfold Obligations.CmdWriteIssues
  intro s w
  refine ⟨fun hpend => ?idle, fun hbusy => access_write_protected_busy hbusy (r := .cmd) w (by decide)⟩
  case idle =>
    have hwrite : s.access (.write 0x00010 .b4 w) = s.regWrite .cmd w := access_write_reg s .cmd w
    rw [hwrite, State.regWrite, whileIdle_idle _ ((busy_eq_false_iff s).2 hpend)]
    rfl

/-- With OP = 0, only RSV tells a word from 0 (R90). -/
theorem rsvField_ne_zero_of_opField_eq_zero {w : Word} (hw : w ≠ 0) (hop : opField w = 0) : rsvField w ≠ 0 := by
  intro hrsv
  rw [← rsvField_append_opField w, hrsv, hop] at hw
  exact hw rfl

/-- STATUS after a completion without flags: DONE, and HAZ as it was (R25). -/
theorem regRead_status_completed (s : State) : (Safety.completed s {}).regRead .status = if s.haz then 6 else 2 := by
  have hfields : (Safety.completed s {}).regRead .status = { State.reset with done := true, haz := s.haz }.statusWord := rfl
  rw [hfields]
  cases s.haz <;> decide

/-- Settles O26: NOP's effects are the state as it was, and another word with OP = 0 is illegal by its RSV. -/
theorem nopCompletes : Obligations.NopCompletes := by
  unfold Obligations.NopCompletes
  exact ⟨decode_encode .nop,
    fun w hw hop => ⟨_, decode_of_rsvField_ne_zero (rsvField_ne_zero_of_opField_eq_zero hw hop)⟩,
    fun s => ⟨_, exec_eq_complete .nop s, rfl, regRead_status_completed s⟩⟩

end Sys2Proof.Machine
end

section
/-! SUPPORT. What a command's answer depends on and what it stores (R94, R112): two machines with the same operands, results
and source bytes answer alike, whatever else they hold, and each stores the destination extent alone. -/

namespace Sys2Proof.Machine

open Sys2Proof.Safety

/-! ### The rest of a machine -/

/-- The operands, the RAMs and the results of s in a machine whose rest is that of r: BUF, the marks of issue and completion,
and the host's side. -/
def State.withRest (s r : State) : State :=
  { s with irqEn := r.irqEn, done := r.done, haz := r.haz, err := r.err, diag := r.diag, errInfo := r.errInfo, buf := r.buf,
           pend := r.pend, bufEpoch := r.bufEpoch, rdata := r.rdata, host := r.host, turns := r.turns }

@[simp] theorem withRest_srcAddr (s r : State) : (s.withRest r).srcAddr = s.srcAddr := rfl
@[simp] theorem withRest_srcLen (s r : State) : (s.withRest r).srcLen = s.srcLen := rfl
@[simp] theorem withRest_n (s r : State) : (s.withRest r).n = s.n := rfl
@[simp] theorem withRest_blockBytes (s r : State) : (s.withRest r).blockBytes = s.blockBytes := rfl
@[simp] theorem withRest_fecOrigLen (s r : State) : (s.withRest r).fecOrigLen = s.fecOrigLen := rfl
@[simp] theorem withRest_table (s r : State) : (s.withRest r).table = s.table := rfl
@[simp] theorem byteAt_withRest (s r : State) (x : Nat) : (s.withRest r).byteAt x = r.byteAt x := rfl

/-- Bytes read depend only on the bytes of their extent (R112). -/
theorem readBytes_congr {s t : State} {a m : Nat} (h : ∀ x, a ≤ x → x < a + m → t.byteAt x = s.byteAt x) :
    t.readBytes a m = s.readBytes a m := by
  refine List.ext_getElem? fun i => ?_
  rw [getElem?_readBytes, getElem?_readBytes]
  split
  · rw [h (a + i) (by omega) (by omega)]
  · rfl

/-- Bits read depend only on the bytes that hold them (R66, R112). -/
theorem readBits_congr {s t : State} {a len : Nat} (h : ∀ x, a ≤ x → x < a + bytesFor len → t.byteAt x = s.byteAt x) :
    t.readBits a len = s.readBits a len := by
  rw [readBits_eq_take, readBits_eq_take, readBytes_congr h]

/-! ### Answers alike -/

/-- The rest r holds the source bytes that a command i reads in s (R94). -/
def SameSource (i : Instr) (s r : State) : Prop :=
  ∀ x, s.srcAddr.toNat ≤ x → x < s.srcAddr.toNat + sourceBytes i s.srcLen.toNat → r.byteAt x = s.byteAt x

theorem SameSource.readBytes_eq {i : Instr} {s r : State} (h : SameSource i s r) {m : Nat}
    (hm : sourceBytes i s.srcLen.toNat = m) : (s.withRest r).readBytes s.srcAddr.toNat m = s.readBytes s.srcAddr.toNat m :=
  readBytes_congr (hm ▸ h)

theorem SameSource.readBits_eq {i : Instr} {s r : State} (h : SameSource i s r) {len : Nat}
    (hlen : sourceBytes i s.srcLen.toNat = bytesFor len) :
    (s.withRest r).readBits s.srcAddr.toNat len = s.readBits s.srcAddr.toNat len :=
  readBits_congr (hlen ▸ h)

/-- What a command i answers in s, and in s with the rest r: the same error, or the same results, with the same bytes `dst`
stored in the destination extent of each (R94, R112). -/
inductive AnswersAlike (i : Instr) (s r : State) : CmdOutcome → CmdOutcome → Prop
  | err (e : ErrCode) (info : Word) : AnswersAlike i s r (.err e info) (.err e info)
  | ok {t t' : State} {fl : Diag} (dst : ByteString) (hbuf : t.buf = s.buf.putAll s.dstAddr.toNat dst)
      (hlen : dst.length = destinationBytes i t.dstLen.toNat) (ht' : t' = t.withRest (r.writeBytes s.dstAddr.toNat dst)) :
      AnswersAlike i s r (.ok t fl) (.ok t' fl)

/-- A check of the check order that reads no more than operands. -/
theorem answersAlike_check {i : Instr} {s r : State} {c : Prop} [Decidable c] {e : ErrCode} {info : Word} {o o' : CmdOutcome}
    (h : ¬ c → AnswersAlike i s r o o') :
    AnswersAlike i s r (if c then .err e info else o) (if c then .err e info else o') := by
  split
  · exact .err e info
  · exact h ‹_›

/-- The writes of result registers leave BUF alone, and are the same in every machine. -/
structure WritesResults (results : State → State) : Prop where
  buf_eq : ∀ s, (results s).buf = s.buf
  withRest_eq : ∀ s r, results (s.withRest r) = (results s).withRest r

/-- The last steps of a command. -/
theorem answersAlike_deliver {i : Instr} {s r : State} {m : Nat} {dst : ByteString} {results : State → State} {fl : Diag}
    (hres : WritesResults results)
    (hlen : Fits s.dstAddr dst.length →
      dst.length = destinationBytes i (results (s.writeBytes s.dstAddr.toNat dst)).dstLen.toNat) :
    AnswersAlike i s r (deliver s m dst results fl) (deliver (s.withRest r) m dst results fl) := by
  refine answersAlike_check fun hin => answersAlike_check fun _ => ?_
  exact .ok dst (hres.buf_eq _) (hlen ((inRange_iff _ _).1 (not_not.1 hin)))
    (hres.withRest_eq (s.writeBytes s.dstAddr.toNat dst) (r.writeBytes s.dstAddr.toNat dst))

/-- A count within the bits of BUF keeps its value in a result register (R30, R113). -/
theorem toNat_ofNat_of_le_bits {k : Nat} (h : k ≤ 524288) : (BitVec.ofNat 32 k).toNat = k := Nat.mod_eq_of_lt (by omega)

/-- A destination of bits takes the bytes that hold them (R94). -/
theorem length_bytesOf_eq_of_fits {a : Word} {b : BitString} (h : Fits a (bytesOf b).length) :
    (bytesOf b).length = bytesFor (BitVec.ofNat 32 b.length).toNat := by
  rw [toNat_ofNat_of_le_bits (length_le_of_fits_bytesOf h), length_bytesOf]

/-- A destination of bytes takes as many (R94). -/
theorem length_eq_of_fits {a : Word} {bs : ByteString} (h : Fits a bs.length) :
    bs.length = (BitVec.ofNat 32 bs.length).toNat :=
  (toNat_ofNat_of_le_bits ((le_of_fits h).trans (by decide))).symm

/-- Every command answers alike in machines that agree on its operands and its source bytes. -/
theorem answersAlike_outcomeOf {i : Instr} {s r : State} (h : SameSource i s r) :
    AnswersAlike i s r (outcomeOf i s) (outcomeOf i (s.withRest r)) := by
  cases i <;> simp only [outcomeOf]
  case nop => exact .ok [] rfl rfl rfl
  case tableClear => exact .ok [] rfl rfl rfl
  case buildTable =>
    simp only [buildTableOutcome_eq, withRest_srcAddr, withRest_srcLen, h.readBytes_eq (m := s.srcLen.toNat) rfl]
    exact answersAlike_check fun _ => .ok [] rfl rfl rfl
  case compress =>
    simp only [compressOutcome_eq, withRest_srcAddr, withRest_srcLen, withRest_table, h.readBytes_eq (m := s.srcLen.toNat) rfl]
    refine answersAlike_check fun _ => ?_
    cases encodeBytes (tableOf s.table) (s.readBytes s.srcAddr.toNat s.srcLen.toNat) with
    | error b => exact .err _ _
    | ok out => exact answersAlike_deliver ⟨fun _ => rfl, fun _ _ => rfl⟩ length_bytesOf_eq_of_fits
  case decompress =>
    simp only [decompressOutcome_eq, withRest_srcAddr, withRest_srcLen, withRest_table,
      h.readBits_eq (len := s.srcLen.toNat) rfl]
    exact answersAlike_check fun _ => answersAlike_check fun _ =>
      answersAlike_deliver ⟨fun _ => rfl, fun _ _ => rfl⟩ length_eq_of_fits
  case pack =>
    simp only [packOutcome_eq, withRest_srcAddr, withRest_srcLen, withRest_blockBytes,
      h.readBits_eq (len := s.srcLen.toNat) rfl]
    exact answersAlike_check fun _ => answersAlike_check fun _ =>
      answersAlike_deliver ⟨fun _ => rfl, fun _ _ => rfl⟩ length_eq_of_fits
  case unpack =>
    simp only [unpackOutcome_eq, withRest_srcAddr, withRest_srcLen, h.readBytes_eq (m := s.srcLen.toNat) rfl]
    exact answersAlike_check fun _ => answersAlike_deliver ⟨fun _ => rfl, fun _ _ => rfl⟩ length_bytesOf_eq_of_fits
  case encodeBlock =>
    simp only [encodeBlockOutcome_eq, withRest_srcAddr, withRest_srcLen, withRest_n]
    refine answersAlike_check fun _ => answersAlike_check fun hn => answersAlike_check fun _ => ?_
    rw [h.readBits_eq (congrArg bytesFor (not_not.1 hn))]
    refine answersAlike_deliver ⟨fun _ => rfl, fun _ _ => rfl⟩ fun hfit => ?_
    have hlen := length_bytesOf_eq_of_fits hfit
    rwa [length_encBlock (length_readBits _ _ _)] at hlen
  case decodeBlock =>
    simp only [decodeBlockOutcome_eq, withRest_srcAddr, withRest_srcLen, withRest_n]
    refine answersAlike_check fun _ => answersAlike_check fun hn => answersAlike_check fun _ => ?_
    rw [h.readBits_eq (congrArg bytesFor (not_not.1 hn))]
    refine answersAlike_deliver ⟨fun _ => rfl, fun _ _ => rfl⟩ fun hfit => ?_
    have hlen := length_bytesOf_eq_of_fits hfit
    rwa [length_decBlock_payload] at hlen
  case fecEncode =>
    simp only [fecEncodeOutcome_eq, withRest_srcAddr, withRest_srcLen, withRest_n, h.readBits_eq (len := s.srcLen.toNat) rfl]
    exact answersAlike_check fun _ => answersAlike_check fun _ =>
      answersAlike_deliver ⟨fun _ => rfl, fun _ _ => rfl⟩ length_bytesOf_eq_of_fits
  case fecDecode =>
    simp only [fecDecodeOutcome_eq, withRest_srcAddr, withRest_srcLen, withRest_n, withRest_fecOrigLen,
      h.readBits_eq (len := s.srcLen.toNat) rfl]
    exact answersAlike_check fun _ => answersAlike_check fun _ =>
      answersAlike_deliver ⟨fun _ => rfl, fun _ _ => rfl⟩ length_bytesOf_eq_of_fits

end Sys2Proof.Machine
end

section
/-! SUPPORT. The completion of a command: its bytes stored (R112), its source (R112, R271), and its effects whatever the host does
between issue and completion (R111, R119, R75). -/

namespace Sys2Proof.Machine

open Sys2Proof.Safety

/-! ### Completions alike -/

theorem OnlyResults.bufEpoch_eq {s t : State} (h : OnlyResults s t) : t.bufEpoch = s.bufEpoch := by rw [h]

theorem Fails.ne_none {s : State} {i : Instr} {e : ErrCode} {info : Word} (h : Fails s i e info) : e ≠ .none := by
  cases h with
  | check hnone => exact hnone
  | absent => exact nofun

/-- The completions of a command in machines that agree on its operands and its source bytes (R111): the same error marked in
both, or the same results, flags and bytes stored. -/
theorem complete_withRest {i : Instr} {s r : State} (h : SameSource i s r) :
    (∃ e info, e ≠ .none ∧ s.complete (outcomeOf i s) = s.finish e info {} ∧
      (s.withRest r).complete (outcomeOf i (s.withRest r)) = (s.withRest r).finish e info {}) ∨
    ∃ t fl dst, OnlyResults s t ∧ t.buf = s.buf.putAll s.dstAddr.toNat dst ∧ dst.length = destinationBytes i t.dstLen.toNat ∧
      s.complete (outcomeOf i s) = t.finish .none 0 fl ∧
      (s.withRest r).complete (outcomeOf i (s.withRest r)) =
        (t.withRest (r.writeBytes s.dstAddr.toNat dst)).finish .none 0 fl := by
  have halike := answersAlike_outcomeOf h
  have hans := answers_outcomeOf s i
  generalize outcomeOf i (s.withRest r) = o' at halike ⊢
  cases ho : outcomeOf i s with
  | err e info =>
    rw [ho] at halike hans
    cases halike
    exact .inl ⟨e, info, Fails.ne_none hans, rfl, rfl⟩
  | ok t fl =>
    rw [ho] at halike
    obtain _ | ⟨dst, hbuf, hlen, rfl⟩ := halike
    exact .inr ⟨t, fl, dst, outcomeOf_ok_onlyResults ho, hbuf, hlen, rfl, rfl⟩

/-! ### The destination -/

/-- BUF after the effects of a command that stores the bytes `dst` (R112). -/
theorem stored_of_onlyResults {s t : State} {dst : ByteString} (hres : OnlyResults s t)
    (hbuf : t.buf = s.buf.putAll s.dstAddr.toNat dst) : Stored s t s.dstAddr.toNat dst := by
  intro x
  rw [← byteAt_writeBytes, State.byteAt, State.byteAt, hbuf, hres.bufEpoch_eq]
  rfl

/-- Settles O42: an error leaves BUF as it was, and a success stores the destination's bytes alone. -/
theorem bytesOutsideDestinationUnchanged : Obligations.BytesOutsideDestinationUnchanged := by
  unfold Obligations.BytesOutsideDestinationUnchanged
  intro i s t x hexec hout
  rw [exec_next_iff] at hexec
  have hself : SameSource i s s := fun _ _ _ => rfl
  rcases complete_withRest hself with ⟨e, info, -, hc, -⟩ | ⟨u, fl, dst, hres, hbuf, hlen, hc, -⟩
  all_goals
    rw [hc] at hexec
    subst hexec
    rw [byteAt_finish]
  · specialize hout rfl
    rw [finish_dstLen, ← hlen] at hout
    rw [stored_of_onlyResults hres hbuf x, if_neg hout]

/-- Settles O43: the other state is the first one with another BUF, so both complete alike. -/
theorem commandReadsOnlyItsSource : Obligations.CommandReadsOnlyItsSource := by
  unfold Obligations.CommandReadsOnlyItsSource
  intro i s m e s' hsame
  have hrest : s' = s.withRest s' := rfl
  refine ⟨_, _, exec_eq_complete i s, exec_eq_complete i s', ?_⟩
  rw [hrest]
  rcases complete_withRest hsame with ⟨code, info, hne, hc, hc'⟩ | ⟨u, fl, dst, hres, hbuf, hlen, hc, hc'⟩ <;>
    rw [hc, hc']
  · exact ⟨rfl, fun _ herr => absurd herr hne⟩
  · refine ⟨?frame, fun x _ hlo hhi => ?stored⟩
    case frame =>
      rw [hres]
      rfl
    case stored =>
      rw [finish_dstLen, ← hlen] at hhi
      rw [byteAt_finish, byteAt_finish, byteAt_withRest, byteAt_writeBytes, stored_of_onlyResults hres hbuf x,
        if_pos ⟨hlo, hhi⟩, if_pos ⟨hlo, hhi⟩]

/-! ### What the host can change while a command runs -/

/-- Only what the host can change while a command runs has changed: CTRL, DONE, HAZ, the host's own side and the schedule
(R75). -/
def OnlyHostSide (s t : State) : Prop :=
  t = { s with irqEn := t.irqEn, done := t.done, haz := t.haz, rdata := t.rdata, host := t.host, turns := t.turns }

namespace OnlyHostSide

variable {s t u : State}

theorem trans (h : OnlyHostSide s t) (h' : OnlyHostSide t u) : OnlyHostSide s u := by
  rw [OnlyHostSide, h', h]

theorem setTurns (s : State) (ts : List Turn) : OnlyHostSide s (s.setTurns ts) := rfl

theorem pend_eq (h : OnlyHostSide s t) : t.pend = s.pend := by rw [h]

theorem byteAt_eq (h : OnlyHostSide s t) (x : Nat) : t.byteAt x = s.byteAt x := by
  rw [h]
  rfl

/-- Nothing that a command reads or writes is the host's to change while it runs. -/
theorem eq_withRest (h : OnlyHostSide s t) : t = s.withRest t := by
  rw [h]
  rfl

/-- The same marks of a completion on both. -/
theorem finish (h : OnlyHostSide s t) (e : ErrCode) (info : Word) (fl : Diag) :
    OnlyHostSide (s.finish e info fl) (t.finish e info fl) := by
  rw [OnlyHostSide, h]
  rfl

/-- The same bytes stored, with results that a command wrote in s. -/
theorem withRest_writeBytes {dst : ByteString} (h : OnlyHostSide s t) (hres : OnlyResults s u)
    (hbuf : u.buf = s.buf.putAll s.dstAddr.toNat dst) :
    OnlyHostSide u (u.withRest (t.writeBytes s.dstAddr.toNat dst)) := by
  have ht : (t.writeBytes s.dstAddr.toNat dst).buf = u.buf := by
    rw [hbuf, h]
    rfl
  rw [OnlyHostSide, State.withRest, ht, h, hres]
  rfl

end OnlyHostSide

/-- While a command runs, the host's move changes only its own side, CTRL, DONE and HAZ, and not the schedule. -/
theorem hostTurn_busy {s : State} (hbusy : s.busy = true) :
    OnlyHostSide s s.hostTurn ∧ s.hostTurn.turns = s.turns := by
  match hop : s.host with
  | [] =>
    rw [hostTurn_nil hop]
    exact ⟨rfl, rfl⟩
  | .wait :: ops =>
    rw [hostTurn_wait hop]
    exact ⟨rfl, rfl⟩
  | .access a :: ops =>
    rw [hostTurn_access hop, access_busy a ((busy_setHost s ops).trans hbusy)]
    exact ⟨rfl, rfl⟩

/-! ### From issue to completion -/

/-- The engine completes a command with the effects it would have had before the host's moves (R111). -/
theorem OnlyHostSide.complete {s t : State} (h : OnlyHostSide s t) (i : Instr) :
    OnlyHostSide (s.complete (outcomeOf i s)) (t.complete (outcomeOf i t)) := by
  have hsource : SameSource i s t := fun x _ _ => h.byteAt_eq x
  have hrest := h.eq_withRest
  rcases complete_withRest hsource with ⟨e, info, -, hc, hc'⟩ | ⟨u, fl, dst, hres, hbuf, -, hc, hc'⟩ <;>
    rw [← hrest] at hc' <;> rw [hc, hc']
  · exact h.finish e info {}
  · exact (h.withRest_writeBytes hres hbuf).finish .none 0 fl

theorem OnlyHostSide.completeWord {s t : State} (h : OnlyHostSide s t) (w : Word) :
    OnlyHostSide (s.completeWord w) (t.completeWord w) := by
  cases hd : decode w with
  | ok i =>
    rw [completeWord_ok s hd, completeWord_ok t hd]
    exact h.complete i
  | error e =>
    rw [completeWord_error s hd, completeWord_error t hd]
    exact h.finish .badCmd 0 {}

/-- Every completion releases PEND and sets DONE (R111). -/
theorem completeWord_marks (s : State) (w : Word) : (s.completeWord w).pend = .idle ∧ (s.completeWord w).done = true := by
  rcases completeWord_cases s w with ⟨i, e, info, -, hc⟩ | ⟨i, t, fl, -, -, -, hc⟩ <;> rw [hc] <;> exact ⟨rfl, rfl⟩

/-- A pending command completes within the turns laid down and one step more, unless reset comes, after moves of the host
alone (R119). -/
theorem run_completes {w : Word} (ts : List Turn) {s : State} (hturns : s.turns = ts) (hpend : s.pend = .running w)
    (hreset : Turn.reset ∉ ts) :
    ∃ k r, 0 < k ∧ k ≤ ts.length + 1 ∧ OnlyHostSide s r ∧ Host.Core.run core k s = .next (r.completeWord w) := by
  induction ts generalizing s with
  | nil =>
    have hstep : step s = .next (s.completeWord w) := by
      rw [step_unscheduled_busy hturns ((busy_eq_true_iff s).2 ⟨w, hpend⟩), engineTurn_running hpend]
    exact ⟨1, s, Nat.one_pos, Nat.le_refl 1, rfl, run_one hstep⟩
  | cons turn ts ih =>
    obtain ⟨hturn, hlater⟩ := List.ne_and_not_mem_of_not_mem_cons hreset
    cases turn with
    | reset => exact absurd rfl hturn
    | engine =>
      have hstep : step s = .next ((s.setTurns ts).completeWord w) := by
        rw [step_engineTurn hturns]
        exact engineTurn_running (s := s.setTurns ts) hpend
      exact ⟨1, s.setTurns ts, Nat.one_pos, Nat.le_add_left 1 _, .setTurns s ts, run_one hstep⟩
    | host =>
      have hbusy : (s.setTurns ts).busy = true := (busy_eq_true_iff _).2 ⟨w, hpend⟩
      obtain ⟨hside, hleft⟩ := hostTurn_busy hbusy
      obtain ⟨k, r, hpos, hk, hr, hrun⟩ := ih hleft (hside.pend_eq.trans hpend) hlater
      refine ⟨k + 1, r, Nat.succ_pos k, Nat.succ_le_succ hk, ((OnlyHostSide.setTurns s ts).trans hside).trans hr, ?_⟩
      rw [run_succ k (step_hostTurn hturns), hrun]

/-- A completion that differs only in the host's side, with DONE set in both. -/
theorem OnlyHostSide.eq_of_done {u t : State} (h : OnlyHostSide u t) (hu : u.done = true) (ht : t.done = true) :
    t = { u with irqEn := t.irqEn, haz := t.haz, rdata := t.rdata, host := t.host, turns := t.turns } := by
  rw [OnlyHostSide, ht] at h
  rw [hu]
  exact h

/-- Settles O11: the completion is made after moves of the host alone, and these change nothing that it depends on. -/
theorem issuedCommandCompletesAsAtIssue : Obligations.IssuedCommandCompletesAsAtIssue := by
  unfold Obligations.IssuedCommandCompletesAsAtIssue
  intro s w hpend hreset
  obtain ⟨k, r, hpos, hk, hside, hrun⟩ := run_completes s.turns rfl hpend hreset
  obtain ⟨hidle, hdone⟩ := completeWord_marks r w
  have heq := (hside.completeWord w).eq_of_done (completeWord_marks s w).2 hdone
  refine ⟨k, r.completeWord w, hpos, hk, hrun, hidle, hdone, fun i hdec => ?legal, fun e hdec => ?illegal⟩
  case legal =>
    rw [completeWord_ok s hdec] at heq
    exact ⟨_, exec_eq_complete i s, heq⟩
  case illegal =>
    rw [completeWord_error s hdec] at heq
    exact heq

end Sys2Proof.Machine
end

section
/-! SUPPORT. Precise errors (R116, R240, R249), and what can change the result registers, step by step (R33, R39, R118). -/

namespace Sys2Proof.Machine

open Sys2Proof.Safety

/-- Settles O37: an error has no effects, so its completion marks the state as it was. -/
theorem errorsArePrecise : Obligations.ErrorsArePrecise := by
  unfold Obligations.ErrorsArePrecise
  intro i s t hexec herr
  rw [exec_next_iff] at hexec
  rcases complete_cases i s with ⟨e, info, -, hc⟩ | ⟨u, fl, -, -, hc⟩ <;> rw [hc] at hexec <;> subst hexec
  · rfl
  · exact absurd rfl herr

/-! ### The results that only a success writes -/

/-- The result registers of R118 but ERR_INFO, which errors write too, and FEC_ORIG_LEN, which the host writes too, are as
they were. -/
structure SameResults (s t : State) : Prop where
  dstLen_eq : t.dstLen = s.dstLen
  fecPad_eq : t.fecPad = s.fecPad
  errCorr_eq : t.errCorr = s.errCorr
  blkIndex_eq : t.blkIndex = s.blkIndex
  blkAgree_eq : t.blkAgree = s.blkAgree

theorem SameResults.not_changed {s t : State} (h : SameResults s t) :
    ¬ (t.dstLen ≠ s.dstLen ∨ t.fecPad ≠ s.fecPad ∨ t.errCorr ≠ s.errCorr ∨ t.blkIndex ≠ s.blkIndex ∨
      t.blkAgree ≠ s.blkAgree) := by
  simp only [h.dstLen_eq, h.fecPad_eq, h.errCorr_eq, h.blkIndex_eq, h.blkAgree_eq, ne_eq, not_true_eq_false, or_self,
    not_false_eq_true]

/-- The host writes no result register but FEC_ORIG_LEN (R62). -/
theorem results_of_hostMoves {s t : State} (h : HostMoves s t) : SameResults s t ∧ t.errInfo = s.errInfo := by
  cases h with
  | idle ht =>
    rw [ht]
    exact ⟨⟨rfl, rfl, rfl, rfl, rfl⟩, rfl⟩
  | write hop hw =>
    cases hw with
    | operand ht =>
      rw [ht]
      exact ⟨⟨rfl, rfl, rfl, rfl, rfl⟩, rfl⟩
    | _ => exact ⟨⟨rfl, rfl, rfl, rfl, rfl⟩, rfl⟩
  | read hop hr => cases hr <;> exact ⟨⟨rfl, rfl, rfl, rfl, rfl⟩, rfl⟩

/-! ### FEC_ORIG_LEN -/

/-- FEC_ORIG_LEN is a result of FEC_ENCODE alone (R33, R213). -/
theorem Succeeds.fecOrigLen_eq {s t : State} {i : Instr} {fl : Diag} (h : Succeeds s i t fl) (hi : i ≠ .fecEncode) :
    t.fecOrigLen = s.fecOrigLen := by
  cases h with
  | fecEncode => exact absurd rfl hi
  | _ => rfl

theorem fecOrigLen_whileIdle (s : State) {act : State → State} (hact : (act s).fecOrigLen = s.fecOrigLen) :
    (s.whileIdle act).fecOrigLen = s.fecOrigLen := by
  cases hbusy : s.busy with
  | true => rw [whileIdle_busy act hbusy, markHazard_fecOrigLen]
  | false => rw [whileIdle_idle act hbusy, hact]

/-- A register write changes FEC_ORIG_LEN only at its own offset, while no command runs (R33, R75.1). -/
theorem regWrite_changes_fecOrigLen {s : State} {r : RegName} {v : Word}
    (h : (s.regWrite r v).fecOrigLen ≠ s.fecOrigLen) :
    r = .fecOrigLen ∧ s.busy = false ∧ (s.regWrite r v).fecOrigLen = v := by
  cases r
  case fecOrigLen =>
    rw [State.regWrite] at h ⊢
    cases hbusy : s.busy with
    | true => rw [whileIdle_busy _ hbusy] at h; exact absurd rfl h
    | false => rw [whileIdle_idle _ hbusy]; exact ⟨rfl, rfl, rfl⟩
  case cmd | srcAddr | srcLen | dstAddr | n | blockBytes => exact absurd (fecOrigLen_whileIdle s rfl) h
  all_goals exact absurd rfl h

/-- A host write changes FEC_ORIG_LEN only as the write of that register. -/
theorem writeTarget_changes_fecOrigLen {s : State} {t : Target} {v : Word}
    (h : (s.writeTarget t v).fecOrigLen ≠ s.fecOrigLen) :
    t = .reg .fecOrigLen ∧ s.busy = false ∧ (s.writeTarget t v).fecOrigLen = v := by
  cases t with
  | reg r =>
    obtain ⟨rfl, hidle, hv⟩ := regWrite_changes_fecOrigLen h
    exact ⟨rfl, hidle, hv⟩
  | dropped | freq => exact absurd rfl h
  | elen | code | bufByte | bufWord => exact absurd (fecOrigLen_whileIdle s rfl) h

theorem eq_offset_of_target_reg {off : Offset} {size : Size} {r : RegName} (h : target off size = .reg r) :
    size = .b4 ∧ off = r.offset := by
  have hreach := reaches_target off size
  rw [h] at hreach
  cases hreach with
  | reg hsize hoff => exact ⟨hsize, hoff⟩

/-- The host's move changes FEC_ORIG_LEN only as a 4-byte write of it, while no command runs (R33). -/
theorem hostTurn_changes_fecOrigLen {s : State} (h : s.hostTurn.fecOrigLen ≠ s.fecOrigLen) :
    s.busy = false ∧ ∃ v ops, s.host = .access (.write 0x0002C .b4 v) :: ops ∧ s.hostTurn.fecOrigLen = v := by
  match hop : s.host with
  | [] =>
    rw [hostTurn_nil hop] at h
    exact absurd rfl h
  | .wait :: ops =>
    rw [hostTurn_wait hop] at h
    exact absurd rfl h
  | .access (.read off size) :: ops =>
    have hread : s.hostTurn = (s.setHost ops).readTarget (target off size) := hostTurn_access hop
    rw [hread, readTarget_frame] at h
    exact absurd rfl h
  | .access (.write off size v) :: ops =>
    have hwrite : s.hostTurn = (s.setHost ops).writeTarget (target off size) v := hostTurn_access hop
    rw [hwrite] at h ⊢
    obtain ⟨htarget, hidle, hv⟩ := writeTarget_changes_fecOrigLen h
    obtain ⟨rfl, rfl⟩ := eq_offset_of_target_reg htarget
    exact ⟨hidle, v, ops, rfl, hv⟩

/-- Settles O17: the host writes FEC_ORIG_LEN alone, an error ERR_INFO alone, and a success of any command but FEC_ENCODE
keeps FEC_ORIG_LEN. -/
theorem resultsChangeOnlyAtCompletion : Obligations.ResultsChangeOnlyAtCompletion := by
  unfold Obligations.ResultsChangeOnlyAtCompletion
  intro s t hstep
  obtain ⟨ts, h | ⟨-, h⟩ | ⟨w, hpend, h⟩ | ⟨hturns, h⟩⟩ := step_cases s <;> cases hstep.symm.trans h
  · -- the host's move
    obtain ⟨hsame, hinfo⟩ := results_of_hostMoves (hostMoves_hostTurn (s.setTurns ts))
    refine ⟨fun hne => absurd hne hsame.not_changed, (absurd hinfo ·), fun hne => ?_⟩
    obtain ⟨hidle, hwrite⟩ := hostTurn_changes_fecOrigLen hne
    exact .inr (.inl ⟨(busy_eq_false_iff s).1 hidle, hwrite⟩)
  · -- the engine rests
    have hsame : SameResults s (s.setTurns ts) := ⟨rfl, rfl, rfl, rfl, rfl⟩
    exact ⟨fun hne => absurd hne hsame.not_changed, (absurd rfl ·), (absurd rfl ·)⟩
  · -- the engine completes the pending word
    have hbusy : s.busy = true := (busy_eq_true_iff s).2 ⟨w, hpend⟩
    rcases completeWord_cases (s.setTurns ts) w with ⟨i, e, info, -, hc⟩ | ⟨i, u, fl, hw, hs, -, hc⟩ <;> rw [hc]
    · have hsame : SameResults s ((s.setTurns ts).finish e info {}) := ⟨rfl, rfl, rfl, rfl, rfl⟩
      exact ⟨fun hne => absurd hne hsame.not_changed, fun _ => .inl ⟨hbusy, rfl, rfl⟩, (absurd rfl ·)⟩
    · refine ⟨fun _ => .inl ⟨hbusy, rfl, rfl, rfl⟩, fun _ => .inl ⟨hbusy, rfl, rfl⟩, fun hne => .inl ⟨?_, rfl, rfl⟩⟩
      have hi : i = .fecEncode := by
        by_contra hi
        exact hne (hs.fecOrigLen_eq hi)
      rw [hpend, hw, hi]
      rfl
  · -- reset
    exact ⟨fun _ => .inr ⟨ts, hturns⟩, fun _ => .inr ⟨ts, hturns⟩, fun _ => .inr (.inr ⟨ts, hturns⟩)⟩

end Sys2Proof.Machine
end

section
/-! SUPPORT. The check order of the commands (R115): the ERR that each check leaves, and the lengths of the results as the checks
of the destination see them (R165, R180, R185, R212, R216). -/

namespace Sys2Proof.Machine

open Sys2Proof.Safety

/-! ### ERR after each check -/

theorem err_complete_check (s : State) (c : Prop) [Decidable c] (e : ErrCode) (info : Word) (o : CmdOutcome) :
    (s.complete (if c then .err e info else o)).err = if c then e else (s.complete o).err := by
  split <;> rfl

/-- The check of an extent (R113). -/
theorem err_complete_range (s : State) (a : Word) (m : Nat) (o : CmdOutcome) :
    (s.complete (if ¬ inRange a m then .err .range 0 else o)).err = if ¬ Fits a m then .range else (s.complete o).err := by
  rw [err_complete_check]
  exact ite_congr (congrArg Not (propext (inRange_iff a m))) (fun _ => rfl) fun _ => rfl

/-- The check of N (R31). -/
theorem err_complete_nLegal (s : State) (o : CmdOutcome) :
    (s.complete (if ¬ nLegal s.n then .err .badParam 0 else o)).err =
      if s.n.toNat = 0 ∨ 8 < s.n.toNat then .badParam else (s.complete o).err := by
  have hlegal : (¬ nLegal s.n = true) ↔ s.n.toNat = 0 ∨ 8 < s.n.toNat := by
    rw [nLegal_iff]
    omega
  rw [err_complete_check]
  exact ite_congr (propext hlegal) (fun _ => rfl) fun _ => rfl

/-- The last steps of a command: the destination's range, then its overlap with the source (R115, steps 7 to 9). -/
theorem err_complete_deliver (s : State) (m : Nat) (dst : ByteString) (results : State → State) (fl : Diag) :
    (s.complete (deliver s m dst results fl)).err =
      if ¬ Fits s.dstAddr dst.length then .range
      else if ¬ Apart s.srcAddr m s.dstAddr dst.length then .overlap
      else .none := by
  rcases deliver_cases s m dst results fl with ⟨hfit, hd⟩ | ⟨hfit, hover, hd⟩ | ⟨hfit, hapart, hd⟩ <;> rw [hd]
  · exact (if_pos hfit).symm
  · rw [if_neg (not_not.2 hfit), if_pos (not_not.2 hover)]
    rfl
  · rw [if_neg (not_not.2 hfit), if_neg (not_not.2 hapart)]
    rfl

/-! ### PACK and UNPACK -/

/-- Settles O40: PACK checks BLOCK_BYTES first, and UNPACK's bits are whole bytes. -/
theorem bitPackCheckOrder : Obligations.BitPackCheckOrder := by
  unfold Obligations.BitPackCheckOrder
  refine fun s t => ⟨fun h => ?pack, fun h => ?unpack⟩ <;> rw [exec_next_iff] at h <;> subst h
  case pack =>
    rw [outcomeOf, packOutcome_eq, err_complete_check, err_complete_range, err_complete_deliver]
    rfl
  case unpack =>
    have hbytes (b : BitString) (h : b.length % 8 = 0) : bytesFor b.length = b.length / 8 := by
      unfold bytesFor
      omega
    rw [outcomeOf, unpackOutcome_eq, err_complete_range, err_complete_deliver, length_bytesOf,
      hbytes _ (length_unpackBytes_mod _)]

/-! ### The entropy commands -/

theorem nodup_tableOf (ram : TableRam) : (tableOf ram).Nodup := (nodup_tableOf_symbols ram).of_map _

/-- Two present entries share a code exactly when the codes of the table repeat one (R165). -/
theorem not_nodup_codes_iff (ram : TableRam) : ¬ ((tableOf ram).map Prod.snd).Nodup ↔
    ∃ a b : Byte, a ≠ b ∧ (ramGet ram a).len ≠ 0 ∧ (ramGet ram b).len ≠ 0 ∧
      (ramGet ram a).codeOf = (ramGet ram b).codeOf := by
  constructor
  · intro h
    by_contra hdistinct
    refine h ((nodup_tableOf ram).map_on fun ⟨a, c⟩ ha ⟨b, c'⟩ hb hcode => ?_)
    obtain ⟨hla, rfl⟩ := mem_tableOf.1 ha
    obtain ⟨hlb, rfl⟩ := mem_tableOf.1 hb
    by_contra hne
    exact hdistinct ⟨a, b, fun hab => hne (by rw [hab]), hla, hlb, hcode⟩
  · rintro ⟨a, b, hne, hla, hlb, hcode⟩ hnodup
    have hinj := List.inj_on_of_nodup_map hnodup (mem_tableOf.2 ⟨hla, rfl⟩) (mem_tableOf.2 ⟨hlb, rfl⟩) hcode
    exact hne (congrArg Prod.fst hinj)

/-- BAD_TABLE over the RAM's entries (R165): a table of fewer than two entries cannot repeat a code. -/
theorem duplicateCodes_iff (ram : TableRam) : duplicateCodes (tableOf ram) = true ↔
    ∃ a b : Fin 256, a ≠ b ∧ ram[a].len ≠ 0 ∧ ram[b].len ≠ 0 ∧ ram[a].codeOf = ram[b].codeOf := by
  have hlength (h : ¬ ((tableOf ram).map Prod.snd).Nodup) : 2 ≤ (tableOf ram).length := by
    by_contra hlt
    refine h ?_
    match tableOf ram, hlt with
    | [], _ => exact List.nodup_nil
    | [e], _ => exact List.nodup_singleton _
    | _ :: _ :: _, hlt => exact absurd (Nat.le_add_left 2 _) hlt
  rw [duplicateCodes, decide_eq_true_iff, and_iff_right_of_imp hlength, not_nodup_codes_iff]
  constructor
  · rintro ⟨a, b, hne, h⟩
    exact ⟨a.toFin, b.toFin, fun hab => hne (BitVec.eq_of_toFin_eq hab), h⟩
  · rintro ⟨a, b, hne, h⟩
    exact ⟨BitVec.ofFin a, BitVec.ofFin b, fun hab => hne (congrArg BitVec.toFin hab), h⟩

/-- Settles O39: COMPRESS fails at the source before it encodes, DECOMPRESS at the table before it decodes. -/
theorem entropyCheckOrder : Obligations.EntropyCheckOrder := by
  unfold Obligations.EntropyCheckOrder
  refine fun s t => ⟨fun h => ?buildTable, fun h => ?compress, fun h => ?decompress⟩ <;> rw [exec_next_iff] at h <;> subst h
  case buildTable =>
    rw [outcomeOf, buildTableOutcome_eq, err_complete_range]
    rfl
  case compress =>
    rw [outcomeOf, compressOutcome_eq, err_complete_range]
    refine ite_congr rfl (fun _ => rfl) fun _ => ?_
    cases encodeBytes (tableOf s.table) (s.readBytes s.srcAddr.toNat s.srcLen.toNat) with
    | error b => rfl
    | ok out =>
      have hdeliver := err_complete_deliver s s.srcLen.toNat (bytesOf out) (fun t => t.setDstLen out.length) {}
      rw [length_bytesOf] at hdeliver
      exact hdeliver
  case decompress =>
    rw [outcomeOf, decompressOutcome_eq, err_complete_range, err_complete_check, err_complete_deliver]
    refine ite_congr rfl (fun _ => rfl) fun _ => ?_
    exact ite_congr (propext (duplicateCodes_iff s.table)) (fun _ => rfl) fun _ => rfl

/-! ### The FEC commands -/

/-- Blocks of one width put end to end. -/
theorem length_flatMap_range {f : Nat → BitString} {b w : Nat} (h : ∀ j, j < b → (f j).length = w) :
    ((List.range b).flatMap f).length = b * w := by
  rw [List.length_flatMap, List.map_congr_left fun j hj => h j (List.mem_range.1 hj), List.map_const', List.sum_replicate,
    List.length_range, smul_eq_mul]

/-- FEC_ENCODE pads to the next multiple of N (R212). -/
theorem padded_div {n : Nat} (h : 1 ≤ n) (len : Nat) : (len + fecPadOf n len) / n = (len + n - 1) / n := by
  obtain ⟨hlt, hmod⟩ := fecPadOf_spec h len
  have hdiv := Nat.div_add_mod (len + fecPadOf n len) n
  refine (Nat.div_eq_of_lt_le ?_ ?_).symm
  · rw [Nat.mul_comm]
    omega
  · rw [Nat.succ_mul, Nat.mul_comm]
    omega

theorem length_fecEncodeBits {n : Nat} (h : 1 ≤ n) (b : BitString) :
    (fecEncodeBits n b).length = (b.length + n - 1) / n * 2 ^ n := by
  rw [← padded_div h]
  refine length_flatMap_range fun j hj => length_encBlock ?_
  have hle : (j + 1) * n ≤ b.length + fecPadOf n b.length := (Nat.mul_le_mul_right n hj).trans (Nat.div_mul_le_self _ n)
  rw [length_block, List.length_append, length_zeros]
  rw [Nat.succ_mul] at hle
  omega

theorem length_fecDecodeBits (n : Nat) (r : BitString) (origLen : Nat) :
    (fecDecodeBits n r origLen).bits.length = min origLen (r.length / 2 ^ n * n) := by
  have hpayloads : (((List.range (r.length / 2 ^ n)).map fun j => decBlock n (block (2 ^ n) r j)).flatMap
      BlockDecision.payload).length = r.length / 2 ^ n * n := by
    rw [List.flatMap_map]
    exact length_flatMap_range fun j _ => length_decBlock_payload n _
  rw [← hpayloads]
  exact List.length_take

/-- A legal N has payloads of one byte (R31). -/
theorem bytesFor_payload {n : Nat} (h : ¬ (n = 0 ∨ 8 < n)) : bytesFor n = 1 := by
  unfold bytesFor
  omega

/-- Settles O41: each command checks N first; with N legal the payloads fill one byte and the lengths are those of R212 and
R216. -/
theorem fecCheckOrder : Obligations.FecCheckOrder := by
  unfold Obligations.FecCheckOrder
  intro s t
  refine ⟨fun h => ?encodeBlock, fun h => ?decodeBlock, fun h => ?fecEncode, fun h => ?fecDecode⟩ <;>
    rw [exec_next_iff] at h <;> subst h
  case encodeBlock =>
    rw [outcomeOf, encodeBlockOutcome_eq, err_complete_nLegal]
    refine ite_congr rfl (fun _ => rfl) fun hn => ?_
    rw [err_complete_check, err_complete_range, err_complete_deliver, length_bytesOf,
      length_encBlock (length_readBits _ _ _), bytesFor_payload hn]
    rfl
  case decodeBlock =>
    rw [outcomeOf, decodeBlockOutcome_eq, err_complete_nLegal]
    refine ite_congr rfl (fun _ => rfl) fun hn => ?_
    rw [err_complete_check, err_complete_range, err_complete_deliver, length_bytesOf, length_decBlock_payload,
      bytesFor_payload hn]
    rfl
  case fecEncode =>
    rw [outcomeOf, fecEncodeOutcome_eq, err_complete_nLegal]
    refine ite_congr rfl (fun _ => rfl) fun hn => ?_
    rw [err_complete_range, err_complete_deliver, length_bytesOf, length_fecEncodeBits (by omega), length_readBits]
    rfl
  case fecDecode =>
    rw [outcomeOf, fecDecodeOutcome_eq, err_complete_nLegal]
    refine ite_congr rfl (fun _ => rfl) fun hn => ?_
    rw [err_complete_range, err_complete_deliver, length_bytesOf, length_fecDecodeBits, length_readBits]
    rfl

end Sys2Proof.Machine
end

section
/-! SUPPORT. The Shannon-Fano construction: the order of the symbols (R131), the bisection (R132), and its codes as the leaves of
a full binary tree (R133), from which no code begins another (R135) and the codes are complete. -/

namespace Sys2Proof.Machine

/-! ### The symbols in order -/

/-- Equal symbols cannot both be listed, so the order of `SortSyms` is strict (R131). -/
theorem pairwise_sortSyms (f : FreqTable) :
    (sortSyms f).Pairwise fun a b => ramGet f b < ramGet f a ∨ (ramGet f a = ramGet f b ∧ a.toNat < b.toNat) := by
  have htotal : Std.Total (sortsBefore f) := ⟨fun a b => by omega⟩
  have htrans : IsTrans Byte (sortsBefore f) := ⟨fun a b c => by omega⟩
  have hsorted : (sortSyms f).Pairwise (sortsBefore f) := by
    rw [sortSyms_eq]
    exact List.pairwise_insertionSort _ _
  refine (hsorted.and (nodup_sortSyms f)).imp fun {a b} ⟨hab, hne⟩ => ?_
  have hne' : a.toNat ≠ b.toNat := fun h => hne (BitVec.eq_of_toNat_eq h)
  omega

/-- Settles O45: an insertion sort only reorders the symbols that occur. -/
theorem symbolOrder : Obligations.SymbolOrder := fun f => ⟨mem_sortSyms f, pairwise_sortSyms f⟩

theorem mem_sortSyms_freqOf {d : ByteString} {sym : Byte} : sym ∈ sortSyms (freqOf d) ↔ sym ∈ d := by
  rw [mem_sortSyms, ramGet_freqOf, List.count_pos_iff]

theorem sortSyms_freqOf_eq_nil_iff {d : ByteString} : sortSyms (freqOf d) = [] ↔ d = [] := by
  simp only [List.eq_nil_iff_forall_not_mem, mem_sortSyms_freqOf]

/-- `SortSyms` lists the distinct bytes of a byte string (R130, R131). -/
theorem length_sortSyms_freqOf (d : ByteString) : (sortSyms (freqOf d)).length = d.toFinset.card := by
  rw [← List.toFinset_card_of_nodup (nodup_sortSyms _)]
  congr 1
  ext sym
  simp only [List.mem_toFinset, mem_sortSyms_freqOf]

theorem length_sortSyms_le (f : FreqTable) : (sortSyms f).length ≤ 256 := by
  rw [sortSyms_eq, List.length_insertionSort]
  exact (List.length_filter_le _ _).trans_eq (by rw [symbols, List.length_map, List.length_range])

theorem two_le_length_sortSyms {d : ByteString} (h : ∃ a ∈ d, ∃ b ∈ d, a ≠ b) : 2 ≤ (sortSyms (freqOf d)).length := by
  obtain ⟨a, ha, b, hb, hne⟩ := h
  rw [length_sortSyms_freqOf]
  exact Finset.one_lt_card.2 ⟨a, List.mem_toFinset.2 ha, b, List.mem_toFinset.2 hb, hne⟩

/-! ### The bisection -/

/-- The bisection of a list of two symbols or more: each part from its own list (R132; for two symbols, R133 a). -/
theorem shannonFano_bisect (f : FreqTable) {l : List Byte} (p : BitString) (h : 2 ≤ l.length) :
    shannonFano f l.length l p =
      shannonFano f (l.take (splitIndex f l)).length (l.take (splitIndex f l)) (p ++ [false]) ++
        shannonFano f (l.drop (splitIndex f l)).length (l.drop (splitIndex f l)) (p ++ [true]) := by
  obtain ⟨hpos, hlt, -⟩ := splitIndex_spec f h
  match l, h with
  | [a, b], _ =>
    have hone : splitIndex f [a, b] = 1 := Nat.le_antisymm hlt hpos
    rw [hone]
    rfl
  | a :: b :: c :: rest, _ =>
    have hlen : (a :: b :: c :: rest).length = rest.length + 2 + 1 := rfl
    rw [hlen, shannonFano_split f (rest.length + 2) p (by omega), shannonFano_fuel f _ (List.take _ _),
      shannonFano_fuel f _ (List.drop _ _)]
    · rw [List.length_drop]
      omega
    · rw [List.length_take]
      omega

/-! ### The three cases of Build -/

theorem buildCodes_of_nil {d : ByteString} (h : sortSyms (freqOf d) = []) : buildCodes d = [] := by
  simp only [buildCodes, h]

theorem buildCodes_of_singleton {d : ByteString} {a : Byte} (h : sortSyms (freqOf d) = [a]) :
    buildCodes d = [(a, [false])] := by
  simp only [buildCodes, h]

theorem buildCodes_of_two_le {d : ByteString} (h : 2 ≤ (sortSyms (freqOf d)).length) :
    buildCodes d = shannonFano (freqOf d) (sortSyms (freqOf d)).length (sortSyms (freqOf d)) [] := by
  match hl : sortSyms (freqOf d), h with
  | _ :: _ :: _, _ => simp only [buildCodes, hl]

/-- Settles O46: the split index has the least cost, and Build's cases are those of the sorted symbols' number. -/
theorem shannonFanoIsTheBisection : Obligations.ShannonFanoIsTheBisection := by
  unfold Obligations.ShannonFanoIsTheBisection
  refine ⟨fun f p => ⟨fun a => rfl, fun a b => rfl, fun l hl => ?split⟩, fun d => ⟨ramGet_freqOf d, sortSyms_freqOf_eq_nil_iff,
    buildCodes_of_nil, fun a => buildCodes_of_singleton, buildCodes_of_two_le⟩⟩
  case split =>
    have hl2 : 2 ≤ l.length := by omega
    obtain ⟨hpos, hlt, hleast⟩ := splitIndex_spec f hl2
    exact ⟨splitIndex f l, hpos, hlt, hleast, shannonFano_bisect f p hl2⟩

/-! ### The codes as leaves of a full binary tree -/

/-- The table t lists the leaves of a full binary tree whose root is at the path p: a leaf is a symbol with its path as code, and
an inner node has a subtree at each of its two bits (R133 e). -/
inductive CodeTree : BitString → CodeTable → Prop
  | leaf (p : BitString) (a : Byte) : CodeTree p [(a, p)]
  | node {p : BitString} {t u : CodeTable} (hfalse : CodeTree (p ++ [false]) t) (htrue : CodeTree (p ++ [true]) u) :
      CodeTree p (t ++ u)

/-- The bisection makes such a tree of every list of symbols, and keeps their order (R132, R133 c). -/
theorem codeTree_shannonFano (f : FreqTable) (l : List Byte) (p : BitString) (h : l ≠ []) :
    CodeTree p (shannonFano f l.length l p) ∧ (shannonFano f l.length l p).map Prod.fst = l := by
  by_cases h2 : 2 ≤ l.length
  · obtain ⟨hpos, hlt, -⟩ := splitIndex_spec f h2
    have hfalse := codeTree_shannonFano f (l.take (splitIndex f l)) (p ++ [false])
      (List.ne_nil_of_length_pos (by rw [List.length_take]; omega))
    have htrue := codeTree_shannonFano f (l.drop (splitIndex f l)) (p ++ [true])
      (List.ne_nil_of_length_pos (by rw [List.length_drop]; omega))
    rw [shannonFano_bisect f p h2, List.map_append, hfalse.2, htrue.2, List.take_append_drop]
    exact ⟨.node hfalse.1 htrue.1, rfl⟩
  · have hpos := List.length_pos_iff.2 h
    obtain ⟨a, rfl⟩ := List.length_eq_one_iff.1 (show l.length = 1 by omega)
    exact ⟨.leaf p a, rfl⟩
termination_by l.length
decreasing_by
  · rw [List.length_take]
    omega
  · rw [List.length_drop]
    omega

namespace CodeTree

variable {p : BitString} {t : CodeTable}

theorem length_pos (h : CodeTree p t) : 0 < t.length := by
  induction h with
  | leaf => exact Nat.one_pos
  | node _ _ iht _ => exact iht.trans_le (List.length_append ▸ Nat.le_add_right _ _)

/-- Every code continues the root's path. -/
theorem path_isPrefix (h : CodeTree p t) : ∀ e ∈ t, p <+: e.2 := by
  induction h with
  | leaf p a => exact List.forall_mem_singleton.2 (List.prefix_refl p)
  | @node p t u _ _ iht ihu =>
    have hup {b : Bool} {c : BitString} (hc : p ++ [b] <+: c) : p <+: c := (List.prefix_append p [b]).trans hc
    exact List.forall_mem_append.2 ⟨fun e he => hup (iht e he), fun e he => hup (ihu e he)⟩

/-- In a tree of more than one leaf every code is longer than the root's path. -/
theorem length_lt (h : CodeTree p t) (ht : 2 ≤ t.length) : ∀ e ∈ t, p.length < e.2.length := by
  cases h with
  | leaf => exact absurd ht (Nat.not_succ_le_self 1)
  | node hfalse htrue =>
    have hlt {b : Bool} {c : BitString} (hc : p ++ [b] <+: c) : p.length < c.length :=
      Nat.lt_of_lt_of_le (by rw [List.length_append]; exact Nat.lt_succ_self _) hc.length_le
    exact List.forall_mem_append.2
      ⟨fun e he => hlt (hfalse.path_isPrefix e he), fun e he => hlt (htrue.path_isPrefix e he)⟩

/-- Each level of the tree splits off at least one leaf (R133 d). -/
theorem length_add_one_le (h : CodeTree p t) : ∀ e ∈ t, e.2.length + 1 ≤ p.length + t.length := by
  induction h with
  | leaf p a => exact List.forall_mem_singleton.2 le_rfl
  | node hfalse htrue iht ihu =>
    have ht := hfalse.length_pos
    have hu := htrue.length_pos
    simp only [List.length_append, List.length_singleton] at iht ihu ⊢
    refine List.forall_mem_append.2 ⟨fun e he => ?_, fun e he => ?_⟩
    · have := iht e he
      omega
    · have := ihu e he
      omega

/-- The Kraft sum below a node is the weight of its path (R133 e). -/
theorem kraft_sum (h : CodeTree p t) : (t.map fun e => (1 / 2 : ℚ) ^ e.2.length).sum = (1 / 2) ^ p.length := by
  induction h with
  | leaf p a => simp
  | node _ _ iht ihu =>
    rw [List.map_append, List.sum_append, iht, ihu, List.length_append, List.length_append, List.length_singleton,
      List.length_singleton, pow_succ]
    ring

end CodeTree

/-- No code of the table begins the code of another entry (R135). -/
def PrefixFree (t : CodeTable) : Prop := ∀ x ∈ t, ∀ y ∈ t, x.2 <+: y.2 → x = y

/-- No bit string continues both children of a node. -/
theorem not_prefix_both {p c : BitString} {b b' : Bool} (hne : b ≠ b') (h : p ++ [b] <+: c) (h' : p ++ [b'] <+: c) : False := by
  have heq : p ++ [b] = p ++ [b'] :=
    (List.prefix_of_prefix_length_le h h' (by simp)).eq_of_length (by simp)
  exact hne (by simpa using heq)

/-- The leaves of a tree lie on paths none of which continues another. -/
theorem CodeTree.prefixFree {p : BitString} {t : CodeTable} (h : CodeTree p t) : PrefixFree t := by
  induction h with
  | leaf p a => exact fun x hx y hy _ => (List.mem_singleton.1 hx).trans (List.mem_singleton.1 hy).symm
  | @node p t u hfalse htrue iht ihu =>
    intro x hx y hy hxy
    rcases List.mem_append.1 hx with hx | hx <;> rcases List.mem_append.1 hy with hy | hy
    · exact iht x hx y hy hxy
    · exact (not_prefix_both (by decide) ((hfalse.path_isPrefix x hx).trans hxy) (htrue.path_isPrefix y hy)).elim
    · exact (not_prefix_both (by decide) ((htrue.path_isPrefix x hx).trans hxy) (hfalse.path_isPrefix y hy)).elim
    · exact ihu x hx y hy hxy

/-! ### The codes that Build makes -/

theorem codeTree_buildCodes {d : ByteString} (h : 2 ≤ (sortSyms (freqOf d)).length) : CodeTree [] (buildCodes d) := by
  rw [buildCodes_of_two_le h]
  exact (codeTree_shannonFano _ _ _ (List.ne_nil_of_length_pos (by omega))).1

/-- Build gives each distinct byte one code, in symbol order (R134). -/
theorem map_fst_buildCodes (d : ByteString) : (buildCodes d).map Prod.fst = sortSyms (freqOf d) := by
  match hl : sortSyms (freqOf d) with
  | [] => rw [buildCodes_of_nil hl, List.map_nil]
  | [a] => rw [buildCodes_of_singleton hl, List.map_singleton]
  | a :: b :: rest =>
    have h2 : 2 ≤ (sortSyms (freqOf d)).length := by rw [hl]; exact Nat.le_add_left 2 _
    rw [buildCodes_of_two_le h2, (codeTree_shannonFano _ _ _ (List.ne_nil_of_length_pos (by omega))).2, hl]

theorem length_buildCodes (d : ByteString) : (buildCodes d).length = (sortSyms (freqOf d)).length := by
  rw [← map_fst_buildCodes, List.length_map]

theorem nodup_buildCodes_symbols (d : ByteString) : ((buildCodes d).map Prod.fst).Nodup := by
  rw [map_fst_buildCodes]
  exact nodup_sortSyms _

theorem mem_buildCodes_symbols {d : ByteString} {sym : Byte} : sym ∈ (buildCodes d).map Prod.fst ↔ sym ∈ d := by
  rw [map_fst_buildCodes, mem_sortSyms_freqOf]

theorem prefixFree_of_length_le_one {t : CodeTable} (h : t.length ≤ 1) : PrefixFree t := by
  match t, h with
  | [], _ => exact List.forall_mem_nil _
  | [_], _ => exact fun x hx y hy _ => (List.mem_singleton.1 hx).trans (List.mem_singleton.1 hy).symm

theorem prefixFree_buildCodes (d : ByteString) : PrefixFree (buildCodes d) := by
  by_cases h : 2 ≤ (sortSyms (freqOf d)).length
  · exact (codeTree_buildCodes h).prefixFree
  · exact prefixFree_of_length_le_one (by rw [length_buildCodes]; omega)

/-- Every code of the table fits an entry of the code-table RAM: LEN is 8 bits wide and 0 means absent (R40). -/
def Storable (t : CodeTable) : Prop := ∀ e ∈ t, 1 ≤ e.2.length ∧ e.2.length ≤ 255

/-- The lengths of two codes or more: the tree has at most 256 leaves (R133 d). -/
theorem length_of_mem_buildCodes {d : ByteString} (h : 2 ≤ (sortSyms (freqOf d)).length) :
    ∀ e ∈ buildCodes d, 1 ≤ e.2.length ∧ e.2.length ≤ (sortSyms (freqOf d)).length - 1 := by
  have htree := codeTree_buildCodes h
  have hlen := length_buildCodes d
  refine fun e he => ⟨htree.length_lt (by omega) e he, ?_⟩
  have hle := htree.length_add_one_le e he
  rw [List.length_nil] at hle
  omega

theorem storable_buildCodes (d : ByteString) : Storable (buildCodes d) := by
  match hl : sortSyms (freqOf d) with
  | [] => exact buildCodes_of_nil hl ▸ List.forall_mem_nil _
  | [a] => exact buildCodes_of_singleton hl ▸ List.forall_mem_singleton.2 ⟨le_rfl, Nat.le_add_left 1 254⟩
  | a :: b :: rest =>
    intro e he
    have hmax := length_sortSyms_le (freqOf d)
    obtain ⟨hmin, hle⟩ := length_of_mem_buildCodes (by rw [hl]; exact Nat.le_add_left 2 _) e he
    exact ⟨hmin, by omega⟩

/-- Settles O47: the codes are the leaves of a tree, and a table of one code or none has no other to begin. -/
theorem builtTableIsPrefixFree : Obligations.BuiltTableIsPrefixFree := fun d _ => prefixFree_buildCodes d

/-- Settles O48: the tree is full, and hangs at the empty path. -/
theorem builtCodesAreComplete : Obligations.BuiltCodesAreComplete := by
  unfold Obligations.BuiltCodesAreComplete
  intro d hd
  have h2 := two_le_length_sortSyms hd
  refine ⟨(codeTree_buildCodes h2).kraft_sum.trans (pow_zero _), fun e he => ?_⟩
  obtain ⟨hmin, hle⟩ := length_of_mem_buildCodes h2 e he
  rw [length_sortSyms_freqOf] at hle
  exact ⟨hmin, hle, (storable_buildCodes d e he).2⟩

end Sys2Proof.Machine
end

section
/-! SUPPORT. The encoder and the decoder as rules over whole strings: what `Enc` answers (R156), how `Dec` takes one code after
another (R166), and that each undoes the other where no code begins another (R170). -/

namespace Sys2Proof.Machine

/-! ### A table read as a mapping -/

theorem lookup_eq_none_of_notMem {t : CodeTable} {b : Byte} (h : b ∉ t.map Prod.fst) : t.lookup b = none :=
  Option.eq_none_iff_forall_ne_some.2 fun _ hc => h (mem_of_lookup_eq_some hc)

theorem exists_lookup_of_mem {t : CodeTable} {b : Byte} (h : b ∈ t.map Prod.fst) : ∃ c, t.lookup b = some c :=
  Option.ne_none_iff_exists'.1 fun hnone => notMem_of_lookup_eq_none hnone h

theorem isSome_lookup_iff {t : CodeTable} {b : Byte} : (t.lookup b).isSome ↔ b ∈ t.map Prod.fst := by
  rw [Option.isSome_iff_exists]
  exact ⟨fun ⟨_, hc⟩ => mem_of_lookup_eq_some hc, exists_lookup_of_mem⟩

theorem entry_mem_of_lookup {t : CodeTable} {b : Byte} {c : BitString} (h : t.lookup b = some c) : (b, c) ∈ t := by
  obtain ⟨l, l', rfl, -⟩ := List.lookup_eq_some_iff.1 h
  exact List.mem_append_right l List.mem_cons_self

/-- Where no symbol stands twice, the look-up finds the entry (R12). -/
theorem lookup_eq_some_iff_mem {t : CodeTable} (hsym : (t.map Prod.fst).Nodup) {b : Byte} {c : BitString} :
    t.lookup b = some c ↔ (b, c) ∈ t := by
  refine ⟨entry_mem_of_lookup, fun h => ?_⟩
  obtain ⟨c', hc'⟩ := exists_lookup_of_mem (List.mem_map_of_mem (f := Prod.fst) h)
  have heq := List.inj_on_of_nodup_map hsym (entry_mem_of_lookup hc') h rfl
  exact hc'.trans (congrArg (some ∘ Prod.snd) heq)

/-! ### The encoder -/

theorem encodeSymbols_cons {t : CodeTable} {b : Byte} {c : BitString} (rest : ByteString) (h : t.lookup b = some c) :
    encodeSymbols t (b :: rest) = (c ++ ·) <$> encodeSymbols t rest := by
  rw [encodeSymbols, h]
  cases encodeSymbols t rest <;> rfl

/-- The first byte that the table lacks ends the encoding (R156). -/
theorem encodeSymbols_absent {t : CodeTable} {pre : ByteString} {b : Byte} (post : ByteString)
    (hpre : ∀ x ∈ pre, x ∈ t.map Prod.fst) (hb : b ∉ t.map Prod.fst) : encodeSymbols t (pre ++ b :: post) = .error b := by
  induction pre with
  | nil => rw [List.nil_append, encodeSymbols, lookup_eq_none_of_notMem hb]
  | cons x pre ih =>
    obtain ⟨hx, hpre⟩ := List.forall_mem_cons.1 hpre
    obtain ⟨c, hc⟩ := exists_lookup_of_mem hx
    rw [List.cons_append, encodeSymbols_cons _ hc, ih hpre]
    rfl

/-- Bytes that the table has are encoded to their codes in order (R156). -/
theorem encodeSymbols_present {t : CodeTable} {d : ByteString} (h : ∀ x ∈ d, x ∈ t.map Prod.fst) :
    encodeSymbols t d = .ok (d.flatMap fun b => (t.lookup b).getD []) := by
  induction d with
  | nil => rfl
  | cons x rest ih =>
    obtain ⟨hx, hrest⟩ := List.forall_mem_cons.1 h
    obtain ⟨c, hc⟩ := exists_lookup_of_mem hx
    rw [encodeSymbols_cons _ hc, ih hrest, List.flatMap_cons, hc]
    rfl

theorem encodeBytes_absent {t : CodeTable} {pre : ByteString} {b : Byte} (post : ByteString)
    (hpre : ∀ x ∈ pre, x ∈ t.map Prod.fst) (hb : b ∉ t.map Prod.fst) : encodeBytes t (pre ++ b :: post) = .error b := by
  by_cases hlen : t.length = 1
  · obtain ⟨⟨sym, c⟩, rfl⟩ := List.length_eq_one_iff.1 hlen
    have hfind : (pre ++ b :: post).find? (fun x => decide (x ≠ sym)) = some b :=
      List.find?_eq_some_iff_append.2 ⟨by simpa using hb, pre, post, rfl, by simpa using hpre⟩
    rw [encodeBytes_one, hfind]
  · rw [encodeBytes_of_length_ne_one _ hlen, encodeSymbols_absent post hpre hb]

theorem encodeBytes_one_present {sym : Byte} (c : BitString) {d : ByteString} (h : ∀ x ∈ d, x = sym) :
    encodeBytes [(sym, c)] d = .ok (zeros d.length) := by
  have hfind : d.find? (fun x => decide (x ≠ sym)) = none := List.find?_eq_none.2 (by simpa using h)
  rw [encodeBytes_one, hfind]

theorem encodeBytes_present {t : CodeTable} {d : ByteString} (hlen : t.length ≠ 1) (h : ∀ x ∈ d, x ∈ t.map Prod.fst) :
    encodeBytes t d = .ok (d.flatMap fun b => (t.lookup b).getD []) := by
  rw [encodeBytes_of_length_ne_one _ hlen, encodeSymbols_present h]

/-- Settles O50: the one-entry table apart, `Enc` looks up byte after byte. -/
theorem encoderRule : Obligations.EncoderRule := by
  unfold Obligations.EncoderRule
  refine fun t d _ => ⟨fun pre b post hd hpre hb => hd ▸ encodeBytes_absent post hpre hb, fun h => ?_⟩
  by_cases hlen : t.length = 1
  · obtain ⟨⟨sym, c⟩, rfl⟩ := List.length_eq_one_iff.1 hlen
    rw [if_pos hlen, encodeBytes_one_present c (by simpa using h), zeros]
  · rw [if_neg hlen, encodeBytes_present hlen h]

/-! ### The decoder -/

theorem symbolOf?_of_mem {t : CodeTable} (hcode : (t.map Prod.snd).Nodup) {e : Byte × BitString} (he : e ∈ t) :
    symbolOf? t e.2 = some e.1 := by
  cases hs : symbolOf? t e.2 with
  | none => exact absurd rfl (symbolOf?_eq_none_iff.1 hs e he)
  | some sym => exact congrArg (some ∘ Prod.fst) (List.inj_on_of_nodup_map hcode (symbolOf?_eq_some hs) he rfl)

/-- Bits that complete no code gather in the accumulator (R166). -/
theorem decodeSymbols_gather {t : CodeTable} (front rest acc : BitString)
    (h : ∀ q, q ≠ [] → q <+: front → symbolOf? t (acc ++ q) = none) :
    decodeSymbols t (front ++ rest) acc = decodeSymbols t rest (acc ++ front) := by
  induction front generalizing acc with
  | nil => rw [List.nil_append, List.append_nil]
  | cons b front ih =>
    have hb : symbolOf? t (acc ++ [b]) = none := h [b] nofun (List.prefix_append [b] front)
    rw [List.cons_append, decodeSymbols_cons_none _ hb, ih, ← List.append_cons]
    intro q _ hq
    rw [← List.append_cons]
    exact h (b :: q) nofun (List.cons_prefix_cons.2 ⟨rfl, hq⟩)

/-- A code that no other code begins is taken whole, at its last bit (R166). -/
theorem decodeSymbols_code {t : CodeTable} (hcode : (t.map Prod.snd).Nodup) {e : Byte × BitString} (he : e ∈ t)
    (hne : e.2 ≠ []) (hfirst : ∀ e' ∈ t, e'.2 <+: e.2 → e' = e) (rest : BitString) :
    decodeSymbols t (e.2 ++ rest) [] = (e.1 :: (decodeSymbols t rest []).1, (decodeSymbols t rest []).2) := by
  obtain ⟨front, b, hfront⟩ := List.eq_nil_or_concat' e.2 |>.resolve_left hne
  have hgather : ∀ q, q ≠ [] → q <+: front → symbolOf? t ([] ++ q) = none := by
    intro q _ hq
    refine symbolOf?_eq_none_iff.2 fun e' he' heq => ?_
    rw [List.nil_append] at heq
    have hqe : e'.2 <+: e.2 := heq ▸ hfront ▸ hq.trans (List.prefix_append front [b])
    have hlen := congrArg List.length ((congrArg Prod.snd (hfirst e' he' hqe)).trans hfront)
    have hle := hq.length_le
    rw [List.length_append, List.length_singleton, heq] at hlen
    omega
  have hlast : symbolOf? t (([] ++ front) ++ [b]) = some e.1 := by
    rw [List.nil_append, ← hfront, symbolOf?_of_mem hcode he]
  rw [hfront, List.append_assoc, decodeSymbols_gather front _ [] hgather, List.singleton_append,
    decodeSymbols_cons_some rest hlast]

theorem decodeBits_code {t : CodeTable} (hlen : t.length ≠ 1) (hcode : (t.map Prod.snd).Nodup) {e : Byte × BitString}
    (he : e ∈ t) (hne : e.2 ≠ []) (hfirst : ∀ e' ∈ t, e'.2 <+: e.2 → e' = e) (rest : BitString) :
    decodeBits t (e.2 ++ rest) = (e.1 :: (decodeBits t rest).1, (decodeBits t rest).2) := by
  rw [decodeBits_of_length_ne_one _ hlen, decodeBits_of_length_ne_one _ hlen, decodeSymbols_code hcode he hne hfirst]

/-- An input that no code starts is left over (R166). -/
theorem decodeBits_leftover {t : CodeTable} (hlen : t.length ≠ 1) {bits : BitString} (h : ∀ e ∈ t, ¬ e.2 <+: bits) :
    decodeBits t bits = ([], !bits.isEmpty) := by
  have hall : decodeSymbols t bits [] = ([], bits) := by
    have hgather := decodeSymbols_gather (t := t) bits [] [] fun q _ hq =>
      symbolOf?_eq_none_iff.2 fun e he heq => h e he (heq ▸ hq)
    rwa [List.append_nil] at hgather
  rw [decodeBits_of_length_ne_one _ hlen, hall]

/-- Settles O51, clause by clause. -/
theorem decoderIsGreedy : Obligations.DecoderIsGreedy := by
  unfold Obligations.DecoderIsGreedy
  refine fun t hcode hne => ⟨fun hlen e he rest hfirst => decodeBits_code hlen hcode he (hne e he) hfirst rest,
    fun hlen bits h => decodeBits_leftover hlen h, ?_⟩
  rintro sym c rfl bits
  exact decodeBits_one sym c bits

/-! ### The round trip -/

theorem PrefixFree.nodup_codes {t : CodeTable} (h : PrefixFree t) (ht : t.Nodup) : (t.map Prod.snd).Nodup :=
  ht.map_on fun x hx y hy hxy => h x hx y hy (hxy ▸ List.prefix_refl x.2)

/-- Where no code begins another, `Dec` gives back what `Enc` was given, and leaves no bit over (R170). -/
theorem decodeBits_encodeBytes {t : CodeTable} (hfree : PrefixFree t) (hnodup : t.Nodup) (hne : ∀ e ∈ t, e.2 ≠ [])
    {d : ByteString} (hd : ∀ x ∈ d, x ∈ t.map Prod.fst) : ∃ c, encodeBytes t d = .ok c ∧ decodeBits t c = (d, false) := by
  by_cases hlen : t.length = 1
  · obtain ⟨⟨sym, c⟩, rfl⟩ := List.length_eq_one_iff.1 hlen
    have hall : ∀ x ∈ d, x = sym := by simpa using hd
    refine ⟨_, encodeBytes_one_present c hall, ?_⟩
    rw [decodeBits_one, length_zeros, ← List.eq_replicate_of_mem hall]
  · refine ⟨_, encodeBytes_present hlen hd, ?_⟩
    have hcode := hfree.nodup_codes hnodup
    induction d with
    | nil => exact decodeBits_leftover hlen fun e he hnil => hne e he (List.prefix_nil.1 hnil)
    | cons x rest ih =>
      obtain ⟨hx, hrest⟩ := List.forall_mem_cons.1 hd
      obtain ⟨c, hc⟩ := exists_lookup_of_mem hx
      have he := entry_mem_of_lookup hc
      have htake := decodeBits_code hlen hcode he (hne _ he) fun e' he' => hfree e' he' _ he
      rw [List.flatMap_cons, hc, Option.getD_some, htake, ih hrest]

end Sys2Proof.Machine
end

section
/-! SUPPORT. The entropy commands: the RAM that stores a table reads back as that table (R40, R140), each command's completion as
one state (R140, R150, R155, R165), and the round trip through the machine (R170). -/

namespace Sys2Proof.Machine

open Sys2Proof.Safety

/-! ### The RAM of a table -/

/-- An absent entry of TABLE_CLEAR and BUILD_TABLE (R140, R150). -/
theorem zero_len_and_code : TableEntry.zero.len = 0 ∧ ∀ j : Fin 32, TableEntry.zero.code[j] = 0 :=
  ⟨rfl, fun j => by simp [TableEntry.zero]⟩

theorem toNat_len_ofCode {c : BitString} (h : c.length ≤ 255) : (TableEntry.ofCode c).len.toNat = c.length :=
  Nat.mod_eq_of_lt (Nat.lt_succ_of_le h)

theorem code_ofCode (c : BitString) (j : Fin 32) : (TableEntry.ofCode c).code[j] = (bytesOf c).getD j 0 := by
  simp [TableEntry.ofCode]

/-- An entry reads back the code it stores (R40, R140). -/
theorem codeOf_ofCode {c : BitString} (h : c.length ≤ 255) : (TableEntry.ofCode c).codeOf = c := by
  refine List.ext_getElem (by rw [length_codeOf, toNat_len_ofCode h]) fun k _ hk => ?_
  have hbyte : (TableEntry.ofCode c).code.toList.getD (k / 8) 0 = packedByte c (k / 8) := by
    have hj := (codeByte_eq (TableEntry.ofCode c) ⟨k / 8, by omega⟩).trans (code_ofCode c _)
    rw [List.getD, getElem?_bytesOf, if_pos (show k / 8 < bytesFor c.length by unfold bytesFor; omega), Option.getD_some] at hj
    exact hj
  simp only [TableEntry.codeOf, List.getElem_map, List.getElem_range]
  rw [bitAt, hbyte, getLsbD_packedByte _ _ (Nat.mod_lt _ (by decide)), Nat.div_add_mod, List.getD_eq_getElem _ _ hk]

theorem ramGet_ramOf_some {codes : CodeTable} {sym : Byte} {c : BitString} (h : codes.lookup sym = some c) :
    ramGet (ramOf codes) sym = TableEntry.ofCode c := by rw [ramGet_ramOf, h]

theorem ramGet_ramOf_none {codes : CodeTable} {sym : Byte} (h : codes.lookup sym = none) :
    ramGet (ramOf codes) sym = TableEntry.zero := by rw [ramGet_ramOf, h]

/-- The RAM of a table holds exactly the table's entries (R12, R140). -/
theorem mem_tableOf_ramOf {codes : CodeTable} (hsym : (codes.map Prod.fst).Nodup) (hstore : Storable codes)
    {e : Byte × BitString} : e ∈ tableOf (ramOf codes) ↔ e ∈ codes := by
  obtain ⟨sym, c⟩ := e
  rw [mem_tableOf, ← lookup_eq_some_iff_mem hsym]
  cases hlookup : codes.lookup sym with
  | none => simp [ramGet_ramOf_none hlookup, zero_len_and_code.1]
  | some c' =>
    obtain ⟨hpos, hle⟩ : 1 ≤ c'.length ∧ c'.length ≤ 255 := hstore _ (entry_mem_of_lookup hlookup)
    have hlen : (TableEntry.ofCode c').len ≠ 0 := by
      intro h0
      have hzero : 0 = c'.length := (congrArg BitVec.toNat h0).symm.trans (toNat_len_ofCode hle)
      omega
    rw [ramGet_ramOf_some hlookup, codeOf_ofCode hle, and_iff_right hlen, Option.some.injEq, eq_comm]

/-- The table that BUILD_TABLE stores is that of `Build`, in another order (R12, R140). -/
theorem tableOf_ramOf_buildCodes_perm (d : ByteString) : (tableOf (ramOf (buildCodes d))).Perm (buildCodes d) :=
  (List.perm_ext_iff_of_nodup (nodup_tableOf _) (nodup_buildCodes_symbols d).of_map).2 fun _ =>
    mem_tableOf_ramOf (nodup_buildCodes_symbols d) (storable_buildCodes d)

theorem prefixFree_tableOf_ramOf_buildCodes (d : ByteString) : PrefixFree (tableOf (ramOf (buildCodes d))) := by
  have hmem {e : Byte × BitString} := (tableOf_ramOf_buildCodes_perm d).mem_iff (a := e)
  exact fun x hx y hy => prefixFree_buildCodes d x (hmem.1 hx) y (hmem.1 hy)

/-! ### The completions -/

/-- BUILD_TABLE without error, as one state (R140). -/
theorem exec_buildTable {s : State} (hsrc : Fits s.srcAddr s.srcLen.toNat) :
    exec .buildTable s = .next (((s.setFreq (freqRamOf (freqOf (s.readBytes s.srcAddr.toNat s.srcLen.toNat)))).setTable
      (ramOf (buildCodes (s.readBytes s.srcAddr.toNat s.srcLen.toNat)))).finish .none 0
        { empty := decide (s.srcLen.toNat = 0) }) := by
  rw [exec_eq_complete, outcomeOf, buildTableOutcome_eq, if_neg (not_not.2 ((inRange_iff _ _).2 hsrc)), complete_ok]

/-- COMPRESS without error, as one state (R155). -/
theorem exec_compress {s : State} {out : BitString} (hsrc : Fits s.srcAddr s.srcLen.toNat)
    (henc : encodeBytes (tableOf s.table) (s.readBytes s.srcAddr.toNat s.srcLen.toNat) = .ok out)
    (hdst : Fits s.dstAddr (bytesFor out.length)) (hapart : Apart s.srcAddr s.srcLen.toNat s.dstAddr (bytesFor out.length)) :
    exec .compress s =
      .next (((s.writeBytes s.dstAddr.toNat (bytesOf out)).setDstLen out.length).finish .none 0 {}) := by
  rw [← length_bytesOf] at hdst hapart
  rw [exec_eq_complete, outcomeOf, compressOutcome_eq, if_neg (not_not.2 ((inRange_iff _ _).2 hsrc)), henc]
  dsimp only
  rw [deliver_ok _ _ hdst hapart, complete_ok]

/-- DECOMPRESS without error, as one state (R165). -/
theorem exec_decompress {s : State} {r : ByteString × Bool} (hsrc : Fits s.srcAddr (bytesFor s.srcLen.toNat))
    (htable : duplicateCodes (tableOf s.table) = false)
    (hdec : decodeBits (tableOf s.table) (s.readBits s.srcAddr.toNat s.srcLen.toNat) = r)
    (hdst : Fits s.dstAddr r.1.length) (hapart : Apart s.srcAddr (bytesFor s.srcLen.toNat) s.dstAddr r.1.length) :
    exec .decompress s =
      .next (((s.writeBytes s.dstAddr.toNat r.1).setDstLen r.1.length).finish .none 0 { tail := r.2 }) := by
  rw [exec_eq_complete, outcomeOf, decompressOutcome_eq, if_neg (not_not.2 ((inRange_iff _ _).2 hsrc)),
    if_neg (Bool.eq_false_iff.1 htable), hdec, deliver_ok _ _ hdst hapart, complete_ok]

theorem duplicateCodes_eq_false_iff (t : CodeTable) :
    duplicateCodes t = false ↔ t.length ≤ 1 ∨ (t.map Prod.snd).Nodup := by
  rw [duplicateCodes, decide_eq_false_iff_not, not_and_or, not_not, Nat.not_le, Nat.lt_succ_iff]

/-! ### TABLE_CLEAR -/

theorem tableOf_zero : tableOf TableRam.zero = [] := by
  refine List.eq_nil_iff_forall_not_mem.2 fun ⟨sym, c⟩ h => ?_
  rw [mem_tableOf, ramGet_zero] at h
  exact h.1 rfl

/-- Settles O27. -/
theorem tableClearCompletes : Obligations.TableClearCompletes := by
  unfold Obligations.TableClearCompletes
  refine ⟨decode_encode .tableClear, fun s => ⟨_, exec_eq_complete .tableClear s, rfl, fun sym => ?entry, ?count⟩⟩
  case entry =>
    rw [outcomeOf, tableClearOutcome, complete_ok, finish_table, setTable_table, ramGet_zero]
    exact zero_len_and_code
  case count =>
    refine BitVec.eq_of_toNat_eq ?_
    rw [toNat_regRead_tableCount, State.tableCount]
    exact congrArg List.length tableOf_zero

/-! ### BUILD_TABLE -/

/-- TABLE_COUNT after BUILD_TABLE (R36, R140). -/
theorem length_tableOf_ramOf_buildCodes (d : ByteString) : (tableOf (ramOf (buildCodes d))).length = d.toFinset.card := by
  rw [(tableOf_ramOf_buildCodes_perm d).length_eq, length_buildCodes, length_sortSyms_freqOf]

/-- A counter of FREQ is wide enough for the bytes of a source that fits (R43, R130). -/
theorem toNat_freqRamOf_freqOf {a : Word} {d : ByteString} (h : Fits a d.length) (sym : Byte) :
    (ramGet (freqRamOf (freqOf d)) sym).toNat = d.count sym := by
  rw [ramGet_freqRamOf, ramGet_freqOf]
  exact toNat_ofNat_of_le_bits (List.count_le_length.trans ((le_of_fits h).trans (by decide)))

/-- Settles O28: FREQ and the RAM hold what they were made of, symbol by symbol. -/
theorem buildTableCompletes : Obligations.BuildTableCompletes := by
  unfold Obligations.BuildTableCompletes
  intro s hsrc
  have hlength := length_readBytes s s.srcAddr.toNat s.srcLen.toNat
  have hexec := exec_buildTable hsrc
  generalize s.readBytes s.srcAddr.toNat s.srcLen.toNat = d at hlength hexec ⊢
  have hempty : decide (s.srcLen.toNat = 0) = decide (s.srcLen = 0) :=
    decide_eq_decide.2 (BitVec.toNat_inj (y := 0))
  rw [hempty] at hexec
  refine ⟨_, hexec, rfl, toNat_freqRamOf_freqOf (hlength ▸ hsrc), fun sym c hc => ?present, fun sym hnone => ?absent,
    fun sym => isSome_lookup_iff.trans mem_buildCodes_symbols, ?count⟩
  case present =>
    have hle := (storable_buildCodes d _ (entry_mem_of_lookup hc)).2
    rw [finish_table, setTable_table, ramGet_ramOf_some hc]
    exact ⟨toNat_len_ofCode hle, codeOf_ofCode hle, code_ofCode c⟩
  case absent =>
    rw [finish_table, setTable_table, ramGet_ramOf_none hnone]
    exact zero_len_and_code
  case count =>
    rw [toNat_regRead_tableCount]
    exact length_tableOf_ramOf_buildCodes d

/-! ### COMPRESS and DECOMPRESS -/

/-- Settles O29. -/
theorem compressCompletes : Obligations.CompressCompletes := by
  unfold Obligations.CompressCompletes
  intro s out hsrc henc hdst hapart
  exact ⟨_, exec_compress hsrc henc hdst hapart, rfl, toNat_ofNat_of_le_bits (le_bits_of_fits hdst), byteAt_writeBytes s _ _,
    readBits_writeBytes_bytesOf s _ out⟩

/-- Settles O30. -/
theorem decompressCompletes : Obligations.DecompressCompletes := by
  unfold Obligations.DecompressCompletes
  intro s hsrc htable r hdst hapart
  exact ⟨_, exec_decompress hsrc ((duplicateCodes_eq_false_iff _).2 htable) rfl hdst hapart, rfl,
    (length_eq_of_fits hdst).symm, byteAt_writeBytes s _ _⟩

/-! ### The round trip -/

/-- The table that BUILD_TABLE stores encodes its source and decodes it again (R170). -/
theorem decodeBits_encodeBytes_ramOf_buildCodes (d : ByteString) :
    ∃ c, encodeBytes (tableOf (ramOf (buildCodes d))) d = .ok c ∧
      decodeBits (tableOf (ramOf (buildCodes d))) c = (d, false) := by
  refine decodeBits_encodeBytes (prefixFree_tableOf_ramOf_buildCodes d) (nodup_tableOf _)
    (fun e he => code_ne_nil_of_mem_tableOf he) fun x hx => ?_
  exact ((tableOf_ramOf_buildCodes_perm d).map Prod.fst).mem_iff.2 (mem_buildCodes_symbols.2 hx)

/-- Settles O49: the commands store what `Enc` and `Dec` answer, and those undo each other. -/
theorem entropyRoundTrip : Obligations.EntropyRoundTrip := by
  unfold Obligations.EntropyRoundTrip
  intro s t hsrc hbuild d
  have htable : t.table = ramOf (buildCodes d) := by
    rw [exec_buildTable hsrc, Host.Outcome.next.injEq] at hbuild
    rw [← hbuild, finish_table, setTable_table]
  obtain ⟨c, henc, hdec⟩ := decodeBits_encodeBytes_ramOf_buildCodes d
  rw [← htable] at henc hdec
  refine ⟨c, henc, fun u hu husrc hread hdst hapart => ?compress, fun u hu hlen husrc hread hdst hapart => ?decompress⟩
  case compress =>
    obtain ⟨v, hexec, hframe, hdstLen, -, hbits⟩ :=
      compressCompletes u c husrc (by rw [hu, hread, henc]) hdst hapart
    exact ⟨v, hexec, by rw [hframe]; rfl, hdstLen, hbits⟩
  case decompress =>
    have hcodes : duplicateCodes (tableOf u.table) = false := by
      rw [hu, htable, duplicateCodes_eq_false_iff]
      exact .inr ((prefixFree_tableOf_ramOf_buildCodes d).nodup_codes (nodup_tableOf _))
    have hdecode : decodeBits (tableOf u.table) (u.readBits u.srcAddr.toNat u.srcLen.toNat) = (d, false) := by
      rw [hu, hlen, hread, hdec]
    exact ⟨_, exec_decompress (hlen ▸ husrc) hcodes hdecode hdst (hlen ▸ hapart), rfl, rfl, (length_eq_of_fits hdst).symm,
      readBytes_writeBytes u _ d⟩

end Sys2Proof.Machine
end

section
/-! SUPPORT. The bit-packing unit: a valid padding is a run at the end of the bytes (R185), UNPACK undoes PACK (R190), and the
completions of the two commands as one state each (R181, R188). -/

namespace Sys2Proof.Machine

open Sys2Proof.Safety

/-! ### Packing -/

/-- Settles O52: the padding is p bytes of the value p, and p reaches the next multiple of B. -/
theorem packedShape : Obligations.PackedShape := by
  unfold Obligations.PackedShape
  intro b blockBytes hpos _
  obtain ⟨hone, hmax, hmultiple⟩ := padCount_spec (bytesFor b.length) hpos
  refine ⟨padCount (bytesFor b.length) blockBytes, hone, hmax, ?_, by rw [length_packBits, hmultiple]⟩
  rw [packBits, length_bytesOf]

/-! ### Unpacking -/

/-- The padding check of R185: the bytes end in c bytes of the value c. -/
theorem validPadding_iff (d : ByteString) (c : Byte) :
    validPadding d c = true ↔ 1 ≤ c.toNat ∧ List.replicate c.toNat c <:+ d := by
  have hrun : List.replicate c.toNat c <:+ d ↔ c.toNat ≤ d.length ∧ ∀ b ∈ d.drop (d.length - c.toNat), b = c := by
    rw [List.suffix_iff_eq_drop, List.length_replicate, eq_comm, List.eq_replicate_iff, List.length_drop]
    exact and_congr_left fun _ => by omega
  rw [hrun, validPadding, Bool.and_eq_true, Bool.and_eq_true, List.all_eq_true, decide_eq_true_eq, decide_eq_true_eq, and_assoc]
  simp only [decide_eq_true_eq]

/-- A run of c bytes of the value c is stripped (R185). -/
theorem unpackBytes_append_run (d : ByteString) {c : Byte} (hc : 1 ≤ c.toNat) :
    unpackBytes (d ++ List.replicate c.toNat c) = (bitsOf d, false) := by
  have hlast : (d ++ List.replicate c.toNat c).getLast? = some c := by
    rw [List.getLast?_append, List.getLast?_replicate, if_neg (Nat.ne_of_gt hc), Option.some_or]
  have hvalid : validPadding (d ++ List.replicate c.toNat c) c = true :=
    (validPadding_iff _ c).2 ⟨hc, List.suffix_append d _⟩
  rw [unpackBytes, hlast]
  dsimp only
  rw [if_pos hvalid, List.length_append, List.length_replicate, Nat.add_sub_cancel, List.take_left]

/-- Bytes that end in no such run are answered whole, with the diagnostic (R185). -/
theorem unpackBytes_of_no_run {d : ByteString} (h : ∀ c : Byte, 1 ≤ c.toNat → ¬ List.replicate c.toNat c <:+ d) :
    unpackBytes d = (bitsOf d, true) := by
  unfold unpackBytes
  split
  case h_1 => rfl
  case h_2 c _ =>
    refine if_neg fun hvalid => ?_
    obtain ⟨hc, hrun⟩ := (validPadding_iff d c).1 hvalid
    exact h c hc hrun

/-- Settles O53: the run that is stripped, and the fallback where no run ends the bytes. -/
theorem unpackRule : Obligations.UnpackRule := by
  unfold Obligations.UnpackRule
  refine ⟨fun d _ hc => unpackBytes_append_run d hc, fun d hno => unpackBytes_of_no_run fun c hc hrun => ?_⟩
  obtain ⟨pre, hpre⟩ := hrun
  exact hno pre c hc hpre.symm

/-- Settles O54: the p bytes of the value p that Pack appends are the run that Unpack strips. -/
theorem unpackReversesPack : Obligations.UnpackReversesPack := by
  unfold Obligations.UnpackReversesPack
  intro b blockBytes hpos hmax
  obtain ⟨p, hone, hle, hshape, -⟩ := packedShape b blockBytes hpos hmax
  have hp : (BitVec.ofNat 8 p).toNat = p := Nat.mod_eq_of_lt (by omega)
  have hstrip := unpackBytes_append_run (bytesOf b) (c := BitVec.ofNat 8 p) (by rwa [hp])
  rw [hp] at hstrip
  rw [hshape, hstrip, bitsOf_bytesOf]

/-- The bytes that hold the bits UNPACK answers (R188). -/
theorem bytesFor_length_unpackBytes (d : ByteString) :
    bytesFor (unpackBytes d).1.length = (unpackBytes d).1.length / 8 := by
  have hwhole := length_unpackBytes_mod d
  unfold bytesFor
  omega

/-! ### PACK and UNPACK -/

/-- PACK without error, as one state (R181). -/
theorem exec_pack {s : State} {out : ByteString} (hblock : s.blockBytes ≠ 0) (hsrc : Fits s.srcAddr (bytesFor s.srcLen.toNat))
    (hpack : packBits (s.readBits s.srcAddr.toNat s.srcLen.toNat) s.blockBytes.toNat = out)
    (hdst : Fits s.dstAddr out.length) (hapart : Apart s.srcAddr (bytesFor s.srcLen.toNat) s.dstAddr out.length) :
    exec .pack s =
      .next (((s.writeBytes s.dstAddr.toNat out).setDstLen out.length).finish .none 0 {}) := by
  rw [exec_eq_complete, outcomeOf, packOutcome_eq, if_neg hblock, if_neg (not_not.2 ((inRange_iff _ _).2 hsrc)), hpack,
    deliver_ok _ _ hdst hapart, complete_ok]

/-- UNPACK without error, as one state (R188). -/
theorem exec_unpack {s : State} {r : BitString × Bool} (hsrc : Fits s.srcAddr s.srcLen.toNat)
    (hunpack : unpackBytes (s.readBytes s.srcAddr.toNat s.srcLen.toNat) = r)
    (hdst : Fits s.dstAddr (bytesFor r.1.length)) (hapart : Apart s.srcAddr s.srcLen.toNat s.dstAddr (bytesFor r.1.length)) :
    exec .unpack s = .next (((s.writeBytes s.dstAddr.toNat (bytesOf r.1)).setDstLen r.1.length).finish .none 0
      { padFault := r.2 }) := by
  rw [← length_bytesOf] at hdst hapart
  rw [exec_eq_complete, outcomeOf, unpackOutcome_eq, if_neg (not_not.2 ((inRange_iff _ _).2 hsrc)), hunpack,
    deliver_ok _ _ hdst hapart, complete_ok]

/-- Settles O31. -/
theorem packCompletes : Obligations.PackCompletes := by
  unfold Obligations.PackCompletes
  intro s hblock hsrc out hdst hapart
  exact ⟨_, exec_pack hblock hsrc rfl hdst hapart, rfl, (length_eq_of_fits hdst).symm, byteAt_writeBytes s _ _⟩

/-- Settles O32: UNPACK's bits are whole bytes, so its destination is their number over 8. -/
theorem unpackCompletes : Obligations.UnpackCompletes := by
  unfold Obligations.UnpackCompletes
  intro s hsrc r hdst hapart
  rw [← bytesFor_length_unpackBytes] at hdst hapart
  exact ⟨_, exec_unpack hsrc rfl hdst hapart, rfl, toNat_ofNat_of_le_bits (le_bits_of_fits hdst),
    length_unpackBytes_mod _, byteAt_writeBytes s _ _⟩

end Sys2Proof.Machine
end

section
/-! SUPPORT. The code matrix by halves: each row is the row of its low index bits, then that row again or its complement (R200).
From this follow the closed form of a bit (R201) and the distance of two rows (R202). -/

namespace Sys2Proof.Machine

/-! ### Agreement and distance -/

/-- The Hamming distance of two bit strings of equal length: the positions where they differ. -/
def distance (x y : BitString) : Nat := (List.zipWith (fun a b => a != b) x y).count true

@[simp] theorem agreement_cons (a b : Bool) (x y : BitString) :
    agreement (a :: x) (b :: y) = agreement x y + (a == b).toNat := by
  cases a <;> cases b <;> simp [agreement]

@[simp] theorem distance_cons (a b : Bool) (x y : BitString) :
    distance (a :: x) (b :: y) = distance x y + (a != b).toNat := by
  cases a <;> cases b <;> simp [distance]

theorem distance_self (x : BitString) : distance x x = 0 := by
  induction x with
  | nil => rfl
  | cons a x ih => rw [distance_cons, ih, bne_self_eq_false, Bool.toNat_false]

/-- Every position agrees or differs. -/
theorem agreement_add_distance {x y : BitString} (h : x.length = y.length) : agreement x y + distance x y = x.length := by
  induction x generalizing y with
  | nil => rfl
  | cons a x ih =>
    cases y with
    | nil => cases h
    | cons b y =>
      have hrest := ih (Nat.succ.inj h)
      have hbit : (a == b).toNat + (a != b).toNat = 1 := by cases a <;> cases b <;> rfl
      rw [agreement_cons, distance_cons, List.length_cons]
      omega

/-- Where two strings differ, one of them differs from any third. -/
theorem distance_le_add {x y : BitString} (z : BitString) (h : x.length = z.length) :
    distance x y ≤ distance x z + distance y z := by
  induction x generalizing y z with
  | nil => exact Nat.zero_le _
  | cons a x ih =>
    cases z with
    | nil => cases h
    | cons c z =>
      cases y with
      | nil => exact Nat.zero_le _
      | cons b y =>
        have hrest := ih (y := y) z (Nat.succ.inj h)
        have hbit : (a != b).toNat ≤ (a != c).toNat + (b != c).toNat := by cases a <;> cases b <;> cases c <;> decide
        rw [distance_cons, distance_cons, distance_cons]
        omega

theorem distance_append {x y : BitString} (x' y' : BitString) (h : x.length = y.length) :
    distance (x ++ x') (y ++ y') = distance x y + distance x' y' := by
  rw [distance, List.zipWith_append h, List.count_append]
  rfl

/-- Complementing one of two strings exchanges distance and agreement; complementing both keeps them. -/
theorem distance_map_xor (b c : Bool) (x y : BitString) :
    distance (x.map (b ^^ ·)) (y.map (c ^^ ·)) = if b = c then distance x y else agreement x y := by
  have hbit : ∀ p q : Bool, ((b ^^ p) != (c ^^ q)) = if b = c then p != q else p == q := by
    cases b <;> cases c <;> decide
  rw [distance, List.zipWith_map]
  simp only [hbit]
  split <;> rfl

/-! ### The rows by halves -/

/-- H_N by halves: below, the right half is complemented (R200). -/
theorem hadamard_succ (n : Nat) :
    hadamard (n + 1) = (hadamard n).map (fun r => r ++ r) ++ (hadamard n).map fun r => r ++ r.map (!·) := by
  have hneg : ∀ r ∈ sylvester n, (r.map fun x => decide (-x = 1)) = r.map fun x => !decide (x = 1) := by
    refine fun r hr => List.map_congr_left fun x hx => ?_
    rcases entry_of_mem_sylvester hr x hx with rfl | rfl <;> rfl
  simp only [hadamard, sylvester, List.map_append, List.map_map, Function.comp_def]
  exact congrArg _ (List.map_congr_left fun r hr => congrArg _ (hneg r hr))

/-- A row's index by its top bit: b picks the half of the matrix, and complements the right half of the row (R200). -/
theorem row_succ {n i : Nat} (b : Bool) (h : i < 2 ^ n) :
    row (n + 1) (2 ^ n * b.toNat + i) = row n i ++ (row n i).map (b ^^ ·) := by
  have hi : i < (hadamard n).length := by rwa [length_hadamard]
  have hrow : row n i = (hadamard n)[i] := List.getD_eq_getElem _ _ hi
  rw [hrow, row, hadamard_succ]
  cases b with
  | false =>
    rw [Bool.toNat_false, Nat.mul_zero, Nat.zero_add, List.getD_append _ _ _ _ (by rwa [List.length_map]),
      List.getD_eq_getElem _ _ (by rwa [List.length_map]), List.getElem_map]
    simp
  | true =>
    have hlen : ((hadamard n).map fun r => r ++ r).length = 2 ^ n := by rw [List.length_map, length_hadamard]
    rw [Bool.toNat_true, Nat.mul_one, List.getD_append_right _ _ _ _ (by omega), hlen, Nat.add_sub_cancel_left,
      List.getD_eq_getElem _ _ (by rwa [List.length_map]), List.getElem_map]
    simp

/-- An index below 2^(n+1) is a top bit above an index below 2^n. -/
theorem exists_topBit {n i : Nat} (h : i < 2 ^ (n + 1)) : ∃ (b : Bool) (i' : Nat), i' < 2 ^ n ∧ i = 2 ^ n * b.toNat + i' := by
  rw [pow_succ] at h
  by_cases hi : i < 2 ^ n
  · exact ⟨false, i, hi, by simp⟩
  · exact ⟨true, i - 2 ^ n, by omega, by rw [Bool.toNat_true]; omega⟩

/-! ### The closed form -/

/-- popcount of the low n bits. -/
def popcount (n v : Nat) : Nat := (List.range n).countP v.testBit

/-- The top bit of i AND j is the AND of the top bits. -/
theorem popcount_and_succ {n i j : Nat} (b c : Bool) (hi : i < 2 ^ n) (hj : j < 2 ^ n) :
    popcount (n + 1) ((2 ^ n * b.toNat + i) &&& (2 ^ n * c.toNat + j)) = popcount n (i &&& j) + (b && c).toNat := by
  have hlow : (List.range n).countP ((2 ^ n * b.toNat + i) &&& (2 ^ n * c.toNat + j)).testBit = popcount n (i &&& j) := by
    refine List.countP_congr fun k hk => ?_
    have hk := List.mem_range.1 hk
    rw [Nat.testBit_and, Nat.testBit_and, Nat.testBit_two_pow_mul_add _ hi, Nat.testBit_two_pow_mul_add _ hj, if_pos hk, if_pos hk]
  have htop : ((2 ^ n * b.toNat + i) &&& (2 ^ n * c.toNat + j)).testBit n = (b && c) := by
    rw [Nat.testBit_and, Nat.testBit_two_pow_mul_add _ hi, Nat.testBit_two_pow_mul_add _ hj, if_neg n.lt_irrefl, if_neg n.lt_irrefl,
      Nat.sub_self]
    cases b <;> cases c <;> rfl
  rw [popcount, List.range_succ, List.countP_append, hlow, List.countP_singleton, htop]
  cases b <;> cases c <;> rfl

/-- A bit by the top bits of its row and its position: it is complemented where both are 1 (R200). -/
theorem getElem?_row_succ {n i j : Nat} (b c : Bool) (hi : i < 2 ^ n) (hj : j < 2 ^ n) :
    (row (n + 1) (2 ^ n * b.toNat + i))[2 ^ n * c.toNat + j]? = (row n i)[j]?.map ((b && c) ^^ ·) := by
  have hlen := length_row hi
  rw [row_succ b hi]
  cases c with
  | false =>
    rw [Bool.toNat_false, Nat.mul_zero, Nat.zero_add, List.getElem?_append_left (by omega), Bool.and_false]
    simp
  | true =>
    rw [Bool.toNat_true, Nat.mul_one, List.getElem?_append_right (by omega), hlen, Nat.add_sub_cancel_left, List.getElem?_map,
      Bool.and_true]

/-- Adding a bit to a count complements its evenness where the bit is 1. -/
theorem xor_decide_even (b : Bool) (m : Nat) : (b ^^ decide (m % 2 = 0)) = decide ((m + b.toNat) % 2 = 0) := by
  cases b with
  | false => exact Bool.false_xor _
  | true =>
    rw [Bool.true_xor, ← decide_not, decide_eq_decide, Bool.toNat_true]
    omega

/-- Bit j of row i is 1 exactly when popcount(i AND j) is even (R201). -/
theorem getElem?_row {n i j : Nat} (hi : i < 2 ^ n) (hj : j < 2 ^ n) :
    (row n i)[j]? = some (decide (popcount n (i &&& j) % 2 = 0)) := by
  induction n generalizing i j with
  | zero =>
    obtain rfl : i = 0 := Nat.lt_one_iff.1 hi
    obtain rfl : j = 0 := Nat.lt_one_iff.1 hj
    rfl
  | succ n ih =>
    obtain ⟨b, i', hi', rfl⟩ := exists_topBit hi
    obtain ⟨c, j', hj', rfl⟩ := exists_topBit hj
    rw [getElem?_row_succ b c hi' hj', ih hi' hj', Option.map_some, xor_decide_even, popcount_and_succ b c hi' hj']

/-- Settles O55. -/
theorem codeMatrixClosedForm : Obligations.CodeMatrixClosedForm := fun _ _ _ => getElem?_row

/-! ### The distance of two rows -/

/-- Rows of different index differ in half of their positions: both halves differ so, or one half differs where the other
agrees (R202). -/
theorem two_mul_distance_row {n i j : Nat} (hi : i < 2 ^ n) (hj : j < 2 ^ n) (hne : i ≠ j) :
    2 * distance (row n i) (row n j) = 2 ^ n := by
  induction n generalizing i j with
  | zero => exact absurd ((Nat.lt_one_iff.1 hi).trans (Nat.lt_one_iff.1 hj).symm) hne
  | succ n ih =>
    obtain ⟨b, i', hi', rfl⟩ := exists_topBit hi
    obtain ⟨c, j', hj', rfl⟩ := exists_topBit hj
    have hlen : (row n i').length = (row n j').length := (length_row hi').trans (length_row hj').symm
    rw [row_succ b hi', row_succ c hj', distance_append _ _ hlen, distance_map_xor, pow_succ]
    split
    case isTrue hbc =>
      subst hbc
      have hhalf := ih hi' hj' fun heq => hne (congrArg _ heq)
      omega
    case isFalse =>
      have hall := agreement_add_distance hlen
      rw [length_row hi'] at hall
      omega

theorem distance_row {n i j : Nat} (hn : 1 ≤ n) (hi : i < 2 ^ n) (hj : j < 2 ^ n) (hne : i ≠ j) :
    distance (row n i) (row n j) = 2 ^ (n - 1) := by
  have htwo := two_mul_distance_row hi hj hne
  have hpow := Nat.two_pow_pred_mul_two hn
  omega

/-- The positions of a row and a block of its length agree or differ. -/
theorem agreement_row_add_distance {n i : Nat} {r : BitString} (hi : i < 2 ^ n) (hr : r.length = 2 ^ n) :
    agreement (row n i) r + distance (row n i) r = 2 ^ n :=
  (agreement_add_distance ((length_row hi).trans hr.symm)).trans (length_row hi)

/-- Settles O56. -/
theorem rowsAreEquidistant : Obligations.RowsAreEquidistant := by
  unfold Obligations.RowsAreEquidistant
  intro n i j hn hi hj hne
  have hdist := distance_row hn hi hj hne
  have hall := agreement_row_add_distance hi (length_row hj)
  have hpow := Nat.two_pow_pred_mul_two hn
  exact ⟨length_row hi, by omega, hdist⟩

end Sys2Proof.Machine
end

section
/-! SUPPORT. The decision of DECODE_BLOCK: the row chosen is the nearest one (R207), and the row sent while the errors are within
the radius (R203). -/

namespace Sys2Proof.Machine

/-! ### The decision -/

theorem decBlock_index_lt (n : Nat) (r : BitString) : (decBlock n r).index < 2 ^ n := (bestRow_spec n r).1

theorem decBlock_dist_eq {n : Nat} {r : BitString} (hr : r.length = 2 ^ n) :
    (decBlock n r).dist = distance (row n (decBlock n r).index) r := by
  have hall := agreement_row_add_distance (decBlock_index_lt n r) hr
  exact (Nat.eq_sub_of_add_eq' hall).symm

/-- Settles O57. -/
theorem blockDecisionRule : Obligations.BlockDecisionRule := by
  unfold Obligations.BlockDecisionRule
  intro n r hr d
  have hindex : d.index < 2 ^ n := decBlock_index_lt n r
  have hval : val d.payload = d.index := val_bin_of_lt hindex
  have hdist : d.dist = distance (row n d.index) r := decBlock_dist_eq hr
  refine ⟨hindex, rfl, hval, rfl, (bestRow_spec n r).2, ?_, ?_⟩
  · rw [encBlock, hval]
    exact hdist
  · rw [hdist]
    exact agreement_row_add_distance hindex hr

/-! ### The correction radius -/

/-- Within the radius of a row, every other row is farther and so agrees less (R203). -/
theorem agreement_row_lt {n i k : Nat} {r : BitString} (hn : 1 ≤ n) (hi : i < 2 ^ n) (hk : k < 2 ^ n) (hne : k ≠ i)
    (hr : r.length = 2 ^ n) (hrad : distance (row n i) r ≤ (2 ^ (n - 1) - 1) / 2) :
    agreement (row n k) r < agreement (row n i) r := by
  have hapart := distance_row hn hk hi hne
  have htriangle := distance_le_add (y := row n i) r ((length_row hk).trans hr.symm)
  have halli := agreement_row_add_distance hi hr
  have hallk := agreement_row_add_distance hk hr
  have hpos := Nat.two_pow_pos (n - 1)
  omega

/-- A block within the radius of a row decodes to that row (R203). -/
theorem decBlock_index_eq {n i : Nat} {r : BitString} (hn : 1 ≤ n) (hi : i < 2 ^ n) (hr : r.length = 2 ^ n)
    (hrad : distance (row n i) r ≤ (2 ^ (n - 1) - 1) / 2) : (decBlock n r).index = i := by
  by_contra hne
  obtain ⟨hbest, hmax⟩ := bestRow_spec n r
  exact absurd (hmax i hi).1 (Nat.not_le.2 (agreement_row_lt hn hi hbest hne hr hrad))

/-- Settles O58. -/
theorem errorsWithinRadiusAreCorrected : Obligations.ErrorsWithinRadiusAreCorrected := by
  unfold Obligations.ErrorsWithinRadiusAreCorrected
  exact fun n i r hn _ hi hr hrad =>
    ⟨decBlock_index_eq hn hi hr hrad, fun k hk hne => agreement_row_lt hn hi hk hne hr hrad⟩

/-- A codeword received as it was sent decodes to its payload at distance 0. -/
theorem decBlock_encBlock {n : Nat} {p : BitString} (hn : 1 ≤ n) (hp : p.length = n) :
    (decBlock n (encBlock n p)).payload = p ∧ (decBlock n (encBlock n p)).dist = 0 := by
  have hi : val p < 2 ^ n := hp ▸ val_lt p
  have hr : (encBlock n p).length = 2 ^ n := length_encBlock hp
  have hself : distance (row n (val p)) (encBlock n p) = 0 := distance_self _
  have hindex : (decBlock n (encBlock n p)).index = val p := decBlock_index_eq hn hi hr (hself ▸ Nat.zero_le _)
  constructor
  · show bin n (decBlock n (encBlock n p)).index = p
    rw [hindex, ← hp, bin_val]
  · rw [decBlock_dist_eq hr, hindex, hself]

end Sys2Proof.Machine
end

section
/-! SUPPORT. The streams of FEC_ENCODE and FEC_DECODE as blocks put end to end (R212, R216), the completions of the four FEC
commands as one state each (R205, R208, R213, R217), and the round trip (R221). -/

namespace Sys2Proof.Machine

open Sys2Proof.Safety

/-! ### Streams as blocks -/

/-- The first b blocks of a string, put end to end, are its beginning. -/
theorem flatMap_block (w : Nat) (s : BitString) (b : Nat) : ((List.range b).flatMap fun j => block w s j) = s.take (b * w) := by
  induction b with
  | zero => rw [Nat.zero_mul, List.take_zero]; rfl
  | succ b ih => rw [List.range_succ, List.flatMap_append, ih, List.flatMap_singleton, block, Nat.succ_mul, List.take_add]

/-- A block of w bits that lies inside the string is whole. -/
theorem length_block_of_lt {w b j : Nat} {s : BitString} (hs : b * w ≤ s.length) (hj : j < b) : (block w s j).length = w := by
  have hle : (j + 1) * w ≤ b * w := Nat.mul_le_mul_right w hj
  rw [Nat.succ_mul] at hle
  rw [length_block]
  omega

/-- The padded source is whole blocks of N bits (R212). -/
theorem length_padded {n : Nat} (hn : 1 ≤ n) (s : BitString) :
    (s ++ zeros (fecPadOf n s.length)).length = (s.length + fecPadOf n s.length) / n * n := by
  rw [List.length_append, length_zeros]
  exact (Nat.div_mul_cancel (Nat.dvd_of_mod_eq_zero (fecPadOf_spec hn s.length).2)).symm

theorem length_fecEncodeBits_padded {n : Nat} (hn : 1 ≤ n) (s : BitString) :
    (fecEncodeBits n s).length = (s.length + fecPadOf n s.length) / n * 2 ^ n := by
  rw [length_fecEncodeBits hn, padded_div hn]

/-- Block j of the encoded stream is the codeword of block j of the padded source (R212). -/
theorem block_fecEncodeBits {n j : Nat} (s : BitString) (hj : j < (s.length + fecPadOf n s.length) / n) :
    block (2 ^ n) (fecEncodeBits n s) j = encBlock n (block n (s ++ zeros (fecPadOf n s.length)) j) := by
  refine take_drop_flatMap_range (fun j => encBlock n (block n (s ++ zeros (fecPadOf n s.length)) j)) (fun k => ?_) hj
  have hle : (block n (s ++ zeros (fecPadOf n s.length)) k).length ≤ n := List.length_take_le n _
  exact length_row ((val_lt _).trans_le (Nat.pow_le_pow_right two_pos hle))

/-- The bits FEC_DECODE answers are the payloads in order, cut at FEC_ORIG_LEN (R216). -/
theorem fecDecodeBits_bits (n : Nat) (r : BitString) (origLen : Nat) : (fecDecodeBits n r origLen).bits =
    ((List.range (r.length / 2 ^ n)).flatMap fun j => (decBlock n (block (2 ^ n) r j)).payload).take origLen :=
  congrArg (List.take origLen) (List.flatMap_map ..)

theorem fecDecodeBits_errors (n : Nat) (r : BitString) (origLen : Nat) : (fecDecodeBits n r origLen).errors =
    ((List.range (r.length / 2 ^ n)).map fun j => (decBlock n (block (2 ^ n) r j)).dist).sum :=
  congrArg List.sum List.map_map

/-- The decoder undoes the encoder, block by block (R221). -/
theorem fecDecodeBits_fecEncodeBits {n : Nat} (hn : 1 ≤ n) (s : BitString) :
    fecDecodeBits n (fecEncodeBits n s) s.length = { bits := s, errors := 0, trunc := false, short := false } := by
  have hlen := length_fecEncodeBits_padded hn s
  have hblocks : (fecEncodeBits n s).length / 2 ^ n = (s.length + fecPadOf n s.length) / n := by
    rw [hlen, Nat.mul_div_cancel _ (Nat.two_pow_pos n)]
  have hdec : ∀ j ∈ List.range ((s.length + fecPadOf n s.length) / n),
      (decBlock n (block (2 ^ n) (fecEncodeBits n s) j)).payload = block n (s ++ zeros (fecPadOf n s.length)) j ∧
        (decBlock n (block (2 ^ n) (fecEncodeBits n s) j)).dist = 0 := by
    intro j hj
    have hj := List.mem_range.1 hj
    rw [block_fecEncodeBits s hj]
    exact decBlock_encBlock hn (length_block_of_lt (length_padded hn s).ge hj)
  have hbits : (fecDecodeBits n (fecEncodeBits n s) s.length).bits = s := by
    rw [fecDecodeBits_bits, hblocks, List.flatMap_congr fun j hj => (hdec j hj).1, flatMap_block, ← length_padded hn,
      List.take_length, List.take_left]
  have herrors : (fecDecodeBits n (fecEncodeBits n s) s.length).errors = 0 := by
    rw [fecDecodeBits_errors, hblocks, List.map_congr_left fun j hj => (hdec j hj).2]
    simp
  have htrunc : (fecDecodeBits n (fecEncodeBits n s) s.length).trunc = false :=
    decide_eq_false (not_not.2 (hlen ▸ Nat.mul_mod_left _ _))
  have hshort : (fecDecodeBits n (fecEncodeBits n s) s.length).short = false := by
    have hpadded := length_padded hn s
    rw [List.length_append, ← hblocks] at hpadded
    exact decide_eq_false (by omega)
  exact (StreamDecision.mk.injEq ..).mpr ⟨hbits, herrors, htrunc, hshort⟩

/-! ### The completions -/

/-- A state whose BUF is that of a write holds the bytes written and the others as before (R112). -/
theorem stored_of_buf_eq {s t : State} {a : Nat} {bs : ByteString} (hbuf : t.buf = (s.writeBytes a bs).buf)
    (hepoch : t.bufEpoch = s.bufEpoch) : Stored s t a bs := by
  intro x
  rw [← byteAt_writeBytes, State.byteAt, State.byteAt, hbuf, hepoch, writeBytes_bufEpoch]

/-- A bit string stored reads back at its length (R66, R67). -/
theorem readBits_of_stored {s t : State} {a : Nat} {b : BitString} (h : Stored s t a (bytesOf b)) :
    t.readBits a b.length = b :=
  (readBits_congr fun x _ _ => (h x).trans (byteAt_writeBytes s a _ x).symm).trans (readBits_writeBytes_bytesOf s a b)

theorem nLegal_of_bounds {n : BitVec 4} (hpos : 1 ≤ n.toNat) (hmax : n.toNat ≤ 8) : ¬ ¬ nLegal n = true :=
  not_not.2 ((nLegal_iff n).2 ⟨hpos, hmax⟩)

/-- ENCODE_BLOCK without error, as one state (R205). -/
theorem exec_encodeBlock {s : State} {p : BitString} (hpos : 1 ≤ s.n.toNat) (hmax : s.n.toNat ≤ 8)
    (hlen : s.srcLen.toNat = s.n.toNat) (hsrc : Fits s.srcAddr 1) (hread : s.readBits s.srcAddr.toNat s.n.toNat = p)
    (hdst : Fits s.dstAddr (bytesFor (2 ^ s.n.toNat))) (hapart : Apart s.srcAddr 1 s.dstAddr (bytesFor (2 ^ s.n.toNat))) :
    exec .encodeBlock s = .next ((((s.writeBytes s.dstAddr.toNat (bytesOf (encBlock s.n.toNat p))).setDstLen
      (2 ^ s.n.toNat)).setBlkIndex (val p)).finish .none 0 {}) := by
  have hbytes : (bytesOf (encBlock s.n.toNat p)).length = bytesFor (2 ^ s.n.toNat) := by
    rw [length_bytesOf, length_encBlock (by rw [← hread, length_readBits])]
  rw [← hbytes] at hdst hapart
  rw [exec_eq_complete, outcomeOf, encodeBlockOutcome_eq, if_neg (nLegal_of_bounds hpos hmax), if_neg (not_not.2 hlen),
    bytesFor_payload (by omega), if_neg (not_not.2 ((inRange_iff _ _).2 hsrc)), hread, deliver_ok _ _ hdst hapart, complete_ok]

/-- DECODE_BLOCK without error, as one state (R208). -/
theorem exec_decodeBlock {s : State} {d : BlockDecision} (hpos : 1 ≤ s.n.toNat) (hmax : s.n.toNat ≤ 8)
    (hlen : s.srcLen.toNat = 2 ^ s.n.toNat) (hsrc : Fits s.srcAddr (bytesFor (2 ^ s.n.toNat)))
    (hdec : decBlock s.n.toNat (s.readBits s.srcAddr.toNat (2 ^ s.n.toNat)) = d) (hdst : Fits s.dstAddr 1)
    (hapart : Apart s.srcAddr (bytesFor (2 ^ s.n.toNat)) s.dstAddr 1) :
    exec .decodeBlock s = .next ((((((s.writeBytes s.dstAddr.toNat (bytesOf d.payload)).setDstLen s.n.toNat).setBlkIndex
      d.index).setBlkAgree d.agree).setErrCorr d.dist).finish .none 0 {}) := by
  have hbytes : (bytesOf d.payload).length = 1 := by
    rw [length_bytesOf, ← hdec, length_decBlock_payload, bytesFor_payload (by omega)]
  rw [← hbytes] at hdst hapart
  rw [exec_eq_complete, outcomeOf, decodeBlockOutcome_eq, if_neg (nLegal_of_bounds hpos hmax), if_neg (not_not.2 hlen),
    if_neg (not_not.2 ((inRange_iff _ _).2 hsrc)), hdec, deliver_ok _ _ hdst hapart, complete_ok]

/-- FEC_ENCODE without error, as one state (R213). -/
theorem exec_fecEncode {s : State} {out : BitString} (hpos : 1 ≤ s.n.toNat) (hmax : s.n.toNat ≤ 8)
    (hsrc : Fits s.srcAddr (bytesFor s.srcLen.toNat))
    (henc : fecEncodeBits s.n.toNat (s.readBits s.srcAddr.toNat s.srcLen.toNat) = out)
    (hdst : Fits s.dstAddr (bytesFor out.length))
    (hapart : Apart s.srcAddr (bytesFor s.srcLen.toNat) s.dstAddr (bytesFor out.length)) :
    exec .fecEncode s = .next ((((s.writeBytes s.dstAddr.toNat (bytesOf out)).setDstLen out.length).setEncodingParams
      s.srcLen.toNat (fecPadOf s.n.toNat s.srcLen.toNat)).finish .none 0 {}) := by
  rw [← length_bytesOf] at hdst hapart
  rw [exec_eq_complete, outcomeOf, fecEncodeOutcome_eq, if_neg (nLegal_of_bounds hpos hmax),
    if_neg (not_not.2 ((inRange_iff _ _).2 hsrc)), henc, deliver_ok _ _ hdst hapart, complete_ok]

/-- FEC_DECODE without error, as one state (R217). -/
theorem exec_fecDecode {s : State} {d : StreamDecision} (hpos : 1 ≤ s.n.toNat) (hmax : s.n.toNat ≤ 8)
    (hsrc : Fits s.srcAddr (bytesFor s.srcLen.toNat))
    (hdec : fecDecodeBits s.n.toNat (s.readBits s.srcAddr.toNat s.srcLen.toNat) s.fecOrigLen.toNat = d)
    (hdst : Fits s.dstAddr (bytesFor d.bits.length))
    (hapart : Apart s.srcAddr (bytesFor s.srcLen.toNat) s.dstAddr (bytesFor d.bits.length)) :
    exec .fecDecode s = .next ((((s.writeBytes s.dstAddr.toNat (bytesOf d.bits)).setDstLen d.bits.length).setErrCorr
      d.errors).finish .none 0 { trunc := d.trunc, short := d.short }) := by
  rw [← length_bytesOf] at hdst hapart
  rw [exec_eq_complete, outcomeOf, fecDecodeOutcome_eq, if_neg (nLegal_of_bounds hpos hmax),
    if_neg (not_not.2 ((inRange_iff _ _).2 hsrc)), hdec, deliver_ok _ _ hdst hapart, complete_ok]

/-! ### Block commands -/

/-- Settles O33: a payload of at most 8 bits names a row below 256. -/
theorem encodeBlockCompletes : Obligations.EncodeBlockCompletes := by
  unfold Obligations.EncodeBlockCompletes
  intro s hpos hmax hlen hsrc hdst hapart p
  have hexec := exec_encodeBlock hpos hmax hlen hsrc (p := p) rfl hdst hapart
  have hp : p.length = s.n.toNat := length_readBits _ _ _
  have hrows : 2 ^ s.n.toNat ≤ 256 := Nat.pow_le_pow_right (by decide) hmax
  have hval : val p < 2 ^ s.n.toNat := hp ▸ val_lt p
  clear_value p
  exact ⟨_, hexec, rfl, toNat_ofNat_of_le_bits (by omega), Nat.mod_eq_of_lt (by omega), stored_of_buf_eq rfl rfl, length_row hval⟩

/-- Settles O34: the index is below 256, and the agreement and the distance at most 256. -/
theorem decodeBlockCompletes : Obligations.DecodeBlockCompletes := by
  unfold Obligations.DecodeBlockCompletes
  intro s hpos hmax hlen hsrc hdst hapart d
  have hexec := exec_decodeBlock hpos hmax hlen hsrc (d := d) rfl hdst hapart
  have hrows : 2 ^ s.n.toNat ≤ 256 := Nat.pow_le_pow_right (by decide) hmax
  have hindex : d.index < 2 ^ s.n.toNat := decBlock_index_lt _ _
  have hagree : d.agree ≤ 2 ^ s.n.toNat := decBlock_agree_le _ _
  have hdist : d.dist = 2 ^ s.n.toNat - d.agree := rfl
  have hpayload : d.payload = bin s.n.toNat d.index := rfl
  clear_value d
  rw [← hdist, ← hpayload]
  refine ⟨_, hexec, ?frame, toNat_ofNat_of_le_bits (by omega), Nat.mod_eq_of_lt (by omega), Nat.mod_eq_of_lt (by omega),
    toNat_ofNat_of_le_bits (by omega), ?stored⟩
  case frame => cases s; rfl
  case stored => exact stored_of_buf_eq (by simp) (by simp)

/-! ### Stream commands -/

/-- Settles O35: the stream is the codewords of the padded blocks. -/
theorem fecEncodeCompletes : Obligations.FecEncodeCompletes := by
  unfold Obligations.FecEncodeCompletes
  intro s hpos hmax hsrc out hdst hapart
  have hexec := exec_fecEncode hpos hmax hsrc (out := out) rfl hdst hapart
  have hread := length_readBits s s.srcAddr.toNat s.srcLen.toNat
  have hlen : out.length = _ := length_fecEncodeBits_padded hpos _
  have hblock (j : Nat) : _ → block _ out j = _ := block_fecEncodeBits _
  clear_value out
  rw [hread] at hlen hblock
  obtain ⟨hpad, hwhole⟩ := fecPadOf_spec hpos s.srcLen.toNat
  have hfecPad : (BitVec.ofNat 32 (fecPadOf s.n.toNat s.srcLen.toNat)).toNat = fecPadOf s.n.toNat s.srcLen.toNat :=
    toNat_ofNat_of_le_bits (by omega)
  have hdstLen := toNat_ofNat_of_le_bits (le_bits_of_fits hdst)
  refine ⟨_, hexec, ?frame, hdstLen, ?results⟩
  case frame =>
    rw [State.setEncodingParams, BitVec.ofNat_toNat, BitVec.setWidth_eq]
    rfl
  case results =>
    simp only [finish_fecPad, setEncodingParams_fecPad, hfecPad]
    exact ⟨hpad, hwhole, hdstLen.trans hlen, hblock, stored_of_buf_eq rfl rfl⟩

/-- Settles O36: the distances sum to at most the bits received. -/
theorem fecDecodeCompletes : Obligations.FecDecodeCompletes := by
  unfold Obligations.FecDecodeCompletes
  intro s hpos hmax hsrc w r d len hdst hapart
  have hr : r.length = s.srcLen.toNat := length_readBits _ _ _
  have hlen : d.bits.length = len := by rw [length_fecDecodeBits, hr]
  have herrors : d.errors ≤ 524288 := (fecDecodeBits_errors_le _ _ _).trans (hr.trans_le (le_bits_of_fits hsrc))
  have hexec := exec_fecDecode hpos hmax hsrc (d := d) rfl (hlen ▸ hdst) (hlen ▸ hapart)
  have htrunc : d.trunc = decide (s.srcLen.toNat % w ≠ 0) := hr ▸ rfl
  have hshort : d.short = decide (s.srcLen.toNat / w * s.n.toNat < s.fecOrigLen.toNat) := hr ▸ rfl
  rw [htrunc, hshort] at hexec
  refine ⟨_, hexec, rfl, ?dstLen, ?errCorr, ?bits, hlen, stored_of_buf_eq rfl rfl⟩
  case dstLen => exact hlen ▸ toNat_ofNat_of_le_bits (le_bits_of_fits (hlen ▸ hdst))
  case errCorr =>
    rw [← hr]
    exact (toNat_ofNat_of_le_bits herrors).trans (fecDecodeBits_errors _ _ _)
  case bits =>
    rw [← hr]
    exact fecDecodeBits_bits _ _ _

/-- Settles O59: the commands store what the codec answers, and the codec's halves undo each other. -/
theorem fecRoundTrip : Obligations.FecRoundTrip := by
  unfold Obligations.FecRoundTrip
  refine ⟨fun n b hn _ => fecDecodeBits_fecEncodeBits hn b, ?_⟩
  intro s hpos hmax hsrc b c hdst hapart
  have hb : b.length = s.srcLen.toNat := length_readBits _ _ _
  have hcodec := fecDecodeBits_fecEncodeBits hpos b
  refine ⟨?encode, fun u hn horig hlen husrc hread hudst huapart => ?decode⟩
  case encode =>
    obtain ⟨t, hexec, hframe, hdstLen, -, -, -, -, hstored⟩ := fecEncodeCompletes s hpos hmax hsrc hdst hapart
    exact ⟨t, hexec, by rw [hframe]; rfl, hdstLen, by rw [hframe], readBits_of_stored hstored⟩
  case decode =>
    have hdec : fecDecodeBits u.n.toNat (u.readBits u.srcAddr.toNat u.srcLen.toNat) u.fecOrigLen.toNat =
        { bits := b, errors := 0, trunc := false, short := false } := by
      rw [hn, horig, hlen, hread, ← hb]
      exact hcodec
    have hdstLen : BitVec.ofNat 32 b.length = s.srcLen := by rw [hb, BitVec.ofNat_toNat, BitVec.setWidth_eq]
    exact ⟨_, exec_fecDecode (hn ▸ hpos) (hn ▸ hmax) (hlen ▸ husrc) hdec hudst (hlen ▸ huapart), rfl, rfl, rfl, hdstLen,
      readBits_of_stored (stored_of_buf_eq rfl rfl)⟩

end Sys2Proof.Machine
end

section
/-! SUPPORT. The illegal word at the engine's move (R91, R241) and the interrupt output after each operation that moves DONE or
IRQ_EN (R246). -/

namespace Sys2Proof.Machine

/-! ### The interrupt output -/

theorem irq_eq_true_iff (s : State) : s.irq = true ↔ s.done = true ∧ s.irqEn = true := Bool.and_eq_true_iff

/-- A completion sets DONE, so IRQ follows the enable (R111, R246). -/
@[simp] theorem irq_finish (s : State) (e : ErrCode) (info : Word) (fl : Diag) : (s.finish e info fl).irq = s.irqEn :=
  Bool.true_and _

/-- Issue clears DONE (R110). -/
@[simp] theorem irq_issue (s : State) (w : Word) : (s.issue w).irq = false := Bool.false_and _

theorem OnlyResults.irqEn_eq {s t : State} (h : OnlyResults s t) : t.irqEn = s.irqEn := by rw [h]

/-- An error or a success, a completion raises IRQ if CTRL enables it: no command writes CTRL (R118, R246). -/
theorem irq_complete (i : Instr) (s : State) : (s.complete (outcomeOf i s)).irq = s.irqEn := by
  obtain ⟨e, info, -, hc⟩ | ⟨t, fl, -, hres, hc⟩ := complete_cases i s
  · rw [hc, irq_finish]
  · rw [hc, irq_finish, hres.irqEn_eq]

theorem access_write_ctrl (s : State) (v : Word) : s.access (.write 0x00008 .b4 v) = { s with irqEn := v.getLsbD 0 } :=
  access_write_reg s .ctrl v

/-- Writing CTRL masks IRQ or lets DONE through (R24, R246). -/
theorem irq_access_write_ctrl (s : State) (v : Word) :
    (s.access (.write 0x00008 .b4 v)).irq = (s.done && v.getLsbD 0) := by
  rw [access_write_ctrl, State.irq]

/-- Masking, or enabling, leaves DONE pending (R246). -/
theorem done_access_write_ctrl (s : State) (v : Word) : (s.access (.write 0x00008 .b4 v)).done = s.done := by
  rw [access_write_ctrl]

/-- Writing 1 to STATUS.DONE lowers IRQ whatever the enable is (R25, R246). -/
theorem irq_access_write_status {v : Word} (s : State) (h : v.getLsbD 1 = true) :
    (s.access (.write 0x0000C .b4 v)).irq = false := by
  rw [access_write_status, State.irq, h, Bool.not_true, Bool.and_false, Bool.false_and]

/-- Settles O24, operation by operation: completion, issue, the write of 1 to DONE, the mask, and the enable after it. -/
theorem irqIsALevel : Obligations.IrqIsALevel := by
  unfold Obligations.IrqIsALevel
  intro s
  refine ⟨irq_eq_true_iff s, fun i t hexec => ?completion, irq_issue s, irq_access_write_status s (by decide), ?masked,
    done_access_write_ctrl s 0, ?enabledAgain⟩
  case completion => rw [exec_next_iff.1 hexec, irq_complete]
  case masked =>
    rw [irq_access_write_ctrl]
    exact Bool.and_false _
  case enabledAgain =>
    rw [irq_access_write_ctrl, done_access_write_ctrl]
    exact Bool.and_true _

/-! ### The illegal word -/

/-- A word that encodes no command is illegal (R91, R92). -/
theorem exists_decode_eq_error {w : Word} (h : ∀ i, w ≠ encode i) : ∃ e, decode w = .error e := by
  cases hdec : decode w with
  | error e => exact ⟨e, rfl⟩
  | ok i => exact absurd (decode_eq_ok_iff.1 hdec) (h i)

/-- The engine completes an illegal word with BAD_CMD (R91, R241). -/
theorem engineTurn_illegal {s : State} {w : Word} {e : DecodeError} (hpend : s.pend = .running w) (hdec : decode w = .error e) :
    engineTurn s = .next (s.finish .badCmd 0 {}) := by
  rw [engineTurn_running hpend, completeWord_error s hdec]

/-- The two ways in which the engine moves on a pending word: with no schedule left, or at its turn (R111, R119; log entry 3). -/
theorem step_engineMoves {s : State} {w : Word} {ts : List Turn} (hpend : s.pend = .running w)
    (hmove : (s.turns = [] ∧ ts = []) ∨ s.turns = .engine :: ts) : step s = engineTurn (s.setTurns ts) := by
  obtain ⟨hturns, rfl⟩ | hturns := hmove
  · rw [step_unscheduled_busy hturns ((busy_eq_true_iff s).2 ⟨w, hpend⟩), setTurns_nil hturns]
  · exact step_engineTurn hturns

/-- Settles O3: a word without a match value encodes no command, so the engine's move is the completion with BAD_CMD. -/
theorem illegalWordCompletesWithBadCmd : Obligations.IllegalWordCompletesWithBadCmd := by
  unfold Obligations.IllegalWordCompletesWithBadCmd
  intro s w ts hpend hvalue hmove
  have hnotEncoded : ∀ i, w ≠ encode i := by
    rintro i rfl
    exact hvalue (List.mem_map_of_mem (f := Prod.snd) (decodeAndEncodeAgree (encode i) i).2)
  obtain ⟨e, hdec⟩ := exists_decode_eq_error hnotEncoded
  have hstep : step s = .next ((s.setTurns ts).finish .badCmd 0 {}) := by
    rw [step_engineMoves hpend hmove]
    exact engineTurn_illegal (s := s.setTurns ts) hpend hdec
  exact ⟨_, hstep, rfl, irq_finish _ _ _ _⟩

end Sys2Proof.Machine
end

section
/-! SUPPORT. What the reset input leaves for the host to see: the registers, the interrupt output and the bytes of BUF (R270, R271,
R272; log entries 1 and 8), and the invariant after reset. -/

namespace Sys2Proof.Machine

/-! ### What the host sees after the reset input -/

/-- No register shows how many resets there were, nor anything of the host, which reset does not touch (R270). -/
@[simp] theorem regRead_resetInput (s : State) (r : RegName) : s.resetInput.regRead r = State.reset.regRead r := by
  cases r <;> rfl

/-- Reset clears DONE and its enable (R49, R246). -/
@[simp] theorem irq_resetInput (s : State) : s.resetInput.irq = false := rfl

/-- Every byte of BUF is unspecified anew: reset leaves none written, and counts itself (R271, R272; log entry 1). -/
@[simp] theorem byteAt_resetInput (s : State) (a : Nat) :
    s.resetInput.byteAt a = Config.unwrittenByte (s.bufEpoch + 1) a := by
  have hbuf : s.resetInput.buf = [] := resetInput_buf s
  rw [State.byteAt, hbuf, Memory.get?_nil, Option.getD_none, resetInput_bufEpoch]

/-! ### The obligations -/

/-- Settles O7: the step at a reset turn is the reset input, whatever state the command engine is in. -/
theorem resetInputRestoresReset : Obligations.ResetInputRestoresReset := by
  unfold Obligations.ResetInputRestoresReset
  intro s ts hturns
  exact ⟨_, step_resetTurn hturns, regRead_resetInput _, resetInput_table _, resetInput_freq _, resetInput_pend _,
    irq_resetInput _, byteAt_resetInput (s.setTurns ts)⟩

/-- Settles O8: reset is the base case of the invariant. -/
theorem resetSatisfiesInvariant : Obligations.ResetSatisfiesInvariant := inv_reset

end Sys2Proof.Machine
end
